-- ==== Sys2Proof/Word.lean ====
section
/-! DEFINITION. The word, byte and register-number types (rules R11, R20, R101). -/

namespace Sys2Proof

/-- A register value, an address or an instruction word: 32 bits (R11). -/
abbrev Word := BitVec 32

/-- The addressable unit of memory: 8 bits (R38). -/
abbrev Byte := BitVec 8

/-- A general-purpose register number, as a 5-bit instruction field holds it (R20, R101). -/
abbrev Reg := BitVec 5

end Sys2Proof
end

