-- ==== Sys2Proof/Syntax.lean ====
section
/-! DEFINITION. The instructions: one constructor for each row of spec/opcode_table.json (R100 to R111, R147, R177,
R212, R242, R266, R291, R320). The fields stand in the order of the encoding: A, B, C, then the immediate. A field that the
encoding fixes (a zero, or register 29, 30, 31) is no argument. -/

namespace Sys2Proof

/-- An instruction of the Nios II. `a`, `b`, `c` are the register fields A, B, C of R101. -/
inductive Instr where
  -- I-type, arithmetic and logical with an immediate
  | addi (a b : Reg) (imm : BitVec 16)
  | andi (a b : Reg) (imm : BitVec 16)
  | andhi (a b : Reg) (imm : BitVec 16)
  | ori (a b : Reg) (imm : BitVec 16)
  | orhi (a b : Reg) (imm : BitVec 16)
  | xori (a b : Reg) (imm : BitVec 16)
  | xorhi (a b : Reg) (imm : BitVec 16)
  | muli (a b : Reg) (imm : BitVec 16)
  -- I-type, comparison with an immediate
  | cmpeqi (a b : Reg) (imm : BitVec 16)
  | cmpnei (a b : Reg) (imm : BitVec 16)
  | cmpgei (a b : Reg) (imm : BitVec 16)
  | cmplti (a b : Reg) (imm : BitVec 16)
  | cmpgeui (a b : Reg) (imm : BitVec 16)
  | cmpltui (a b : Reg) (imm : BitVec 16)
  -- I-type, branches
  | br (imm : BitVec 16)
  | beq (a b : Reg) (imm : BitVec 16)
  | bne (a b : Reg) (imm : BitVec 16)
  | bge (a b : Reg) (imm : BitVec 16)
  | blt (a b : Reg) (imm : BitVec 16)
  | bgeu (a b : Reg) (imm : BitVec 16)
  | bltu (a b : Reg) (imm : BitVec 16)
  -- I-type, loads and stores
  | ldb (a b : Reg) (imm : BitVec 16)
  | ldbu (a b : Reg) (imm : BitVec 16)
  | ldh (a b : Reg) (imm : BitVec 16)
  | ldhu (a b : Reg) (imm : BitVec 16)
  | ldw (a b : Reg) (imm : BitVec 16)
  | ldbio (a b : Reg) (imm : BitVec 16)
  | ldbuio (a b : Reg) (imm : BitVec 16)
  | ldhio (a b : Reg) (imm : BitVec 16)
  | ldhuio (a b : Reg) (imm : BitVec 16)
  | ldwio (a b : Reg) (imm : BitVec 16)
  | stb (a b : Reg) (imm : BitVec 16)
  | sth (a b : Reg) (imm : BitVec 16)
  | stw (a b : Reg) (imm : BitVec 16)
  | stbio (a b : Reg) (imm : BitVec 16)
  | sthio (a b : Reg) (imm : BitVec 16)
  | stwio (a b : Reg) (imm : BitVec 16)
  -- I-type, data cache
  | flushd (a : Reg) (imm : BitVec 16)
  | initd (a : Reg) (imm : BitVec 16)
  -- J-type
  | call (imm26 : BitVec 26)
  -- R-type, arithmetic and logical
  | add (a b c : Reg)
  | sub (a b c : Reg)
  | and (a b c : Reg)
  | or (a b c : Reg)
  | xor (a b c : Reg)
  | nor (a b c : Reg)
  | mul (a b c : Reg)
  | mulxss (a b c : Reg)
  | mulxsu (a b c : Reg)
  | mulxuu (a b c : Reg)
  | div (a b c : Reg)
  | divu (a b c : Reg)
  -- R-type, comparison
  | cmpeq (a b c : Reg)
  | cmpne (a b c : Reg)
  | cmpge (a b c : Reg)
  | cmplt (a b c : Reg)
  | cmpgeu (a b c : Reg)
  | cmpltu (a b c : Reg)
  -- R-type, shift and rotate
  | sll (a b c : Reg)
  | slli (a c : Reg) (imm5 : BitVec 5)
  | srl (a b c : Reg)
  | srli (a c : Reg) (imm5 : BitVec 5)
  | sra (a b c : Reg)
  | srai (a c : Reg) (imm5 : BitVec 5)
  | rol (a b c : Reg)
  | roli (a c : Reg) (imm5 : BitVec 5)
  | ror (a b c : Reg)
  -- R-type, program control
  | callr (a : Reg)
  | ret
  | jmp (a : Reg)
  | nextpc (c : Reg)
  -- R-type, other control
  | trap
  | eret
  | breakpoint (imm5 : BitVec 5)
  | bret
  | rdctl (c n : Reg)
  | wrctl (a n : Reg)
  | flushi (a : Reg)
  | initi (a : Reg)
  | flushp
  | sync
  -- custom
  | custom (a b c : Reg) (readra readrb writerc : Bool) (n : BitVec 8)
  deriving DecidableEq, Repr

end Sys2Proof
end

