-- ==== Sys2Proof/Decode.lean ====
section
/-! DEFINITION. The decoder (R100 to R111), total on any bytes, and after it the encoder, written from the same maps R106
and R107. Decoding is strict: a field that R107 fixes must hold its value (D12, log 14). -/

namespace Sys2Proof

/-- Why a word or a byte sequence is no instruction. -/
inductive DecodeReject where
  /-- `OP` is reserved (R109). -/
  | reservedOp (op : BitVec 6)
  /-- `OPX6` is reserved (R109). -/
  | reservedOpx (opx : BitVec 6)
  /-- A field that R107 fixes holds another value (D12). -/
  | fixedField (w : Word)
  /-- Fewer than four bytes (R100). -/
  | tooShort
  deriving DecidableEq, Repr

/-! ## Fields (R101, R110) -/

/-- `OP`. -/
def fieldOp (w : Word) : BitVec 6 := w.extractLsb' 0 6

/-- `A`. -/
def fieldA (w : Word) : Reg := w.extractLsb' 27 5

/-- `B`. -/
def fieldB (w : Word) : Reg := w.extractLsb' 22 5

/-- `C`. -/
def fieldC (w : Word) : Reg := w.extractLsb' 17 5

/-- `IMM16`. -/
def fieldImm16 (w : Word) : BitVec 16 := w.extractLsb' 6 16

/-- `OPX6`. -/
def fieldOpx (w : Word) : BitVec 6 := w.extractLsb' 11 6

/-- `IMM5`, also the control-register number `N` of `rdctl` and `wrctl`. -/
def fieldImm5 (w : Word) : BitVec 5 := w.extractLsb' 6 5

/-- `IMM26`. -/
def fieldImm26 (w : Word) : BitVec 26 := w.extractLsb' 6 26

/-- `readra` of `custom` (R110, log 17). -/
def fieldReadra (w : Word) : Bool := w.getLsbD 16

/-- `readrb` of `custom` (R110, log 17). -/
def fieldReadrb (w : Word) : Bool := w.getLsbD 15

/-- `writerc` of `custom` (R110, log 17). -/
def fieldWriterc (w : Word) : Bool := w.getLsbD 14

/-- `N` of `custom` (R110, log 17). -/
def fieldN (w : Word) : BitVec 8 := w.extractLsb' 6 8

/-! ## The maps -/

/-- A row of the `OP` map for an instruction that uses A, B and IMM16 in full (R106). -/
structure IRow where
  op : BitVec 6
  build : Reg → Reg → BitVec 16 → Instr

/-- A row of the `OPX6` map (R107): the value of each field that the figure fixes, `none` where it varies. -/
structure RRow where
  opx : BitVec 6
  a : Option Reg
  b : Option Reg
  c : Option Reg
  imm5 : Option (BitVec 5)
  build : Reg → Reg → Reg → BitVec 5 → Instr

/-- R106, the rows that use A, B and IMM16 in full. -/
def iTable : List IRow := [
  ⟨0x03, .ldbu⟩,
  ⟨0x04, .addi⟩,
  ⟨0x05, .stb⟩,
  ⟨0x07, .ldb⟩,
  ⟨0x08, .cmpgei⟩,
  ⟨0x0b, .ldhu⟩,
  ⟨0x0c, .andi⟩,
  ⟨0x0d, .sth⟩,
  ⟨0x0e, .bge⟩,
  ⟨0x0f, .ldh⟩,
  ⟨0x10, .cmplti⟩,
  ⟨0x14, .ori⟩,
  ⟨0x15, .stw⟩,
  ⟨0x16, .blt⟩,
  ⟨0x17, .ldw⟩,
  ⟨0x18, .cmpnei⟩,
  ⟨0x1c, .xori⟩,
  ⟨0x1e, .bne⟩,
  ⟨0x20, .cmpeqi⟩,
  ⟨0x23, .ldbuio⟩,
  ⟨0x24, .muli⟩,
  ⟨0x25, .stbio⟩,
  ⟨0x26, .beq⟩,
  ⟨0x27, .ldbio⟩,
  ⟨0x28, .cmpgeui⟩,
  ⟨0x2b, .ldhuio⟩,
  ⟨0x2c, .andhi⟩,
  ⟨0x2d, .sthio⟩,
  ⟨0x2e, .bgeu⟩,
  ⟨0x2f, .ldhio⟩,
  ⟨0x30, .cmpltui⟩,
  ⟨0x34, .orhi⟩,
  ⟨0x35, .stwio⟩,
  ⟨0x36, .bltu⟩,
  ⟨0x37, .ldwio⟩,
  ⟨0x3c, .xorhi⟩]

/-- R107. -/
def rTable : List RRow := [
  ⟨0x01, some 0x1d, some 0x0, some 0x0, some 0x0, fun _ _ _ _ => .eret⟩,
  ⟨0x02, none, some 0x0, none, none, fun a _ c i => .roli a c i⟩,
  ⟨0x03, none, none, none, some 0x0, fun a b c _ => .rol a b c⟩,
  ⟨0x04, some 0x0, some 0x0, some 0x0, some 0x0, fun _ _ _ _ => .flushp⟩,
  ⟨0x05, some 0x1f, some 0x0, some 0x0, some 0x0, fun _ _ _ _ => .ret⟩,
  ⟨0x06, none, none, none, some 0x0, fun a b c _ => .nor a b c⟩,
  ⟨0x07, none, none, none, some 0x0, fun a b c _ => .mulxuu a b c⟩,
  ⟨0x08, none, none, none, some 0x0, fun a b c _ => .cmpge a b c⟩,
  ⟨0x09, some 0x1e, some 0x0, some 0x0, some 0x0, fun _ _ _ _ => .bret⟩,
  ⟨0x0b, none, none, none, some 0x0, fun a b c _ => .ror a b c⟩,
  ⟨0x0c, none, some 0x0, some 0x0, some 0x0, fun a _ _ _ => .flushi a⟩,
  ⟨0x0d, none, some 0x0, some 0x0, some 0x0, fun a _ _ _ => .jmp a⟩,
  ⟨0x0e, none, none, none, some 0x0, fun a b c _ => .and a b c⟩,
  ⟨0x10, none, none, none, some 0x0, fun a b c _ => .cmplt a b c⟩,
  ⟨0x12, none, some 0x0, none, none, fun a _ c i => .slli a c i⟩,
  ⟨0x13, none, none, none, some 0x0, fun a b c _ => .sll a b c⟩,
  ⟨0x16, none, none, none, some 0x0, fun a b c _ => .or a b c⟩,
  ⟨0x17, none, none, none, some 0x0, fun a b c _ => .mulxsu a b c⟩,
  ⟨0x18, none, none, none, some 0x0, fun a b c _ => .cmpne a b c⟩,
  ⟨0x1a, none, some 0x0, none, none, fun a _ c i => .srli a c i⟩,
  ⟨0x1b, none, none, none, some 0x0, fun a b c _ => .srl a b c⟩,
  ⟨0x1c, some 0x0, some 0x0, none, some 0x0, fun _ _ c _ => .nextpc c⟩,
  ⟨0x1d, none, some 0x0, some 0x1f, some 0x0, fun a _ _ _ => .callr a⟩,
  ⟨0x1e, none, none, none, some 0x0, fun a b c _ => .xor a b c⟩,
  ⟨0x1f, none, none, none, some 0x0, fun a b c _ => .mulxss a b c⟩,
  ⟨0x20, none, none, none, some 0x0, fun a b c _ => .cmpeq a b c⟩,
  ⟨0x24, none, none, none, some 0x0, fun a b c _ => .divu a b c⟩,
  ⟨0x25, none, none, none, some 0x0, fun a b c _ => .div a b c⟩,
  ⟨0x26, some 0x0, some 0x0, none, none, fun _ _ c i => .rdctl c i⟩,
  ⟨0x27, none, none, none, some 0x0, fun a b c _ => .mul a b c⟩,
  ⟨0x28, none, none, none, some 0x0, fun a b c _ => .cmpgeu a b c⟩,
  ⟨0x29, none, some 0x0, some 0x0, some 0x0, fun a _ _ _ => .initi a⟩,
  ⟨0x2d, some 0x0, some 0x0, some 0x1d, some 0x0, fun _ _ _ _ => .trap⟩,
  ⟨0x2e, none, some 0x0, some 0x0, none, fun a _ _ i => .wrctl a i⟩,
  ⟨0x30, none, none, none, some 0x0, fun a b c _ => .cmpltu a b c⟩,
  ⟨0x31, none, none, none, some 0x0, fun a b c _ => .add a b c⟩,
  ⟨0x34, some 0x0, some 0x0, some 0x1e, none, fun _ _ _ i => .breakpoint i⟩,
  ⟨0x36, some 0x0, some 0x0, some 0x0, some 0x0, fun _ _ _ _ => .sync⟩,
  ⟨0x39, none, none, none, some 0x0, fun a b c _ => .sub a b c⟩,
  ⟨0x3a, none, some 0x0, none, none, fun a _ c i => .srai a c i⟩,
  ⟨0x3b, none, none, none, some 0x0, fun a b c _ => .sra a b c⟩]

/-- A field agrees with what its row fixes. -/
def fixedOk (fixed : Option (BitVec 5)) (v : BitVec 5) : Bool :=
  match fixed with
  | none => true
  | some x => v == x

/-- The fields of `w` agree with everything `r` fixes (D12). -/
def RRow.fits (r : RRow) (w : Word) : Bool :=
  fixedOk r.a (fieldA w) && fixedOk r.b (fieldB w) && fixedOk r.c (fieldC w) && fixedOk r.imm5 (fieldImm5 w)

/-! ## Decoding -/

/-- The R-type half of R111. -/
def decodeR (w : Word) : Except DecodeReject Instr :=
  match rTable.find? (fun r => r.opx == fieldOpx w) with
  | none => .error (.reservedOpx (fieldOpx w))
  | some r =>
    if r.fits w then .ok (r.build (fieldA w) (fieldB w) (fieldC w) (fieldImm5 w)) else .error (.fixedField w)

/-- The I-type rows of R111 that use A, B and IMM16 in full. -/
def decodeI (w : Word) : Except DecodeReject Instr :=
  match iTable.find? (fun r => r.op == fieldOp w) with
  | none => .error (.reservedOp (fieldOp w))
  | some r => .ok (r.build (fieldA w) (fieldB w) (fieldImm16 w))

/-- The decode procedure of R111. -/
def decodeWord (w : Word) : Except DecodeReject Instr :=
  if fieldOp w = 0x3a then decodeR w
  else if fieldOp w = 0x00 then .ok (.call (fieldImm26 w))
  else if fieldOp w = 0x32 then
    .ok (.custom (fieldA w) (fieldB w) (fieldC w) (fieldReadra w) (fieldReadrb w) (fieldWriterc w) (fieldN w))
  else if fieldOp w = 0x06 then
    if fieldA w = 0 ∧ fieldB w = 0 then .ok (.br (fieldImm16 w)) else .error (.fixedField w)
  else if fieldOp w = 0x3b then
    if fieldB w = 0 then .ok (.flushd (fieldA w) (fieldImm16 w)) else .error (.fixedField w)
  else if fieldOp w = 0x33 then
    if fieldB w = 0 then .ok (.initd (fieldA w) (fieldImm16 w)) else .error (.fixedField w)
  else decodeI w

/-- A word from its four bytes, the first at the lowest address (R60, R61). -/
def wordOfBytes (b0 b1 b2 b3 : Byte) : Word :=
  b3.setWidth 32 <<< 24 ||| b2.setWidth 32 <<< 16 ||| b1.setWidth 32 <<< 8 ||| b0.setWidth 32

/-- The instruction at the front of a byte sequence, and the rest (R100). -/
def decodeBytes : List Byte → Except DecodeReject (Instr × List Byte)
  | b0 :: b1 :: b2 :: b3 :: rest =>
    match decodeWord (wordOfBytes b0 b1 b2 b3) with
    | .ok i => .ok (i, rest)
    | .error e => .error e
  | _ => .error .tooShort

/-! ## Encoding -/

/-- An I-type word (R102). -/
def iWord (a b : Reg) (imm : BitVec 16) (op : BitVec 6) : Word :=
  a.setWidth 32 <<< 27 ||| b.setWidth 32 <<< 22 ||| imm.setWidth 32 <<< 6 ||| op.setWidth 32

/-- An R-type word (R103). -/
def rWord (a b c : Reg) (opx : BitVec 6) (imm5 : BitVec 5) : Word :=
  a.setWidth 32 <<< 27 ||| b.setWidth 32 <<< 22 ||| c.setWidth 32 <<< 17 ||| opx.setWidth 32 <<< 11 |||
    imm5.setWidth 32 <<< 6 ||| 0x3a#32

/-- A J-type word (R104). -/
def jWord (imm26 : BitVec 26) (op : BitVec 6) : Word := imm26.setWidth 32 <<< 6 ||| op.setWidth 32

/-- A `custom` word (R110, log 17). -/
def customWord (a b c : Reg) (readra readrb writerc : Bool) (n : BitVec 8) : Word :=
  a.setWidth 32 <<< 27 ||| b.setWidth 32 <<< 22 ||| c.setWidth 32 <<< 17 ||| (BitVec.ofBool readra).setWidth 32 <<< 16 |||
    (BitVec.ofBool readrb).setWidth 32 <<< 15 ||| (BitVec.ofBool writerc).setWidth 32 <<< 14 ||| n.setWidth 32 <<< 6 |||
    0x32#32

/-- The word of an instruction (R102 to R107, R110). -/
def encode : Instr → Word
  | .call imm26 => jWord imm26 0x00
  | .br imm => iWord 0 0 imm 0x06
  | .flushd a imm => iWord a 0 imm 0x3b
  | .initd a imm => iWord a 0 imm 0x33
  | .custom a b c ra rb wc n => customWord a b c ra rb wc n
  | .ldbu a b imm => iWord a b imm 0x03
  | .addi a b imm => iWord a b imm 0x04
  | .stb a b imm => iWord a b imm 0x05
  | .ldb a b imm => iWord a b imm 0x07
  | .cmpgei a b imm => iWord a b imm 0x08
  | .ldhu a b imm => iWord a b imm 0x0b
  | .andi a b imm => iWord a b imm 0x0c
  | .sth a b imm => iWord a b imm 0x0d
  | .bge a b imm => iWord a b imm 0x0e
  | .ldh a b imm => iWord a b imm 0x0f
  | .cmplti a b imm => iWord a b imm 0x10
  | .ori a b imm => iWord a b imm 0x14
  | .stw a b imm => iWord a b imm 0x15
  | .blt a b imm => iWord a b imm 0x16
  | .ldw a b imm => iWord a b imm 0x17
  | .cmpnei a b imm => iWord a b imm 0x18
  | .xori a b imm => iWord a b imm 0x1c
  | .bne a b imm => iWord a b imm 0x1e
  | .cmpeqi a b imm => iWord a b imm 0x20
  | .ldbuio a b imm => iWord a b imm 0x23
  | .muli a b imm => iWord a b imm 0x24
  | .stbio a b imm => iWord a b imm 0x25
  | .beq a b imm => iWord a b imm 0x26
  | .ldbio a b imm => iWord a b imm 0x27
  | .cmpgeui a b imm => iWord a b imm 0x28
  | .ldhuio a b imm => iWord a b imm 0x2b
  | .andhi a b imm => iWord a b imm 0x2c
  | .sthio a b imm => iWord a b imm 0x2d
  | .bgeu a b imm => iWord a b imm 0x2e
  | .ldhio a b imm => iWord a b imm 0x2f
  | .cmpltui a b imm => iWord a b imm 0x30
  | .orhi a b imm => iWord a b imm 0x34
  | .stwio a b imm => iWord a b imm 0x35
  | .bltu a b imm => iWord a b imm 0x36
  | .ldwio a b imm => iWord a b imm 0x37
  | .xorhi a b imm => iWord a b imm 0x3c
  | .eret => rWord 0x1d 0 0 0x01 0
  | .roli a c i => rWord a 0 c 0x02 i
  | .rol a b c => rWord a b c 0x03 0
  | .flushp => rWord 0 0 0 0x04 0
  | .ret => rWord 0x1f 0 0 0x05 0
  | .nor a b c => rWord a b c 0x06 0
  | .mulxuu a b c => rWord a b c 0x07 0
  | .cmpge a b c => rWord a b c 0x08 0
  | .bret => rWord 0x1e 0 0 0x09 0
  | .ror a b c => rWord a b c 0x0b 0
  | .flushi a => rWord a 0 0 0x0c 0
  | .jmp a => rWord a 0 0 0x0d 0
  | .and a b c => rWord a b c 0x0e 0
  | .cmplt a b c => rWord a b c 0x10 0
  | .slli a c i => rWord a 0 c 0x12 i
  | .sll a b c => rWord a b c 0x13 0
  | .or a b c => rWord a b c 0x16 0
  | .mulxsu a b c => rWord a b c 0x17 0
  | .cmpne a b c => rWord a b c 0x18 0
  | .srli a c i => rWord a 0 c 0x1a i
  | .srl a b c => rWord a b c 0x1b 0
  | .nextpc c => rWord 0 0 c 0x1c 0
  | .callr a => rWord a 0 0x1f 0x1d 0
  | .xor a b c => rWord a b c 0x1e 0
  | .mulxss a b c => rWord a b c 0x1f 0
  | .cmpeq a b c => rWord a b c 0x20 0
  | .divu a b c => rWord a b c 0x24 0
  | .div a b c => rWord a b c 0x25 0
  | .rdctl c n => rWord 0 0 c 0x26 n
  | .mul a b c => rWord a b c 0x27 0
  | .cmpgeu a b c => rWord a b c 0x28 0
  | .initi a => rWord a 0 0 0x29 0
  | .trap => rWord 0 0 0x1d 0x2d 0
  | .wrctl a n => rWord a 0 0 0x2e n
  | .cmpltu a b c => rWord a b c 0x30 0
  | .add a b c => rWord a b c 0x31 0
  | .breakpoint i => rWord 0 0 0x1e 0x34 i
  | .sync => rWord 0 0 0 0x36 0
  | .sub a b c => rWord a b c 0x39 0
  | .srai a c i => rWord a 0 c 0x3a i
  | .sra a b c => rWord a b c 0x3b 0

/-- The bytes of a word, the first at the lowest address (R60). -/
def bytesOfWord (w : Word) : List Byte :=
  [w.extractLsb' 0 8, w.extractLsb' 8 8, w.extractLsb' 16 8, w.extractLsb' 24 8]

/-- The bytes of an instruction in memory (R61). -/
def encodeBytes (i : Instr) : List Byte := bytesOfWord (encode i)

/-- What the decoder reads from the instruction whose bits are `w`: its bytes are laid out as memory holds them and given to
the decoder. A row of the opcode table always has 32 bits, so `nbits` does not matter (R100). -/
def decodeTableWord (_nbits w : Nat) : Option Instr :=
  match decodeBytes (bytesOfWord (BitVec.ofNat 32 w)) with
  | .ok (i, _) => some i
  | .error _ => none

end Sys2Proof
end

