-- ==== Sys2Proof/Config.lean ====
section
/-! DEFINITION. The parameters of a Nios II core and of a generated system (rules R8 to R10, R66, R67, R89; D1, D2,
D11, D19, D23 of 92_eei_decisions.md), as plain data, and the free values: opaque constants without a body. -/

namespace Sys2Proof

/-- `CORE` of R8: Nios II/e, /s or /f. -/
inductive CoreKind where
  | economy
  | standard
  | fast
  deriving DecidableEq, Repr

/-- `MUL_OPTION` of R8. -/
inductive MulOption where
  | noMultiplier
  | logicElements
  | embeddedStratix
  | embeddedCyclone
  deriving DecidableEq, Repr

/-- `DEBUG_LEVEL` of R10. -/
inductive DebugLevel where
  | noDebug
  | level1
  | level2
  | level3
  | level4
  deriving DecidableEq, Repr

/-- What lies in a region of the address map (R67, R530 to R533). -/
inductive RegionKind where
  /-- Read-write memory: SDRAM, on-chip RAM. -/
  | ram
  /-- Read-only memory: on-chip ROM, the boot ROM of the EPCS controller. -/
  | rom
  /-- CFI flash: reads as memory, a store is a command cycle of the flash chip (R531). -/
  | flash
  /-- The registers of peripheral instance number `index`. -/
  | device (index : Nat)
  /-- Registers whose usage the manufacturer does not publish: EPCS controller, LCD controller (R530, R532). -/
  | unpublished
  deriving DecidableEq, Repr

/-- One region of the address map: physical bytes `base` to `base + size - 1`, and the master ports that reach it (D2, R67,
R75). -/
structure Region where
  base : Nat
  size : Nat
  kind : RegionKind
  /-- The instruction master port reaches it. -/
  instr : Bool
  /-- The data master port reaches it. -/
  data : Bool
  /-- The DMA controllers, by peripheral instance number, whose read master port reaches it (R450). -/
  dmaRead : List Nat
  /-- The DMA controllers, by peripheral instance number, whose write master port reaches it (R450). -/
  dmaWrite : List Nat
  /-- Some further Avalon master of the system reaches it (R75). -/
  other : Bool
  deriving DecidableEq, Repr

/-- The sizes a cache can have (R8): "512 bytes to 64 Kbytes", powers of two (R86, R89). -/
inductive CacheSize where
  | bytes512
  | kbytes1
  | kbytes2
  | kbytes4
  | kbytes8
  | kbytes16
  | kbytes32
  | kbytes64
  deriving DecidableEq, Repr

/-- log2 of the size in bytes. -/
def CacheSize.log : CacheSize → Nat
  | .bytes512 => 9
  | .kbytes1 => 10
  | .kbytes2 => 11
  | .kbytes4 => 12
  | .kbytes8 => 13
  | .kbytes16 => 14
  | .kbytes32 => 15
  | .kbytes64 => 16

/-- The parameters of R8 to R10 and of D1, D2, D11, D19. They are part of the state (log 1) and no step changes them. -/
structure Config where
  core : CoreKind
  mulOption : MulOption
  /-- `HAS_HW_DIVIDE`. -/
  hwDivide : Bool
  /-- `HAS_USER_MODE`: false on every documented core (R363). -/
  hasUserMode : Bool
  /-- `ICACHE_SIZE`, read only where the core has an instruction cache. -/
  icacheSize : CacheSize
  /-- `DCACHE_SIZE`, read only where the core has a data cache. -/
  dcacheSize : CacheSize
  /-- `BIT31_BYPASS_VALUE`: the value of address bit 31 that bypasses the data cache (R72, log 19). -/
  bit31Bypass : Bool
  resetAddr : Word
  exceptionAddr : Word
  breakAddr : Word
  cpuid : Word
  /-- The `irq` inputs connected to a source outside the modelled peripherals; an input connected to nothing is never asserted
  (R338, D2; its value in State.reset is log 1). -/
  irqOutside : Word
  debugLevel : DebugLevel
  /-- The size of the on-chip trace buffer in frames, 128 to 64K, read at debug levels 3 and 4 only (R10). -/
  traceFrames : Nat
  regions : List Region
  /-- The numbers `N` of the custom instructions present in the system (D19). -/
  customPresent : List Nat
  deriving DecidableEq, Repr

/-- `k = log2(ICACHE_SIZE)` of R89. -/
def Config.icacheLog (c : Config) : Nat := c.icacheSize.log

/-- `k = log2(DCACHE_SIZE)` of R86. -/
def Config.dcacheLog (c : Config) : Nat := c.dcacheSize.log

/-- One valid line of the data cache (R86): one word. -/
structure DataLine where
  tag : Nat
  dirty : Bool
  data : Word
  deriving DecidableEq, Repr

/-- One valid line of the instruction cache (R89): eight words. -/
structure InstrLine where
  tag : Nat
  words : Vector Word 8
  deriving DecidableEq, Repr

/-- The state of the custom instruction logic: `c0` to `c31` and any other internal state, coded as a number (R37). -/
structure CustomState where
  regs : Vector Word 32
  internal : Nat
  deriving DecidableEq, Repr, Inhabited

/-- What one `custom` instruction presents to the custom logic (R320): the fields and the operand values; an operand whose
read bit is clear is not supplied by the core. -/
structure CustomCall where
  n : BitVec 8
  a : Reg
  b : Reg
  c : Reg
  readra : Bool
  readrb : Bool
  writerc : Bool
  opA : Option Word
  opB : Option Word
  deriving DecidableEq, Repr

/-- The kind of a data-bus cycle (R367). -/
inductive BusCycle where
  | read
  | write
  deriving DecidableEq, Repr

/-- What the trace unit captures of one bus cycle (R368), before it is packed into frames. -/
inductive TraceRecord where
  /-- An instruction-bus cycle: the address of an executed instruction. -/
  | executed (addr : Word)
  /-- A data-bus cycle: its address, its data or both. -/
  | data (cycle : BusCycle) (addr value : Option Word)
  deriving DecidableEq, Repr

/-- The free values of the model (log 7): `freeWord n` is the `n`-th arbitrary word. Nothing constrains it. -/
opaque Config.freeWord : Nat → Word

/-- The functions the custom instructions compute, with the state they leave (D19, log 18). Nothing constrains them. -/
opaque Config.customFn : CustomCall → CustomState → Word × CustomState

/-- How many trace frames a list of records takes: the frame format is not given (R5 (e), R368). Nothing constrains it. -/
opaque Config.traceLength : List TraceRecord → Nat

/-- The data-cache lines a reset at run time leaves, as (line number, line) pairs: indeterminate (R45, U13; log 29). -/
opaque Config.freeDataLines : Nat → List (Nat × DataLine)

/-- The instruction-cache lines a reset at run time leaves: indeterminate (R45, U13; log 29). -/
opaque Config.freeInstrLines : Nat → List (Nat × InstrLine)

/-- The custom-logic state a reset at run time leaves: undefined (R45; log 29). -/
opaque Config.freeCustom : Nat → CustomState

/-- The parameters State.reset stands with: a Nios II/s with every optional instruction, memory almost everywhere and one
instance of each peripheral. DESIGN CHOICE of one legal system (logs 1, 2, 44); statements hold for every configuration. -/
def Config.initial : Config where
  core := .standard
  mulOption := .embeddedStratix
  hwDivide := true
  hasUserMode := false
  icacheSize := .kbytes4
  dcacheSize := .kbytes4
  bit31Bypass := true
  resetAddr := 0x00000000
  exceptionAddr := 0x00000020
  breakAddr := 0x00000100
  cpuid := 1
  irqOutside := 0xffffffc0
  debugLevel := .level1
  traceFrames := 128
  regions := [
    ⟨0x00000000, 0x7ffe0000, .ram, true, true, [5], [5], true⟩,
    ⟨0x7ffe0000, 0x10000, .flash, true, true, [5], [], true⟩,
    ⟨0x7fff0000, 0x400, .rom, true, true, [5], [], true⟩,
    ⟨0x7fff0400, 0x1c, .unpublished, false, true, [], [], true⟩,
    ⟨0x7fff1000, 0x18, .device 0, false, true, [5], [5], true⟩,
    ⟨0x7fff1020, 0x18, .device 1, false, true, [5], [5], true⟩,
    ⟨0x7fff1040, 0x10, .device 2, false, true, [5], [5], true⟩,
    ⟨0x7fff1060, 0x8, .device 3, false, true, [5], [5], true⟩,
    ⟨0x7fff1080, 0x8, .device 4, false, true, [5], [5], true⟩,
    ⟨0x7fff10a0, 0x20, .device 5, false, true, [5], [5], true⟩,
    ⟨0x7fff10c0, 0x8, .device 6, false, true, [5], [5], true⟩,
    ⟨0x7fff10e0, 0x18, .device 7, false, true, [5], [5], true⟩,
    ⟨0x7fff1100, 0x18, .device 8, false, true, [5], [5], true⟩,
    ⟨0x7fff1120, 0x10, .unpublished, false, true, [], [], true⟩]
  customPresent := List.range 256

end Sys2Proof
end

