-- ==== Sys2Proof/Machine/State.lean ====
section
/-! DEFINITION. The state of the machine as plain data (R40, and the peripheral state of R400 to R534), the ways a step
can stop, and the state after reset. -/

namespace Sys2Proof.Machine

/-! ## The processor's small records -/

/-- Access widths of R70. -/
inductive Width where
  | byte
  | half
  | word
  deriving DecidableEq, Repr

/-- The defined bits of `status`, `estatus`, `bstatus` (R30 to R32); bits 31..2 read 0 and are not stored (R36, log 9). -/
structure Status where
  /-- U, EU or BU: bit 1. -/
  u : Bool
  /-- PIE, EPIE or BPIE: bit 0. -/
  pie : Bool
  deriving DecidableEq, Repr

/-- An instruction word that was stored to and not yet made visible to fetches by the sequence of R84 (log 22). -/
structure StaleWord where
  /-- Physical byte address of the word, a multiple of 4. -/
  addr : Nat
  /-- The older values a fetch may still return. -/
  olds : List Word
  /-- Step (1) of R84 is done: the stores to the word are in memory, though a dirty line of the data cache may still hold what
  they replaced. -/
  inMemory : Bool
  /-- Step (2) of R84 was done with the word in memory: only `flushp` is missing. -/
  lineFlushed : Bool
  deriving DecidableEq, Repr

/-! ## Hardware triggers of the JTAG debug module -/

/-- What a hardware trigger does (R367). Only a break changes what a program can see (R365). -/
inductive TriggerAction where
  | takeBreak
  | arm
  | externalTrigger
  | traceOn
  | traceOff
  | traceSample
  deriving DecidableEq, Repr

/-- A trigger on the instruction bus (R367); with the action `takeBreak` a hardware execution breakpoint (R351). -/
structure ExecTrigger where
  addr : Word
  /-- Triggers only after an armed trigger event. -/
  needsArmed : Bool
  action : TriggerAction
  deriving DecidableEq, Repr

/-- A trigger on the data bus: the AND of the conditions that are present (R367). -/
structure DataTrigger where
  /-- Lowest and highest address: equal for a specific address, else a range. -/
  addrs : Option (Word × Word)
  /-- Lowest and highest data value. -/
  values : Option (Word × Word)
  cycle : Option BusCycle
  /-- Triggers only after an armed trigger event. -/
  needsArmed : Bool
  action : TriggerAction
  deriving DecidableEq, Repr

/-! ## Trace (R368) -/

/-- What data trace captures (R368). -/
inductive DataTrace where
  | nothing
  | loadAddr
  | storeAddr
  | bothAddr
  | loadData
  | loadAddrData
  | storeAddrData
  | bothAddrData
  deriving DecidableEq, Repr

/-- How the host has set the trace unit up (R366, R368). -/
structure TraceSetup where
  /-- Execution trace: instruction-bus cycles. -/
  execution : Bool
  data : DataTrace
  /-- "Optionally stop capturing trace when trace buffer is full". -/
  stopWhenFull : Bool
  /-- Capture into the buffer of the debug probe instead of the on-chip buffer. That a core with both captures into one at a time
  is the model's choice (log 49). -/
  offChip : Bool
  deriving DecidableEq, Repr

/-- The trace unit and its buffer, oldest record first (R39, R368). -/
structure Trace where
  setup : TraceSetup
  /-- Capturing. -/
  on : Bool
  records : List TraceRecord
  deriving DecidableEq, Repr

/-! ## Peripherals -/

/-- Timer core options (R401). -/
structure TimerOpts where
  /-- `TIMEOUT_PERIOD - 1`, the initial value of `periodh : periodl` (R404). -/
  fixedPeriod : Word
  writeablePeriod : Bool
  readableSnapshot : Bool
  startStop : Bool
  watchdog : Bool
  deriving DecidableEq, Repr

/-- Timer core (R401 to R409). -/
structure Timer where
  opts : TimerOpts
  /-- `status.TO`. -/
  timeout : Bool
  /-- The internal counter is running; `status.RUN` reads it. -/
  running : Bool
  /-- `control.ITO`. -/
  ito : Bool
  /-- `control.CONT`. -/
  cont : Bool
  /-- `periodh : periodl`. -/
  period : Word
  counter : Word
  /-- `snaph : snapl`. -/
  snap : Word
  deriving DecidableEq, Repr

/-- PIO direction option (R420). -/
inductive PioKind where
  | bidirectional
  | inputOnly
  | outputOnly
  | inputOutput
  deriving DecidableEq, Repr

/-- PIO edge type (R420). -/
inductive EdgeKind where
  | rising
  | falling
  | either
  deriving DecidableEq, Repr

/-- PIO interrupt cause (R420). -/
inductive PioIrq where
  | level
  | edge
  deriving DecidableEq, Repr

/-- PIO core options (R420). `none` for `capture` or `irqKind`: the register does not exist. -/
structure PioOpts where
  width : Nat
  kind : PioKind
  capture : Option EdgeKind
  irqKind : Option PioIrq
  deriving DecidableEq, Repr

/-- PIO core (R421 to R426). -/
structure Pio where
  opts : PioOpts
  /-- The levels the outside drives on the input pins (an input). -/
  pins : Word
  /-- The output register behind `data`. -/
  out : Word
  direction : Word
  interruptmask : Word
  edgecapture : Word
  /-- The levels at the input ports in the last clock cycle, from which an edge is told (R424, log 34). -/
  seen : Word
  deriving DecidableEq, Repr

/-- System ID core: two constants (R430). -/
structure SysId where
  id : Word
  timestamp : Word
  deriving DecidableEq, Repr

/-- Mutex core (R441 to R446). -/
structure Mutex where
  initialOwner : BitVec 16
  initialValue : BitVec 16
  /-- `OWNER : VALUE`. -/
  mutex : Word
  /-- The `RESET` bit. -/
  reset : Bool
  deriving DecidableEq, Repr

/-- DMA controller options (R453 to R456). -/
structure DmaOpts where
  /-- Width of the `readaddress` register in bits, fixed at system generation (R453). -/
  readWidth : Nat
  /-- Width of the `writeaddress` register in bits (R453). -/
  writeWidth : Nat
  /-- Depth of the FIFO between the ports, in units of the transfer; the default is 2 (R456). -/
  fifoDepth : Nat
  /-- Width of the DMA length register in bits. -/
  lengthWidth : Nat
  /-- The widths of the allowed transactions, in bytes. -/
  widths : List Nat
  deriving DecidableEq, Repr

/-- DMA controller (R451 to R458). -/
structure Dma where
  opts : DmaOpts
  done : Bool
  busy : Bool
  reop : Bool
  weop : Bool
  len : Bool
  /-- The `readaddress` register: the start address. -/
  readStart : Word
  /-- The `writeaddress` register: the start address. -/
  writeStart : Word
  length : Word
  control : BitVec 12
  /-- Address of the next unit to be read of the transaction in progress (R456). -/
  readCur : Word
  /-- Address of the next unit to be written of the transaction in progress (R456). -/
  writeCur : Word
  /-- What has been read and not yet written, one value per bus transfer, oldest first (R456). -/
  fifo : List Word
  /-- Bus transfers already done of the unit being read. -/
  readPart : Nat
  /-- Bus transfers already done of the unit being written. -/
  writePart : Nat
  /-- The read side has signalled the end of the packet, with REEN set: what the FIFO holds is still written (R456). -/
  readEnd : Bool
  /-- The write side has signalled the end of the packet, with WEEN set, in the unit being written (R456). -/
  writeEnd : Bool
  /-- The last transaction has ended and no new one was set up (R456). -/
  ended : Bool
  /-- The width in bytes that the transaction in progress uses (R455). -/
  unit : Nat
  /-- The bits REEN, WEEN, LEEN, RCON, WCON of `control` as the transaction in progress uses them (R455, log 35). -/
  mode : BitVec 12
  deriving DecidableEq, Repr

/-- JTAG UART options (R480). -/
structure JtagOpts where
  writeDepth : Nat
  readDepth : Nat
  writeThreshold : Nat
  readThreshold : Nat
  deriving DecidableEq, Repr

/-- JTAG UART core (R480 to R485). FIFOs: oldest byte first. -/
structure JtagUart where
  opts : JtagOpts
  /-- Processor to host. -/
  writeFifo : List Byte
  /-- Host to processor. -/
  readFifo : List Byte
  re : Bool
  we : Bool
  ac : Bool
  /-- The host is expected to send nothing more (an input, R484). -/
  hostIdle : Bool
  deriving DecidableEq, Repr

/-- UART parity option (R490). -/
inductive Parity where
  | none
  | even
  | odd
  deriving DecidableEq, Repr

/-- UART options (R490). -/
structure UartOpts where
  /-- 7, 8 or 9. -/
  dataBits : Nat
  /-- 1 or 2. -/
  stopBits : Nat
  parity : Parity
  /-- CTS/RTS pins and register bits exist. -/
  flowControl : Bool
  /-- The `divisor` register exists. -/
  softBaud : Bool
  /-- The `endofpacket` register exists. -/
  endOfPacket : Bool
  /-- The divisor of the Baud Rate setting. -/
  defaultDivisor : BitVec 16
  deriving DecidableEq, Repr

/-- UART core (R490 to R497). -/
structure Uart where
  opts : UartOpts
  rxdata : BitVec 9
  txdata : BitVec 9
  /-- The `txdata` holding register is empty. -/
  trdy : Bool
  /-- The transmit shift register. -/
  txShift : BitVec 9
  /-- Clock cycles until the shift register is empty; 0: idle (`TMT`). -/
  txLeft : Nat
  pe : Bool
  fe : Bool
  brk : Bool
  roe : Bool
  toe : Bool
  rrdy : Bool
  dcts : Bool
  cts : Bool
  /-- CTS in the last clock cycle, from which DCTS tells a transition (R494, log 37). -/
  ctsSeen : Bool
  eop : Bool
  control : BitVec 16
  divisor : BitVec 16
  endofpacket : BitVec 9
  deriving DecidableEq, Repr

/-- SPI options with a program-visible effect (R510). -/
structure SpiOpts where
  master : Bool
  /-- Width n of the data registers, 1 to 16. -/
  width : Nat
  /-- Number of `ss_n` outputs, 1 to 16 (master only). -/
  selects : Nat
  /-- System clock cycles per `sclk` period (master only). -/
  clockDiv : Nat
  /-- System clock cycles of the delay between `ss_n` and the first bit (master only). -/
  delay : Nat
  deriving DecidableEq, Repr

/-- SPI core (R510 to R517). -/
structure Spi where
  opts : SpiOpts
  rxdata : BitVec 16
  txdata : BitVec 16
  /-- The `txdata` register is empty. -/
  trdy : Bool
  /-- The shift register. -/
  shift : BitVec 16
  /-- Clock cycles until the transaction in progress ends, in a slave 1 while the master is shifting; 0: idle (`TMT`). -/
  shiftLeft : Nat
  rrdy : Bool
  roe : Bool
  toe : Bool
  control : BitVec 16
  slaveselect : BitVec 16
  /-- What the selected slaves drive on `miso` for a whole word (an input). -/
  miso : BitVec 16
  deriving DecidableEq, Repr

/-- One peripheral core (R534). -/
inductive Core where
  | timer (d : Timer)
  | pio (d : Pio)
  | sysId (d : SysId)
  | mutex (d : Mutex)
  | dma (d : Dma)
  | jtagUart (d : JtagUart)
  | uart (d : Uart)
  | spi (d : Spi)
  deriving DecidableEq, Repr

/-- One peripheral instance: its core and the `irq` input it drives, if any (`IRQ_N` of R400). -/
structure Device where
  irqN : Option Nat
  core : Core
  deriving DecidableEq, Repr

/-! ## The environment -/

/-- What the user of the JTAG debugger does while the debugger holds the processor (R365 (b), (c)): "All system resources visible
to the processor in supervisor mode are available to the debug module". -/
inductive DebugAction where
  /-- Gives a general register a value. -/
  | setReg (r : Reg) (v : Word)
  /-- Gives a control register a value. -/
  | setControl (n : Reg) (v : Word)
  /-- Reads memory or a peripheral register. -/
  | read (a : Word) (w : Width)
  /-- Writes memory or a peripheral register. -/
  | write (a : Word) (w : Width) (v : Word)
  deriving DecidableEq, Repr

/-- Something the outside world does between two instructions (R41, D23; log 24). Device numbers are indexes of
`State.devices`; an event for a device of another kind changes nothing. -/
inductive EnvEvent where
  /-- The system clock advances by `n` cycles (R406, R424, R456, R493, R513). -/
  | clock (n : Nat)
  /-- The levels of the `irq` inputs not driven by a modelled peripheral become `v` (R39, R41). -/
  | irqLines (v : Word)
  /-- The hardware break signal is asserted (R351). -/
  | hwBreak
  /-- The JTAG host sets its hardware triggers, none armed yet (R351, R366, R367). -/
  | triggers (exec : List ExecTrigger) (data : List DataTrigger)
  /-- The JTAG host sets the trace unit up, its buffer empty, capturing or not (R366, R368). -/
  | traceSetup (setup : TraceSetup) (on : Bool)
  /-- The JTAG host starts or stops the capture (R368). -/
  | traceRun (on : Bool)
  /-- The reset input is asserted (R560). -/
  | systemReset
  /-- The input pins of a PIO core become `v` (R422, R424). -/
  | pioInput (dev : Nat) (v : Word)
  /-- A UART receives a character, with or without a parity or framing error (R492, R494). -/
  | uartReceive (dev : Nat) (c : BitVec 9) (parityError framingError : Bool)
  /-- A UART detects a break (R494). -/
  | uartBreak (dev : Nat)
  /-- The `CTS_N` pin of a UART takes the level `level` (R494). -/
  | uartCts (dev : Nat) (level : Bool)
  /-- The JTAG host sends a character (R482). -/
  | jtagSend (dev : Nat) (c : Byte)
  /-- The JTAG host takes a character (R482). -/
  | jtagTake (dev : Nat)
  /-- The JTAG host becomes idle or busy (R484). -/
  | jtagIdle (dev : Nat) (idle : Bool)
  /-- A host application polls the JTAG UART (R483). -/
  | jtagPoll (dev : Nat)
  /-- The slaves of an SPI master will answer with `w` (R513). -/
  | spiMiso (dev : Nat) (w : BitVec 16)
  /-- The master of an SPI slave core asserts `ss_n` and begins to shift (R513, R514). -/
  | spiSelect (dev : Nat)
  /-- The master of an SPI slave core has exchanged one word, sending `w` (R512, R513). -/
  | spiTransfer (dev : Nat) (w : BitVec 16)
  /-- Another Avalon master writes (R75, R78). -/
  | otherWrite (a : Word) (w : Width) (v : Word)
  /-- Another Avalon master reads (R75): the value is not the processor's, the side effects are there. -/
  | otherRead (a : Word) (w : Width)
  /-- A session of the JTAG debugger while the processor is stopped by it, as one action (R362, R365; log 27): what its user
  does, in order, and the address at which execution goes on, if another one (R365 (d)). -/
  | debugSession (acts : List DebugAction) (pc : Option Word)
  deriving DecidableEq, Repr

/-! ## Stops -/

/-- A step that the machine cannot take because the address names nothing. Both are SAFE: the source bounds the behaviour by
nothing (U1), and no claim about a next state follows. -/
inductive Fault where
  /-- Raised by the fetch when the instruction master reaches no memory at `pc` (R68, U1). Safe. -/
  | unmappedFetch (pc : Word)
  /-- Raised by a store, a write-back or a bus write to an address where nothing is mapped (R68, U1). Safe. -/
  | unmappedStore (addr : Word)
  deriving DecidableEq, Repr

/-- Reasons for which the machine has no next state. All are SAFE: the source calls the case undefined, illegal or
unpublished and gives it no effect. -/
inductive Refusal where
  /-- An instruction without a meaning yet. Raised by no arm of this model. Safe. -/
  | notModelled (mnemonic : String)
  /-- Raised by the step when the fetched word is no instruction of the table (R109, U8, U12). Safe. -/
  | reservedEncoding (w : Word)
  /-- Raised by every step of a configuration whose reset, exception or break address is not a multiple of 4 in memory that the
  instruction master reads (R562, D1). Safe. -/
  | illegalConfiguration
  /-- Raised by the fetch when `pc` is not a multiple of 4 (R65, U9). Safe. -/
  | misalignedFetch (pc : Word)
  /-- Raised by a control transfer to an address that is not a multiple of 4 (R27, R276, U9). Safe. -/
  | misalignedTarget (target : Word)
  /-- Raised by a halfword or word store to a misaligned address (R64, U2). Safe. -/
  | misalignedStore (addr : Word)
  /-- Raised by `jmp r31` (R263, U10). Safe. -/
  | jumpThroughRa
  /-- Raised by `wrctl` to `ipending` (R34, U3). Safe. -/
  | writeIpending
  /-- Raised by `wrctl` to ctl6 to ctl31 (R36, U4). Safe. -/
  | noSuchControlRegister (n : Reg)
  /-- Raised by `custom` with an N that has no logic (R320, U8). Safe. -/
  | noSuchCustom (n : BitVec 8)
  /-- Raised by a store into a CFI flash region (R531, P22). Safe. -/
  | flashCommand (addr : Word)
  /-- Raised by an access to the unpublished registers of the EPCS or LCD controller (R530, R532, P20, P21). Safe. -/
  | unpublishedRegister (addr : Word)
  /-- Raised by a peripheral when a reserved bit of a control or status register is written 1 (R400, P2, P17). Safe. -/
  | reservedBitsWritten (v : Word)
  /-- Raised by a peripheral when a register its map calls reserved is written (R451, P10). Safe. -/
  | reservedRegister (offset : Nat)
  /-- Raised by a timer when START and STOP are written 1 together (R403, P1). Safe. -/
  | timerStartStop
  /-- Raised by a DMA controller: width bits, GO or addresses written as R455, R456 leave undefined (P9, P11). Safe. -/
  | dmaMisuse
  deriving DecidableEq, Repr

/-! ## The state -/

/-- The whole machine. -/
structure State where
  /-- The parameters of the core and the system (log 1); no step changes them. -/
  cfg : Config
  /-- x[0] to x[31] (R20, R21). -/
  regs : Vector Word 32
  /-- The program counter (R26). -/
  pc : Word
  /-- ctl0 (R30). -/
  status : Status
  /-- ctl1 (R31). -/
  estatus : Status
  /-- ctl2 (R32). -/
  bstatus : Status
  /-- ctl3 (R33). -/
  ienable : Word
  /-- Levels of the `irq` inputs that no modelled peripheral drives (R39). -/
  irqLines : Word
  /-- The valid lines of the instruction cache, by rising line number (R89). -/
  icache : List (Nat × InstrLine)
  /-- The valid lines of the data cache, by rising line number (R86). -/
  dcache : List (Nat × DataLine)
  /-- Words stored to and not yet surely visible to fetches (R39, R84; log 22). -/
  stale : List StaleWord
  /-- The custom instruction logic (R37). -/
  custom : CustomState
  /-- Memory: (physical address, byte) in canonical form (R38, R66; log 5). -/
  mem : List Host.Cell
  /-- The peripherals (R400, R534). -/
  devices : List Device
  /-- The hardware break signal of the JTAG debug module is asserted (R41, R351). -/
  hwBreak : Bool
  /-- The instruction-bus triggers the JTAG host has set, execution breakpoints among them (R39, R351, R366, R367). -/
  execTriggers : List ExecTrigger
  /-- The data-bus triggers the JTAG host has set (R39, R366, R367). -/
  dataTriggers : List DataTrigger
  /-- An armed trigger event has happened since the triggers were set (R367). -/
  armed : Bool
  /-- The trigger signal output: a trigger with that action activated at the latest instruction (R367). -/
  triggerOut : Bool
  /-- The trace unit and its buffer (R39, R368). -/
  trace : Trace
  /-- The reset input or a watchdog's `resetrequest` is asserted (R408, R560). -/
  resetReq : Bool
  /-- MODEL: what the environment does at the coming instruction boundaries (log 24). -/
  env : List (List EnvEvent)
  /-- MODEL: how many free values have been drawn (log 7). -/
  freeCtr : Nat
  deriving DecidableEq, Repr

/-! ## Reset -/

/-- The peripheral instances of `Config.initial` right after reset (R409, R426, R430, R446, R458, R485, R497, R517; values
the source does not state: log 32). -/
def State.resetDevices : List Device := [
  ⟨some 0, .timer {
    opts := ⟨999, true, true, true, false⟩, timeout := false, running := false, ito := false, cont := false,
    period := 999, counter := 999, snap := 0 }⟩,
  ⟨none, .timer {
    opts := ⟨0x00ffffff, false, false, false, true⟩, timeout := false, running := false, ito := false, cont := false,
    period := 0x00ffffff, counter := 0x00ffffff, snap := 0 }⟩,
  ⟨some 1, .pio {
    opts := ⟨32, .bidirectional, some .rising, some .edge⟩, pins := 0, out := 0, direction := 0, interruptmask := 0,
    edgecapture := 0, seen := 0 }⟩,
  ⟨none, .sysId ⟨1, 1⟩⟩,
  ⟨none, .mutex ⟨0, 0, 0, true⟩⟩,
  ⟨some 2, .dma {
    opts := ⟨31, 31, 2, 32, [1, 2, 4, 8, 16]⟩, done := false, busy := false, reop := false, weop := false, len := false,
    readStart := 0, writeStart := 0, length := 0, control := 0, readCur := 0, writeCur := 0, fifo := [],
    readPart := 0, writePart := 0, readEnd := false, writeEnd := false, ended := false, unit := 0, mode := 0 }⟩,
  ⟨some 3, .jtagUart {
    opts := ⟨64, 64, 8, 8⟩, writeFifo := [], readFifo := [], re := false, we := false, ac := false, hostIdle := true }⟩,
  ⟨some 4, .uart {
    opts := ⟨8, 1, .none, true, true, true, 433⟩, rxdata := 0, txdata := 0, trdy := true, txShift := 0, txLeft := 0,
    pe := false, fe := false, brk := false, roe := false, toe := false, rrdy := false, dcts := false,
    cts := false, ctsSeen := false, eop := false, control := 0, divisor := 433, endofpacket := 0 }⟩,
  ⟨some 5, .spi {
    opts := ⟨true, 8, 1, 4, 0⟩, rxdata := 0, txdata := 0, trdy := true, shift := 0, shiftLeft := 0, rrdy := false,
    roe := false, toe := false, control := 0, slaveselect := 1, miso := 0 }⟩]

/-- The machine right after reset (R45, R560). The spec states: x[0] = 0, pc = RESET_ADDR, status = 0, the instruction-cache
line of RESET_ADDR invalid, nothing prefetched, the peripheral values of R409, R426, R446, R497, R517. Everything else is the
model's (logs 1 to 6, 18, 24, 26, 32). -/
def State.reset : State where
  cfg := Config.initial
  regs := Vector.replicate 32 0
  pc := Config.initial.resetAddr
  status := ⟨false, false⟩
  estatus := ⟨false, false⟩
  bstatus := ⟨false, false⟩
  ienable := 0
  irqLines := 0
  icache := []
  dcache := []
  stale := []
  custom := ⟨Vector.replicate 32 0, 0⟩
  mem := []
  devices := State.resetDevices
  hwBreak := false
  execTriggers := []
  dataTriggers := []
  armed := false
  triggerOut := false
  trace := ⟨⟨false, .nothing, false, false⟩, false, []⟩
  resetReq := false
  env := []
  freeCtr := 0

end Sys2Proof.Machine
end

