-- ==== Sys2Proof/Machine/Memory.lean ====
section
/-! DEFINITION. Lists sorted by key, the memory held in one of them, byte order (R60 to R62), and the small helpers on
words that memory accesses and peripherals share. -/

namespace Sys2Proof.Machine

/-! ## Lists sorted by key -/

/-- The value at key `k`. -/
def keyGet {α : Type} (l : List (Nat × α)) (k : Nat) : Option α :=
  match l with
  | [] => none
  | (j, v) :: t => if j = k then some v else keyGet t k

/-- The list with value `v` at key `k`. -/
def keySet {α : Type} (l : List (Nat × α)) (k : Nat) (v : α) : List (Nat × α) :=
  match l with
  | [] => [(k, v)]
  | (j, u) :: t => if k < j then (k, v) :: (j, u) :: t else if j = k then (k, v) :: t else (j, u) :: keySet t k v

/-- The list with nothing at key `k`. -/
def keyErase {α : Type} (l : List (Nat × α)) (k : Nat) : List (Nat × α) :=
  match l with
  | [] => []
  | (j, u) :: t => if j = k then keyErase t k else (j, u) :: keyErase t k

/-- The keys rise strictly. -/
def keysRising {α : Type} : List (Nat × α) → Bool
  | [] => true
  | (k, _) :: t => t.all (fun e => decide (k < e.1)) && keysRising t

/-! ## Memory -/

/-- What a byte that `mem` does not list reads as (R45, P23 state none; DESIGN CHOICE, unsafe: log 5). -/
def unlistedByte : Byte := 0

/-- The location an address names: its low 31 bits (R66, D4). -/
def phys (a : Word) : Nat := a.toNat % 2 ^ 31

/-- The byte at an address. -/
def readByte (m : List Host.Cell) (a : Word) : Byte := (keyGet m (phys a)).getD unlistedByte

/-- Memory with byte `b` at an address, in canonical form. -/
def writeByte (m : List Host.Cell) (a : Word) (b : Byte) : List Host.Cell :=
  if b = unlistedByte then keyErase m (phys a) else keySet m (phys a) b

/-- The canonical form: addresses strictly rising and inside the 31-bit space, no entry equal to the unlisted byte. -/
def Memory.wf (m : List Host.Cell) : Bool :=
  keysRising m && m.all (fun c => decide (c.1 < 2 ^ 31) && c.2 != unlistedByte)

/-- The number of bytes of an access (R70). -/
def Width.bytes : Width → Nat
  | .byte => 1
  | .half => 2
  | .word => 4

/-- The number of bits of an access (R70). -/
def Width.bits (w : Width) : Nat := 8 * w.bytes

/-- Natural alignment (R64). -/
def aligned (w : Width) (a : Word) : Bool := a.toNat % w.bytes == 0

/-- `MemRead` of R62: little endian, the value zero-extended. -/
def readMem (m : List Host.Cell) (a : Word) (w : Width) : Word :=
  match w with
  | .byte => (readByte m a).setWidth 32
  | .half => wordOfBytes (readByte m a) (readByte m (a + 1)) 0 0
  | .word => wordOfBytes (readByte m a) (readByte m (a + 1)) (readByte m (a + 2)) (readByte m (a + 3))

/-- `MemWrite` of R62: little endian, the low bytes of the value. -/
def writeMem (m : List Host.Cell) (a : Word) (w : Width) (v : Word) : List Host.Cell :=
  match w with
  | .byte => writeByte m a (v.extractLsb' 0 8)
  | .half => writeByte (writeByte m a (v.extractLsb' 0 8)) (a + 1) (v.extractLsb' 8 8)
  | .word =>
    writeByte (writeByte (writeByte (writeByte m a (v.extractLsb' 0 8)) (a + 1) (v.extractLsb' 8 8))
      (a + 2) (v.extractLsb' 16 8)) (a + 3) (v.extractLsb' 24 8)

/-! ## Words -/

/-- The aligned word an address lies in. -/
def wordAddr (a : Word) : Word := a &&& 0xfffffffc

/-- The `n` low bits set. -/
def lowMask (n : Nat) : Word := BitVec.ofNat 32 (2 ^ n - 1)

/-- Bits of `new` where `mask` is set, of `old` elsewhere. -/
def merge (mask new old : Word) : Word := (new &&& mask) ||| (old &&& ~~~mask)

/-- A value whose `n` low bits are those of `v` and whose other bits are those of the free word `x` (R400). -/
def withLow (n : Nat) (v x : Word) : Word := merge (lowMask n) v x

/-- The word with bit `i` equal to `b`. -/
def bitAt (i : Nat) (b : Bool) : Word := (BitVec.ofBool b).setWidth 32 <<< i

/-- How far the byte lanes of an access lie above lane 0 of its word, in bits (R62). -/
def laneShift (a : Word) : Nat := 8 * (a.toNat % 4)

/-- The byte lanes an access drives, as a mask of the aligned word (R62). -/
def laneMask (a : Word) (w : Width) : Word := lowMask w.bits <<< laneShift a

/-- The lanes of a word that an access selects, moved to the low end. -/
def selectLanes (a : Word) (w : Width) (v : Word) : Word := (v >>> laneShift a) &&& lowMask w.bits

/-- A word with the lanes of an access replaced by the low bits of `v`. -/
def mergeLanes (a : Word) (w : Width) (v old : Word) : Word := merge (laneMask a w) (v <<< laneShift a) old

/-- A loaded value brought to 32 bits (R141 to R150): sign- or zero-extended from its width. -/
def extend (w : Width) (signed : Bool) (v : Word) : Word :=
  match w with
  | .byte => if signed then (v.setWidth 8).signExtend 32 else (v.setWidth 8).setWidth 32
  | .half => if signed then (v.setWidth 16).signExtend 32 else (v.setWidth 16).setWidth 32
  | .word => v

end Sys2Proof.Machine
end

