-- ==== Sys2Proof/Machine/Dma.lean ====
section
/-! DEFINITION. The registers of the DMA controller (R450 to R458, log 35). The transfers are in DmaEngine.lean. -/

namespace Sys2Proof.Machine

/-- `BYTE`, `HW`, `WORD`, `DOUBLEWORD`, `QUADWORD` of R451 with the bytes each selects (R455). -/
def dmaWidthBits : List (Nat × Nat) := [(0, 1), (1, 2), (2, 4), (10, 8), (11, 16)]

/-- The widths in bytes that a control word selects (R455). -/
def dmaWidths (control : BitVec 12) : List Nat :=
  (dmaWidthBits.filter (fun p => control.getLsbD p.1)).map Prod.snd

/-- The selected width when exactly one is selected (R455). -/
def Dma.width (d : Dma) : Option Nat :=
  match dmaWidths d.control with
  | [w] => some w
  | _ => none

/-- The addresses and the length are multiples of a width (P11). -/
def Dma.multiples (d : Dma) (w : Nat) : Bool :=
  d.readStart.toNat % w == 0 && d.writeStart.toNat % w == 0 && d.length.toNat % w == 0

/-- The widths a transaction can have: the selected one, and where none is selected, of which the source says nothing, any that
is enabled in hardware (log 35); the addresses and the length are multiples of it. -/
def Dma.units (d : Dma) : List Nat :=
  (match dmaWidths d.control with
    | [] => d.opts.widths
    | l => l).filter d.multiples

/-- A control word selects at most one width, and one that is enabled in hardware (R455, P9). -/
def Dma.selectable (d : Dma) (control : BitVec 12) : Bool :=
  decide ((dmaWidths control).length ≤ 1) && (dmaWidths control).all (fun w => d.opts.widths.contains w)

/-- `GO` (R455). -/
def Dma.go (d : Dma) : Bool := d.control.getLsbD 3

/-- Transfers occur: GO is 1, `length` is not zero and the transaction has not ended (R455, R456). -/
def Dma.active (d : Dma) : Bool := d.go && d.length != 0 && !d.ended

/-- What R455, R456 require of a transaction: a width as above, and addresses and length that are multiples of it, of the width
in use where it is in progress (P9, P11). -/
def Dma.legal (d : Dma) : Bool := if d.busy then d.multiples d.unit else d.selectable d.control && !d.units.isEmpty

/-- The interrupt output (R457). -/
def Dma.irq (d : Dma) : Bool := d.done && d.control.getLsbD 4

/-- The bus transfers that move one unit of `w` bytes: their width and their number (R450, R455). -/
def unitTransfers (w : Nat) : Width × Nat :=
  match w with
  | 1 => (.byte, 1)
  | 2 => (.half, 1)
  | 8 => (.word, 2)
  | 16 => (.word, 4)
  | _ => (.word, 1)

/-- The bus transfers still to be written of the transaction in progress (R456). -/
def Dma.transfersLeft (d : Dma) (w : Nat) : Nat := (d.length.toNat + w - 1) / w * (unitTransfers w).2 - d.writePart

/-- The read port has a transfer to do (R456): something is left to read, the FIFO has room, and the read side has not ended
the packet, or has ended it inside a unit that is still to be completed. -/
def Dma.canRead (d : Dma) (w : Nat) : Bool :=
  (!d.readEnd || d.readPart != 0) && decide (d.fifo.length < d.transfersLeft w) &&
    decide (d.fifo.length < d.opts.fifoDepth * (unitTransfers w).2)

/-- The write port has a transfer to do (R456): what is left of the unit it writes has been read whole, since a unit is read
before it is written. -/
def Dma.canWrite (d : Dma) (w : Nat) : Bool :=
  !d.fifo.isEmpty && decide ((unitTransfers w).2 ≤ d.writePart + d.fifo.length)

/-- The address of the next bus transfer on the read port. -/
def Dma.nextRead (d : Dma) (w : Nat) : Word := d.readCur + BitVec.ofNat 32 (d.readPart * (unitTransfers w).1.bytes)

/-- The address of the next bus transfer on the write port. -/
def Dma.nextWrite (d : Dma) (w : Nat) : Word := d.writeCur + BitVec.ofNat 32 (d.writePart * (unitTransfers w).1.bytes)

/-- The defined bits of `status` (R451). -/
def Dma.statusWord (d : Dma) : Word :=
  bitAt 4 d.len ||| bitAt 3 d.weop ||| bitAt 2 d.reop ||| bitAt 1 d.busy ||| bitAt 0 d.done

/-- What an address register reads as: the start address, or while a transaction is in progress a free value between the
start and the current address (R453, P11). That the registers hold the start address again after a transaction has ended, which
R453 does not state, is the model's choice (log 35). -/
def Dma.readAddress (d : Dma) (start cur x : Word) : Word :=
  if d.busy then start + BitVec.ofNat 32 (x.toNat % ((cur - start).toNat + 1)) else start

/-- A register read (R452 to R455, P10). -/
def Dma.read (d : Dma) (off : Nat) (x : Word) : Word :=
  match off with
  | 0 => withLow 5 d.statusWord x
  | 1 => withLow d.opts.readWidth (d.readAddress d.readStart d.readCur x) x
  | 2 => withLow d.opts.writeWidth (d.readAddress d.writeStart d.writeCur x) x
  | 3 => withLow d.opts.lengthWidth d.length x
  | 6 => withLow 12 (d.control.setWidth 32) x
  | _ => x

/-- A transaction ends (R456): what was read ahead is dropped. -/
def Dma.finish (d : Dma) : Dma := { d with fifo := [], ended := true, busy := false, done := true }

/-- After a write that may start a transaction, or goes into one: it must be a legal one (P9, P11). -/
def Dma.checked (d : Dma) : Except Refusal Dma :=
  if d.active && !d.legal then .error .dmaMisuse else .ok d

/-- The old or the new one of two values, chosen by a bit of a free word. -/
def oldOrNew {α : Type} (x : Word) (bit : Nat) (old new : α) : α := if x.getLsbD bit then new else old

/-- A write of `length` during a transaction, which is not stated (R456): the length that is left is the old or the new one, a
free choice; at zero LEN is set and, with LEEN, the transaction ends (R454, R455; log 35). -/
def Dma.relength (d : Dma) (length x : Word) : Dma :=
  let l := oldOrNew x 0 d.length length
  let e := { d with length := l, len := d.len || l == 0 }
  if l == 0 && d.mode.getLsbD 7 then e.finish else e

/-- A register write (R452 to R455). Writing `status` clears DONE, LEN, REOP and WEOP (R452, R457; for a value that is not
zero the model's choice, log 35); during a transaction it does the same and the transaction goes on, which R456 leaves open and
is the model's choice (log 35). Width bits are set one at a time, GO is not cleared during a transaction, addresses and length
are multiples of the width (P9, P10, P11). A write of another register during a transaction, which is not stated (R456), goes
into the register; what the transaction makes of it is free, but that its width stays is the model's choice (log 35). A write of
`length` or `control` makes a new transaction possible after one has ended: when it begins with GO left at 1 is the model's choice
(log 35). -/
def Dma.write (d : Dma) (off : Nat) (v m x : Word) : Except Refusal Dma :=
  match off with
  | 0 =>
    if v &&& m &&& 0xffffffe0 ≠ 0 then .error (.reservedBitsWritten v)
    else if m.getLsbD 0 then .ok { d with done := false, len := false, reop := false, weop := false }
    else .ok d
  | 1 => do
    let e ← ({ d with readStart := merge m v d.readStart &&& lowMask d.opts.readWidth }).checked
    return if d.busy then { e with readCur := oldOrNew x 0 d.readCur e.readStart } else e
  | 2 => do
    let e ← ({ d with writeStart := merge m v d.writeStart &&& lowMask d.opts.writeWidth }).checked
    return if d.busy then { e with writeCur := oldOrNew x 0 d.writeCur e.writeStart } else e
  | 3 => do
    let l := merge m v d.length &&& lowMask d.opts.lengthWidth
    let e ← ({ d with length := l, ended := false }).checked
    return if d.busy then d.relength l x else e
  | 6 =>
    let c : BitVec 12 := (merge m v (d.control.setWidth 32)).setWidth 12
    if v &&& m &&& 0xfffff000 ≠ 0 then .error (.reservedBitsWritten v)
    else if !d.selectable c || (d.busy && !c.getLsbD 3) then .error .dmaMisuse
    else if d.busy then .ok { d with control := c, mode := (c &&& x.setWidth 12) ||| (d.mode &&& ~~~x.setWidth 12) }
    else ({ d with control := c, ended := false }).checked
  | _ => .error (.reservedRegister off)

/-- The transaction in progress, set up when it is not yet (R456). Where several widths are possible a free word chooses (log
35). That a new transaction whose address registers were not written again begins where the last one began is the model's choice
(log 35). -/
def Dma.begin (d : Dma) (x : Word) : Dma :=
  if d.busy then d
  else { d with
    busy := true, readCur := d.readStart, writeCur := d.writeStart, fifo := [], readPart := 0, writePart := 0,
    readEnd := false, writeEnd := false, mode := d.control
    unit := match d.units with
      | [w] => w
      | l => l.getD (x.toNat % l.length) 1 }

/-- A bus transfer of the read port has brought `v`, in units of `w` bytes; `eop`: the slave signalled the end of the packet
(R456). After the last transfer of a unit the read address moves on. -/
def Dma.afterRead (d : Dma) (w : Nat) (v : Word) (eop : Bool) : Dma :=
  let whole := decide ((unitTransfers w).2 ≤ d.readPart + 1)
  { d with
    fifo := d.fifo ++ [v]
    readPart := if whole then 0 else d.readPart + 1
    readCur := if whole && !d.mode.getLsbD 8 then d.readCur + BitVec.ofNat 32 w else d.readCur
    readEnd := d.readEnd || (eop && d.mode.getLsbD 5) }

/-- A unit of `w` bytes has been written (R452, R454, R456): the length, the flags and the end of the transaction. A read-side
end of packet ends it when all that was read is written; a write-side one at once, and what was read ahead is dropped (log
35). -/
def Dma.unitWritten (d : Dma) (w : Nat) : Dma :=
  let length := d.length - BitVec.ofNat 32 (min w d.length.toNat)
  let byLength := length == 0 && d.mode.getLsbD 7
  let byRead := d.readEnd && d.fifo.isEmpty
  let e := { d with
    writePart := 0
    writeCur := if d.mode.getLsbD 9 then d.writeCur else d.writeCur + BitVec.ofNat 32 w
    length := length
    len := d.len || length == 0
    reop := d.reop || byRead
    weop := d.weop || d.writeEnd }
  if byLength || byRead || d.writeEnd then e.finish else e

/-- A bus transfer of the write port has taken the oldest value of the FIFO, in units of `w` bytes; `eop`: the slave signalled
the end of the packet (R456). -/
def Dma.afterWrite (d : Dma) (w : Nat) (eop : Bool) : Dma :=
  let e := { d with fifo := d.fifo.tail, writeEnd := d.writeEnd || (eop && d.mode.getLsbD 6) }
  if (unitTransfers w).2 ≤ d.writePart + 1 then e.unitWritten w else { e with writePart := d.writePart + 1 }

/-- System reset: no value is stated (R458, P12), all are free from the `n`-th free word on, but no transaction is in
progress and none is set up: `GO` is 0 (log 35). -/
def Dma.reset (d : Dma) (n : Nat) : Dma :=
  let x := Config.freeWord n
  { d with
    done := x.getLsbD 0
    busy := false
    reop := x.getLsbD 2
    weop := x.getLsbD 3
    len := x.getLsbD 4
    readStart := Config.freeWord (n + 1) &&& lowMask d.opts.readWidth
    writeStart := Config.freeWord (n + 2) &&& lowMask d.opts.writeWidth
    length := Config.freeWord (n + 3) &&& lowMask d.opts.lengthWidth
    control := (Config.freeWord (n + 4)).setWidth 12 &&& 0xff7
    readCur := Config.freeWord (n + 5)
    writeCur := Config.freeWord (n + 6)
    fifo := []
    readPart := 0
    writePart := 0
    readEnd := false
    writeEnd := false
    ended := false
    unit := 0
    mode := 0 }

end Sys2Proof.Machine
end

