-- ==== Sys2Proof/Machine/JtagUart.lean ====
section
/-! DEFINITION. The JTAG UART core (R480 to R485, log 36). -/

namespace Sys2Proof.Machine

/-- The write interrupt condition (R484). -/
def JtagUart.writeCond (d : JtagUart) : Bool := decide (d.writeFifo.length ≤ d.opts.writeThreshold)

/-- The read interrupt condition (R484). -/
def JtagUart.readCond (d : JtagUart) : Bool :=
  decide (d.opts.readDepth - d.readFifo.length ≤ d.opts.readThreshold) || (!d.readFifo.isEmpty && d.hostIdle)

/-- `RI` (R483). -/
def JtagUart.ri (d : JtagUart) : Bool := d.readCond && d.re

/-- `WI` (R483). -/
def JtagUart.wi (d : JtagUart) : Bool := d.writeCond && d.we

/-- `WSPACE` (R483). -/
def JtagUart.wspace (d : JtagUart) : Nat := d.opts.writeDepth - d.writeFifo.length

/-- The `data` register as a read returns it (R482): reserved bits, and `DATA` when nothing is there, are free (P13). -/
def jtagDataWord (ravail : Nat) (rvalid : Bool) (data : Byte) (x : Word) : Word :=
  merge 0xffff80ff (BitVec.ofNat 32 ravail <<< 16 ||| bitAt 15 rvalid ||| data.setWidth 32) x

/-- A register read (R482, R483). A read of `data` takes a character from the read FIFO. -/
def JtagUart.read (d : JtagUart) (off : Nat) (x : Word) : Word × JtagUart :=
  match off with
  | 0 =>
    match d.readFifo with
    | [] => (jtagDataWord 0 false (x.setWidth 8) x, d)
    | c :: rest => (jtagDataWord rest.length true c x, { d with readFifo := rest })
  | 1 =>
    (merge 0xffff0703 (BitVec.ofNat 32 d.wspace <<< 16 ||| bitAt 10 d.ac ||| bitAt 9 d.wi ||| bitAt 8 d.ri |||
      bitAt 1 d.we ||| bitAt 0 d.re) x, d)
  | _ => (x, d)

/-- A register write (R482, R483). The reserved bits 14..8 of `data` are to be written zero (R481, head of the P-items of
93_implementation_defined.md); in `control` "other bits ignored" (R483). -/
def JtagUart.write (d : JtagUart) (off : Nat) (v m : Word) : Except Refusal JtagUart :=
  match off with
  | 0 =>
    if v &&& m &&& 0x7f00 ≠ 0 then .error (.reservedBitsWritten v)
    else .ok (if m.getLsbD 0 && decide (d.writeFifo.length < d.opts.writeDepth)
      then { d with writeFifo := d.writeFifo ++ [v.setWidth 8] } else d)
  | 1 =>
    .ok { d with
      re := if m.getLsbD 0 then v.getLsbD 0 else d.re
      we := if m.getLsbD 0 then v.getLsbD 1 else d.we
      ac := d.ac && !(v &&& m).getLsbD 10 }
  | _ => .error (.reservedRegister off)

/-- The interrupt output (R484). -/
def JtagUart.irq (d : JtagUart) : Bool := d.ri || d.wi

/-- The host sends a character; with the read FIFO full it cannot (log 36). It is JTAG activity (R483). -/
def JtagUart.hostSend (d : JtagUart) (c : Byte) : JtagUart :=
  { d with readFifo := if d.readFifo.length < d.opts.readDepth then d.readFifo ++ [c] else d.readFifo, ac := true }

/-- The host takes the oldest character, if there is one. It is JTAG activity (R483). -/
def JtagUart.hostTake (d : JtagUart) : JtagUart := { d with writeFifo := d.writeFifo.tail, ac := true }

/-- System reset (R485): the FIFOs are empty, the rest is free from the `n`-th free word on (P14). -/
def JtagUart.reset (d : JtagUart) (n : Nat) : JtagUart :=
  let x := Config.freeWord n
  { d with writeFifo := [], readFifo := [], re := x.getLsbD 0, we := x.getLsbD 1, ac := x.getLsbD 2 }

end Sys2Proof.Machine
end

