-- ==== Sys2Proof/Machine/Pio.lean ====
section
/-! DEFINITION. The PIO core (R420 to R426, log 34). -/

namespace Sys2Proof.Machine

/-- The core has input pins (R420). -/
def Pio.hasInput (d : Pio) : Bool := d.opts.kind != .outputOnly

/-- The core has an output register (R420). -/
def Pio.hasOutput (d : Pio) : Bool := d.opts.kind != .inputOnly

/-- The `edgecapture` register exists (R420). -/
def Pio.hasCapture (d : Pio) : Bool := d.hasInput && d.opts.capture.isSome

/-- The `interruptmask` register exists (R420). -/
def Pio.hasMask (d : Pio) : Bool := d.hasInput && d.opts.irqKind.isSome

/-- The value at the input ports (R422): in bidirectional mode a pin with direction 1 carries `out`. -/
def Pio.input (d : Pio) : Word :=
  lowMask d.opts.width &&&
    match d.opts.kind with
    | .bidirectional => merge d.direction d.out d.pins
    | .inputOnly => d.pins
    | .inputOutput => d.pins
    | .outputOnly => 0

/-- The ports on which an edge of the configured type leads from level `old` to level `new` (R424). -/
def Pio.edges (d : Pio) (old new : Word) : Word :=
  match d.opts.capture with
  | none => 0
  | some .rising => new &&& ~~~old
  | some .falling => old &&& ~~~new
  | some .either => old ^^^ new

/-- One system clock cycle: the edges since the last one are captured (R424). That they are found by comparing the input levels
at the two clock cycles, so that a pulse between them is not, is the model's choice (log 34). -/
def Pio.cycle (d : Pio) : Pio :=
  { d with
    seen := d.input
    edgecapture := if d.hasCapture then d.edgecapture ||| d.edges d.seen d.input else d.edgecapture }

/-- A register read (R422 to R425, P5). -/
def Pio.read (d : Pio) (off : Nat) (x : Word) : Word :=
  match off with
  | 0 => if d.hasInput then withLow d.opts.width d.input x else x
  | 1 => if d.opts.kind = .bidirectional then withLow d.opts.width d.direction x else x
  | 2 => if d.hasMask then withLow d.opts.width d.interruptmask x else x
  | 3 => if d.hasCapture then withLow d.opts.width d.edgecapture x else x
  | _ => x

/-- A register write (R422 to R425, P5). -/
def Pio.write (d : Pio) (off : Nat) (v m : Word) : Pio :=
  let m := m &&& lowMask d.opts.width
  match off with
  | 0 => if d.hasOutput then { d with out := merge m v d.out } else d
  | 1 => if d.opts.kind = .bidirectional then { d with direction := merge m v d.direction } else d
  | 2 => if d.hasMask then { d with interruptmask := merge m v d.interruptmask } else d
  | 3 => if d.hasCapture then { d with edgecapture := 0 } else d
  | _ => d

/-- The outside drives the pins with `v`. -/
def Pio.setPins (d : Pio) (v : Word) : Pio := { d with pins := v }

/-- The interrupt output (R425). A core generated for edge-sensitive interrupts but without edge capture has no `edgecapture`
register, and the source does not say what its output is: that it is never asserted is the model's choice (log 34). -/
def Pio.irq (d : Pio) : Bool :=
  d.hasMask &&
    match d.opts.irqKind with
    | none => false
    | some .level => d.input &&& d.interruptmask != 0
    | some .edge => d.hasCapture && d.edgecapture &&& d.interruptmask != 0

/-- System reset (R426): `direction` and `interruptmask` are stated, the rest is free from the `n`-th free word on. -/
def Pio.reset (d : Pio) (n : Nat) : Pio :=
  { d with
    out := Config.freeWord n
    direction := 0
    interruptmask := 0
    edgecapture := Config.freeWord (n + 1) &&& lowMask d.opts.width
    seen := Config.freeWord (n + 2) &&& lowMask d.opts.width }

end Sys2Proof.Machine
end

