-- ==== Sys2Proof/Machine/Spi.lean ====
section
/-! DEFINITION. The SPI core (R510 to R517, log 38). -/

namespace Sys2Proof.Machine

/-- A word cut to the width of the core (R510). -/
def Spi.cut (d : Spi) (w : BitVec 16) : BitVec 16 := w &&& BitVec.ofNat 16 (2 ^ d.opts.width - 1)

/-- The defined bits of `status` (R514). -/
def Spi.statusWord (d : Spi) : Word :=
  bitAt 8 (d.toe || d.roe) ||| bitAt 7 d.rrdy ||| bitAt 6 d.trdy ||| bitAt 5 (d.shiftLeft == 0) ||| bitAt 4 d.toe |||
    bitAt 3 d.roe

/-- The bits of `control` that exist (R515): SSO in a master only. -/
def Spi.controlMask (d : Spi) : Word := if d.opts.master then 0x5d8 else 0x1d8

/-- A register read (R512 to R516, P18). A read of `rxdata` clears RRDY. -/
def Spi.read (d : Spi) (off : Nat) (x : Word) : Word × Spi :=
  match off with
  | 0 => (withLow d.opts.width (d.rxdata.setWidth 32) x, { d with rrdy := false })
  | 2 => (merge 0x1f8 d.statusWord x, d)
  | 3 => (merge d.controlMask (d.control.setWidth 32) x, d)
  | 5 => (if d.opts.master then withLow d.opts.selects (d.slaveselect.setWidth 32) x else x, d)
  | _ => (x, d)

/-- A register write (R512 to R516). Writing undefined bits has no effect (R511); that this holds of the reserved register 4 as
well is the model's reading (log 31). A store that drives only other byte lanes of `txdata` than its data still counts as a
write of it: the model's choice (log 30). -/
def Spi.write (d : Spi) (off : Nat) (v m : Word) : Except Refusal Spi :=
  match off with
  | 0 => .ok d
  | 1 =>
    .ok (if d.trdy then { d with txdata := d.cut ((merge m v (d.txdata.setWidth 32)).setWidth 16), trdy := false }
      else { d with toe := true })
  | 2 => .ok { d with roe := d.roe && !m.getLsbD 0, toe := d.toe && !m.getLsbD 0 }
  | 3 => .ok { d with control := (merge m v (d.control.setWidth 32) &&& d.controlMask).setWidth 16 }
  | 4 => .ok d
  | 5 =>
    .ok (if d.opts.master
      then { d with
        slaveselect := (merge m v (d.slaveselect.setWidth 32) &&& lowMask d.opts.selects).setWidth 16 } else d)
  | _ => .error (.reservedRegister off)

/-- A received word arrives in `rxdata` (R512): after an overflow its contents are free (P18). -/
def Spi.receive (d : Spi) (w : BitVec 16) (x : Word) : Spi :=
  { d with roe := d.roe || d.rrdy, rxdata := d.cut (if d.rrdy then x.setWidth 16 else w), rrdy := true }

/-- Clock cycles of one transaction of a master (R510, R513). -/
def Spi.wordCycles (d : Spi) : Nat := max 1 (d.opts.delay + d.opts.width * d.opts.clockDiv)

/-- One system clock cycle (R513): a master with a full `txdata` and an idle shifter starts, a running one goes on. -/
def Spi.cycle (d : Spi) (x : Word) : Spi :=
  if !d.opts.master then d
  else if d.shiftLeft = 0 then
    if d.trdy then d else { d with shift := d.txdata, trdy := true, shiftLeft := d.wordCycles }
  else if d.shiftLeft = 1 then ({ d with shiftLeft := 0 }).receive d.miso x
  else { d with shiftLeft := d.shiftLeft - 1 }

/-- The master of a slave core asserts `ss_n`: a transaction is in progress (R514), and "the slave logic immediately begins
sending the transmit shift register contents" (R513). That a waiting `txdata` moves to the shift register at this moment, and
not before, is the model's choice (log 38). -/
def Spi.slaveSelect (d : Spi) : Spi :=
  if d.opts.master || d.shiftLeft != 0 then d
  else if d.trdy then { d with shiftLeft := 1 } else { d with shift := d.txdata, trdy := true, shiftLeft := 1 }

/-- The master of a slave core has exchanged one word (R512, R513). -/
def Spi.slaveTransfer (d : Spi) (w : BitVec 16) (x : Word) : Spi :=
  if d.opts.master then d else { d.slaveSelect with shiftLeft := 0 }.receive w x

/-- The interrupt output (R517). -/
def Spi.irq (d : Spi) : Bool := d.statusWord &&& d.control.setWidth 32 &&& 0x1d8 != 0

/-- System reset (R517): `control` 0, `slaveselect` 1, an idle core; `rxdata`, `txdata`, the shift register and the error
bits are free from the `n`-th free word on (P19). -/
def Spi.reset (d : Spi) (n : Nat) : Spi :=
  let x := Config.freeWord n
  { d with
    rxdata := d.cut ((Config.freeWord (n + 1)).setWidth 16)
    txdata := d.cut ((Config.freeWord (n + 2)).setWidth 16)
    trdy := true
    shift := d.cut ((Config.freeWord (n + 3)).setWidth 16)
    shiftLeft := 0
    rrdy := false
    roe := x.getLsbD 3
    toe := x.getLsbD 4
    control := 0
    slaveselect := 1 }

end Sys2Proof.Machine
end

