-- ==== Sys2Proof/Machine/SysIdMutex.lean ====
section
/-! DEFINITION. The system ID core (R430) and the mutex core (R440 to R446). -/

namespace Sys2Proof.Machine

/-- A register read of the system ID core (R430). It has no writable register (P7). -/
def SysId.read (d : SysId) (off : Nat) (x : Word) : Word :=
  match off with
  | 0 => d.id
  | 1 => d.timestamp
  | _ => x

/-- `VALUE` of a mutex word (R441). -/
def mutexValue (w : Word) : BitVec 16 := w.extractLsb' 0 16

/-- `OWNER` of a mutex word (R441). -/
def mutexOwner (w : Word) : BitVec 16 := w.extractLsb' 16 16

/-- A register read (R442, R445). -/
def Mutex.read (d : Mutex) (off : Nat) (x : Word) : Word :=
  match off with
  | 0 => d.mutex
  | 1 => withLow 1 (bitAt 0 d.reset) x
  | _ => x

/-- A register write: the atomic test-and-set of R442, and the `RESET` bit of R445. Two points are the model's choice: the OWNER
of a store that does not drive its byte lanes is the one the register holds (log 30), and ones written to the bits of `reset`
that are "not used" (R441) are ignored (log 31). -/
def Mutex.write (d : Mutex) (off : Nat) (v m : Word) : Except Refusal Mutex :=
  match off with
  | 0 =>
    let w := merge m v d.mutex
    .ok (if mutexValue d.mutex = 0 ∨ mutexOwner d.mutex = mutexOwner w then { d with mutex := w } else d)
  | 1 => .ok { d with reset := d.reset && !(v &&& m).getLsbD 0 }
  | _ => .error (.reservedRegister off)

/-- System reset (R446). -/
def Mutex.afterReset (d : Mutex) : Mutex :=
  { d with mutex := d.initialOwner.setWidth 32 <<< 16 ||| d.initialValue.setWidth 32, reset := true }

end Sys2Proof.Machine
end

