-- ==== Sys2Proof/Machine/Timer.lean ====
section
/-! DEFINITION. The timer core (R401 to R409, log 33). In the peripheral files `x` is a free word that stands in the bits
the source leaves undefined, `v` the written word and `m` the mask of the byte lanes the write drives. -/

namespace Sys2Proof.Machine

/-- The counter can be stopped by STOP, by a period write and at the end of a single count: the Start/Stop option is on and
the core is no watchdog, which "can never be stopped" (R403, R404, R408). -/
def Timer.canStop (d : Timer) : Bool := d.opts.startStop && !d.opts.watchdog

/-- A register read (R402 to R405). -/
def Timer.read (d : Timer) (off : Nat) (x : Word) : Word :=
  match off with
  | 0 => withLow 2 (bitAt 1 d.running ||| bitAt 0 d.timeout) x
  | 1 => withLow 2 (bitAt 1 d.cont ||| bitAt 0 d.ito) x
  | 2 => if d.opts.writeablePeriod then withLow 16 d.period x else x
  | 3 => if d.opts.writeablePeriod then withLow 16 (d.period >>> 16) x else x
  | 4 => if d.opts.readableSnapshot then withLow 16 d.snap x else x
  | 5 => if d.opts.readableSnapshot then withLow 16 (d.snap >>> 16) x else x
  | _ => x

/-- A write of `periodl` or `periodh`: the new period, the counter reloaded, the counter stopped where it can be (R404).
That a watchdog with Writeable period on stores the value too, as R404 says, where R408 says that a watchdog ignores it, is the
model's choice (log 33). -/
def Timer.writePeriod (d : Timer) (v m : Word) : Timer :=
  let p := if d.opts.writeablePeriod then merge m v d.period else d.period
  { d with period := p, counter := p, running := d.running && !d.canStop }

/-- A register write (R402 to R405; P1, P2). A store to `periodl`, `periodh`, `snapl` or `snaph` that drives only byte lanes above
their 16 bits still reloads the counter or takes a snapshot: the model's choice (log 30). -/
def Timer.write (d : Timer) (off : Nat) (v m : Word) : Except Refusal Timer :=
  let low := v &&& m &&& lowMask 16
  match off with
  | 0 =>
    if low ≠ 0 then .error (.reservedBitsWritten v)
    else .ok { d with timeout := d.timeout && !m.getLsbD 0 }
  | 1 =>
    if low &&& 0xfff0 ≠ 0 then .error (.reservedBitsWritten v)
    else if d.opts.startStop && low.getLsbD 2 && low.getLsbD 3 then .error .timerStartStop
    else .ok { d with
      ito := if m.getLsbD 0 then v.getLsbD 0 else d.ito
      cont := if m.getLsbD 0 then v.getLsbD 1 else d.cont
      running := (d.running || low.getLsbD 2) && !(low.getLsbD 3 && d.canStop) }
  | 2 => .ok (d.writePeriod v (m &&& lowMask 16))
  | 3 => .ok (d.writePeriod (v <<< 16) ((m &&& lowMask 16) <<< 16))
  | 4 => .ok (if d.opts.readableSnapshot then { d with snap := d.counter } else d)
  | 5 => .ok (if d.opts.readableSnapshot then { d with snap := d.counter } else d)
  | _ => .error (.reservedRegister off)

/-- One system clock cycle (R406), and whether the watchdog requests a system reset in it (R408). -/
def Timer.cycle (d : Timer) : Timer × Bool :=
  if d.running then
    if d.counter = 0 then
      ({ d with counter := d.period, timeout := true, running := !(d.canStop && !d.cont) }, d.opts.watchdog)
    else ({ d with counter := d.counter - 1 }, false)
  else (d, false)

/-- The interrupt output (R407). -/
def Timer.irq (d : Timer) : Bool := d.timeout && d.ito

/-- System reset (R409): the period and, without the Start/Stop option, `running` are stated; the rest is free from the
`n`-th free word on. -/
def Timer.reset (d : Timer) (n : Nat) : Timer :=
  let x := Config.freeWord n
  { d with
    timeout := x.getLsbD 0
    ito := x.getLsbD 1
    cont := x.getLsbD 2
    running := if d.opts.watchdog then false else if d.opts.startStop then x.getLsbD 3 else true
    period := d.opts.fixedPeriod
    counter := Config.freeWord (n + 1)
    snap := Config.freeWord (n + 2) }

end Sys2Proof.Machine
end

