-- ==== Sys2Proof/Machine/Uart.lean ====
section
/-! DEFINITION. The UART core (R490 to R497, log 37). -/

namespace Sys2Proof.Machine

/-- A character cut to the data width of the core (R490). -/
def Uart.char (d : Uart) (c : BitVec 9) : BitVec 9 := c &&& BitVec.ofNat 9 (2 ^ d.opts.dataBits - 1)

/-- The E bit (R494). -/
def Uart.err (d : Uart) : Bool := d.toe || d.roe || d.brk || d.fe || d.pe

/-- The defined bits of `status` (R494). -/
def Uart.statusWord (d : Uart) : Word :=
  bitAt 12 d.eop ||| bitAt 11 d.cts ||| bitAt 10 d.dcts ||| bitAt 8 d.err ||| bitAt 7 d.rrdy ||| bitAt 6 d.trdy |||
    bitAt 5 (d.txLeft == 0) ||| bitAt 4 d.toe ||| bitAt 3 d.roe ||| bitAt 2 d.brk ||| bitAt 1 d.fe ||| bitAt 0 d.pe

/-- The character is the end-of-packet character, where the option is present (R492, R493). -/
def Uart.isEop (d : Uart) (c : BitVec 9) : Bool := d.opts.endOfPacket && c == d.endofpacket

/-- The character a read of `rxdata` returns: undefined while PE or FE is set (R492, P16). -/
def Uart.rxChar (d : Uart) (x : Word) : BitVec 9 := if d.pe || d.fe then d.char (x.setWidth 9) else d.rxdata

/-- A register read (R492 to R496). A read of `rxdata` clears RRDY. -/
def Uart.read (d : Uart) (off : Nat) (x : Word) : Word × Uart :=
  match off with
  | 0 =>
    (withLow 9 ((d.rxChar x).setWidth 32) x, { d with rrdy := false, eop := d.eop || d.isEop (d.rxChar x) })
  | 2 => (merge 0x1dff d.statusWord x, d)
  | 3 => (withLow 13 (d.control.setWidth 32) x, d)
  | 4 => (if d.opts.softBaud then withLow 16 (d.divisor.setWidth 32) x else x, d)
  | 5 => (if d.opts.endOfPacket then withLow 9 (d.endofpacket.setWidth 32) x else x, d)
  | _ => (x, d)

/-- A write of `txdata` (R493, P15): with TRDY = 0 the transmit overrun, and the character kept is free among the two. -/
def Uart.writeTx (d : Uart) (c : BitVec 9) (x : Word) : Uart :=
  if d.trdy then { d with txdata := c, trdy := false, eop := d.eop || d.isEop c }
  else { d with toe := true, txdata := if x.getLsbD 0 then c else d.txdata, eop := d.eop || d.isEop c }

/-- The bits of `control` that exist (R495): without flow control IDCTS and RTS are not there. -/
def Uart.controlMask (d : Uart) : BitVec 16 := if d.opts.flowControl then 0x1fff else 0x13ff

/-- A register write (R492 to R496, P17). The reserved bits 15..9 of `txdata` and `endofpacket`, 15..13 of `control`, are to be
written zero (R491, head of the P-items of 93_implementation_defined.md). A store that drives only other byte lanes of `txdata`
than its data still counts as a write of it: the model's choice (log 30). -/
def Uart.write (d : Uart) (off : Nat) (v m x : Word) : Except Refusal Uart :=
  let low := v &&& m &&& lowMask 16
  match off with
  | 0 => .ok d
  | 1 =>
    if low &&& 0xfe00 ≠ 0 then .error (.reservedBitsWritten v)
    else .ok (d.writeTx (d.char ((merge m v (d.txdata.setWidth 32)).setWidth 9)) x)
  | 2 =>
    if low ≠ 0 then .error (.reservedBitsWritten v)
    else
      let keep := !m.getLsbD 0
      let keepHigh := !m.getLsbD 8
      .ok { d with
        pe := d.pe && keep
        fe := d.fe && keep
        brk := d.brk && keep
        roe := d.roe && keep
        toe := d.toe && keep
        dcts := d.dcts && keepHigh
        eop := d.eop && keepHigh }
  | 3 =>
    if low &&& 0xe000 ≠ 0 then .error (.reservedBitsWritten v)
    else .ok { d with control := (merge m v (d.control.setWidth 32)).setWidth 16 &&& d.controlMask }
  | 4 =>
    .ok (if d.opts.softBaud then { d with divisor := (merge m v (d.divisor.setWidth 32)).setWidth 16 } else d)
  | 5 =>
    if d.opts.endOfPacket && low &&& 0xfe00 != 0 then .error (.reservedBitsWritten v)
    else .ok (if d.opts.endOfPacket
      then { d with endofpacket := d.char ((merge m v (d.endofpacket.setWidth 32)).setWidth 9) } else d)
  | _ => .error (.reservedRegister off)

/-- Clock cycles of one character on the line: start, data, parity and stop bits (R490, R496). -/
def Uart.charCycles (d : Uart) : Nat :=
  (1 + d.opts.dataBits + (if d.opts.parity = .none then 0 else 1) + d.opts.stopBits) * (d.divisor.toNat + 1)

/-- One system clock cycle of the transmitter (R493). The length of a character is taken from `divisor` when its transmission
begins: that a divisor written later counts from the next character on is the model's choice (log 37). -/
def Uart.transmit (d : Uart) : Uart :=
  if d.txLeft ≠ 0 then { d with txLeft := d.txLeft - 1 }
  else if d.trdy then d
  else { d with txShift := d.txdata, trdy := true, txLeft := d.charCycles }

/-- One system clock cycle of the CTS logic: DCTS is set by a transition of CTS_N, "sampled synchronously to the Avalon clock"
(R494); so a pulse between two clock cycles does not set it. -/
def Uart.sampleCts (d : Uart) : Uart :=
  { d with ctsSeen := d.cts, dcts := d.dcts || (d.opts.flowControl && d.cts != d.ctsSeen) }

/-- One system clock cycle (R493, R494). -/
def Uart.cycle (d : Uart) : Uart := d.transmit.sampleCts

/-- A character is received (R492, R494). -/
def Uart.receive (d : Uart) (c : BitVec 9) (parityError framingError : Bool) : Uart :=
  { d with
    roe := d.roe || d.rrdy
    rxdata := d.char c
    rrdy := true
    pe := d.pe || (parityError && d.opts.parity != .none)
    fe := d.fe || framingError }

/-- The `CTS_N` pin takes a level, which CTS reflects at once (R494). -/
def Uart.setCts (d : Uart) (level : Bool) : Uart :=
  if d.opts.flowControl then { d with cts := !level } else d

/-- The interrupt output (R497). -/
def Uart.irq (d : Uart) : Bool := d.statusWord &&& d.control.setWidth 32 &&& 0x15ff != 0

/-- System reset (R497): interrupt enables and `endofpacket` 0, the default divisor, an idle transmitter; the rest is free
from the `n`-th free word on (P17). CTS follows its pin. -/
def Uart.reset (d : Uart) (n : Nat) : Uart :=
  let x := Config.freeWord n
  { d with
    rxdata := d.char ((Config.freeWord (n + 1)).setWidth 9)
    txdata := d.char ((Config.freeWord (n + 2)).setWidth 9)
    trdy := true
    txShift := d.char ((Config.freeWord (n + 3)).setWidth 9)
    txLeft := 0
    pe := x.getLsbD 0 && d.opts.parity != .none
    fe := x.getLsbD 1
    brk := x.getLsbD 2
    roe := x.getLsbD 3
    toe := x.getLsbD 4
    rrdy := x.getLsbD 7
    dcts := x.getLsbD 10 && d.opts.flowControl
    ctsSeen := x.getLsbD 11 && d.opts.flowControl
    eop := x.getLsbD 12 && d.opts.endOfPacket
    control := x.setWidth 16 &&& 0x0a00 &&& d.controlMask
    divisor := d.opts.defaultDivisor
    endofpacket := 0 }

end Sys2Proof.Machine
end

