-- ==== Sys2Proof/Machine/Devices.lean ====
section
/-! DEFINITION. What the peripheral cores have in common (R400): a register read, a register write, a clock cycle, the
interrupt output, a system reset, the events of the environment. -/

namespace Sys2Proof.Machine

/-- A read of the register with offset `off`: the 32 bits on the bus and the core after it. -/
def Core.read (c : Core) (off : Nat) (x : Word) : Word × Core :=
  match c with
  | .timer d => (d.read off x, .timer d)
  | .pio d => (d.read off x, .pio d)
  | .sysId d => (d.read off x, .sysId d)
  | .mutex d => (d.read off x, .mutex d)
  | .dma d => (d.read off x, .dma d)
  | .jtagUart d => ((d.read off x).1, .jtagUart (d.read off x).2)
  | .uart d => ((d.read off x).1, .uart (d.read off x).2)
  | .spi d => ((d.read off x).1, .spi (d.read off x).2)

/-- A write of `v` to the register with offset `off`, driving the byte lanes `m`. Past the end of a register map reads are free
and writes are refused, but for the PIO and system ID cores, which ignore them: the model's choice (log 31). -/
def Core.write (c : Core) (off : Nat) (v m x : Word) : Except Refusal Core :=
  match c with
  | .timer d => (d.write off v m).map .timer
  | .pio d => .ok (.pio (d.write off v m))
  | .sysId d => .ok (.sysId d)
  | .mutex d => (d.write off v m).map .mutex
  | .dma d => (d.write off v m x).map .dma
  | .jtagUart d => (d.write off v m).map .jtagUart
  | .uart d => (d.write off v m x).map .uart
  | .spi d => (d.write off v m).map .spi

/-- One system clock cycle of everything but DMA transfers, and whether a watchdog requests a reset (R406, R408, R424). -/
def Core.cycle (c : Core) (x : Word) : Core × Bool :=
  match c with
  | .timer d => (.timer d.cycle.1, d.cycle.2)
  | .uart d => (.uart d.cycle, false)
  | .spi d => (.spi (d.cycle x), false)
  | .pio d => (.pio d.cycle, false)
  | .sysId d => (.sysId d, false)
  | .mutex d => (.mutex d, false)
  | .dma d => (.dma d, false)
  | .jtagUart d => (.jtagUart d, false)

/-- The interrupt output. -/
def Core.irq : Core → Bool
  | .timer d => d.irq
  | .pio d => d.irq
  | .sysId _ => false
  | .mutex _ => false
  | .dma d => d.irq
  | .jtagUart d => d.irq
  | .uart d => d.irq
  | .spi d => d.irq

/-- System reset, with free words from the `n`-th on. -/
def Core.reset (c : Core) (n : Nat) : Core :=
  match c with
  | .timer d => .timer (d.reset n)
  | .pio d => .pio (d.reset n)
  | .sysId d => .sysId d
  | .mutex d => .mutex d.afterReset
  | .dma d => .dma (d.reset n)
  | .jtagUart d => .jtagUart (d.reset n)
  | .uart d => .uart (d.reset n)
  | .spi d => .spi (d.reset n)

/-- Every system reset of a core draws fewer free words than this. -/
def resetDraws : Nat := 8

/-- The end-of-packet signal of a streaming slave during an access that led from `c` to `c'` (R496). The source does not say
when a UART drives it. That it does so in the access that takes its EOP bit from 0 to 1 and in no other, not in one that moves an
end-of-packet character while EOP is 1 still from the packet before, is the model's choice (log 35). -/
def endOfPacketSignal (c c' : Core) : Bool :=
  match c, c' with
  | .uart d, .uart d' => !d.eop && d'.eop
  | _, _ => false

/-- The streaming flow control of a slave (R497): a DMA transfer that reads the register with offset `off` waits until there is
something to read, one that writes it until there is room. Only the UART is said to stream. -/
def Core.streamReady (c : Core) (off : Nat) (cycle : BusCycle) : Bool :=
  match c, cycle with
  | .uart d, .read => off != 0 || d.rrdy
  | .uart d, .write => off != 1 || d.trdy
  | _, _ => true

/-- Reset of the cores in order. -/
def resetCores (l : List Device) (n : Nat) : List Device :=
  match l with
  | [] => []
  | d :: t => { d with core := d.core.reset n } :: resetCores t (n + resetDraws)

/-- One clock cycle of all cores in order, each with a free word of its own, and whether any requests a reset. -/
def cycleCores (l : List Device) (n : Nat) : List Device × Bool :=
  match l with
  | [] => ([], false)
  | d :: t =>
    let r := d.core.cycle (Config.freeWord n)
    let rest := cycleCores t (n + 1)
    ({ d with core := r.1 } :: rest.1, r.2 || rest.2)

/-- The word whose bit `n` is set where the device drives `irq` input `n` and its interrupt output is high (R400). -/
def Device.irqWord (d : Device) : Word :=
  match d.irqN with
  | none => 0
  | some n => bitAt n d.core.irq

/-- The `irq` inputs that the modelled peripherals assert. -/
def deviceIrqs (l : List Device) : Word := l.foldr (fun d w => d.irqWord ||| w) 0

/-- Device number `i` of the list. -/
def deviceAt (l : List Device) (i : Nat) : Option Core := (l[i]?).map Device.core

/-- The list with the core of device number `i` replaced. -/
def setDevice (l : List Device) (i : Nat) (c : Core) : List Device := l.modify i (fun d => { d with core := c })

/-- What an event of the outside does to one core; an event for another kind of core changes nothing. -/
def Core.event (c : Core) (e : EnvEvent) (x : Word) : Core :=
  match c, e with
  | .pio d, .pioInput _ v => .pio (d.setPins v)
  | .uart d, .uartReceive _ ch p f => .uart (d.receive ch p f)
  | .uart d, .uartBreak _ => .uart { d with brk := true }
  | .uart d, .uartCts _ level => .uart (d.setCts level)
  | .jtagUart d, .jtagSend _ ch => .jtagUart (d.hostSend ch)
  | .jtagUart d, .jtagTake _ => .jtagUart d.hostTake
  | .jtagUart d, .jtagIdle _ idle => .jtagUart { d with hostIdle := idle }
  | .jtagUart d, .jtagPoll _ => .jtagUart { d with ac := true }
  | .spi d, .spiMiso _ w => .spi { d with miso := w }
  | .spi d, .spiSelect _ => .spi d.slaveSelect
  | .spi d, .spiTransfer _ w => .spi (d.slaveTransfer w x)
  | c, _ => c

end Sys2Proof.Machine
end

