-- ==== Sys2Proof/Machine/Ops.lean ====
section
/-! DEFINITION. The named operations the meanings are written over: parameters, registers, free values, the bus, the data
cache, fetch coherence, interrupts, taking an exception or a break and returning from one. -/

namespace Sys2Proof.Machine

/-! ## Stops -/

/-- A step that ends without a next state. -/
inductive Stop where
  | fault (r : Fault)
  | refusal (r : Refusal)
  deriving DecidableEq, Repr

/-- An operation's result as an outcome of the step. -/
def finish (r : Except Stop State) : Host.Outcome State Fault Refusal :=
  match r with
  | .ok s => .next s
  | .error (.fault f) => .fault f
  | .error (.refusal q) => .refused q

/-- A peripheral's refusal as a stop. -/
def ofDevice {α : Type} (r : Except Refusal α) : Except Stop α :=
  match r with
  | .ok v => .ok v
  | .error q => .error (.refusal q)

/-! ## Parameters (R8) -/

/-- `HAS_ICACHE`: Nios II/s and Nios II/f. -/
def hasICache (c : Config) : Bool := c.core != .economy

/-- `HAS_DCACHE`: Nios II/f. -/
def hasDCache (c : Config) : Bool := c.core == .fast

/-- `mul` and `muli` are in `IMPLEMENTED` (R192, R342): any hardware multiplier, and not on the Nios II/e. -/
def mulImplemented (c : Config) : Bool := c.core != .economy && c.mulOption != .noMultiplier

/-- `mulxss`, `mulxsu`, `mulxuu` are in `IMPLEMENTED` (R192, R342): the embedded Stratix multiplier only. -/
def mulxImplemented (c : Config) : Bool := c.core != .economy && c.mulOption == .embeddedStratix

/-- `div` and `divu` are in `IMPLEMENTED` (R192, R342). -/
def divImplemented (c : Config) : Bool := c.core != .economy && c.hwDivide

/-! ## Registers (R20, R21) -/

/-- The value of a general-purpose register: register 0 is the constant 0 (R21). -/
def State.reg (s : State) (r : Reg) : Word := if r = 0#5 then 0#32 else s.regs[r.toNat]'r.isLt

/-- A general-purpose register written: a write to register 0 has no effect (R21). -/
def State.setReg (s : State) (r : Reg) (v : Word) : State :=
  if r = 0#5 then s else { s with regs := s.regs.set r.toNat v r.isLt }

/-- The program counter moved. -/
def State.setPc (s : State) (a : Word) : State := { s with pc := a }

/-- On to the following instruction (R27). -/
def State.advance (s : State) : State := s.setPc (s.pc + 4)

/-- An instruction that writes one register and goes on. -/
def writeResult (s : State) (r : Reg) (v : Word) : State := (s.setReg r v).advance

/-! ## Free values (log 7) -/

/-- The next free value. -/
def State.freeNow (s : State) : Word := Config.freeWord s.freeCtr

/-- The state after `n` free values have been drawn. -/
def State.drawn (s : State) (n : Nat) : State := { s with freeCtr := s.freeCtr + n }

/-! ## The bus (R62, R66 to R68, R73) -/

/-- The region in which a port finds an address (R67). -/
def findRegion (c : Config) (port : Region → Bool) (a : Word) : Option Region :=
  c.regions.find? (fun r => port r && decide (r.base ≤ phys a) && decide (phys a < r.base + r.size))

/-- A port reaches something at an address (R68). -/
def mapped (c : Config) (port : Region → Bool) (a : Word) : Bool := (findRegion c port a).isSome

/-- The region is memory, to which alone the instruction master connects (R38). -/
def Region.isMemory (r : Region) : Bool :=
  match r.kind with
  | .ram => true
  | .rom => true
  | .flash => true
  | .device _ => false
  | .unpublished => false

/-- The instruction master reads memory at an address (R38, R68). -/
def instrMemory (c : Config) (a : Word) : Bool :=
  match findRegion c Region.instr a with
  | some r => Region.isMemory r
  | none => false

/-- What D1 asks of an address that the processor goes to by itself: it is a multiple of 4 and lies in memory that the
instruction master reads. -/
def entryLegal (c : Config) (a : Word) : Bool := aligned .word a && instrMemory c a

/-- The reset, the exception and the break address are legal (R562, R334, R350; D1). -/
def entriesLegal (c : Config) : Bool := entryLegal c c.resetAddr && entryLegal c c.exceptionAddr && entryLegal c c.breakAddr

/-- The register offset of an address in a peripheral's region (R400). -/
def registerOffset (r : Region) (a : Word) : Nat := (phys a - r.base) / 4

/-- A read of one peripheral register by an access of width `w` (R400, log 30). -/
def deviceRead (s : State) (i off : Nat) (a : Word) (w : Width) : Option Word × State :=
  match deviceAt s.devices i with
  | none => (none, s)
  | some c =>
    (some (selectLanes a w (c.read off s.freeNow).1),
      { s.drawn 1 with devices := setDevice s.devices i (c.read off s.freeNow).2 })

/-- A write of one peripheral register by an access of width `w` (R400, log 30). -/
def deviceWrite (s : State) (i off : Nat) (a : Word) (w : Width) (v : Word) : Except Stop State :=
  match deviceAt s.devices i with
  | none => .error (.fault (.unmappedStore a))
  | some c => do
    let c' ← ofDevice (c.write off (v <<< laneShift a) (laneMask a w) s.freeNow)
    return { s.drawn 1 with devices := setDevice s.devices i c' }

/-- A read transfer on a data port: the value zero-extended, `none` where nothing is mapped (R68). -/
def busRead (s : State) (port : Region → Bool) (a : Word) (w : Width) : Except Stop (Option Word × State) :=
  match findRegion s.cfg port a with
  | none => .ok (none, s)
  | some r =>
    match r.kind with
    | .ram => .ok (some (readMem s.mem a w), s)
    | .rom => .ok (some (readMem s.mem a w), s)
    | .flash => .ok (some (readMem s.mem a w), s)
    | .device i => .ok (deviceRead s i (registerOffset r a) a w)
    | .unpublished => .error (.refusal (.unpublishedRegister a))

/-- A write transfer on a data port. Read-only memory ignores it (R343); a CFI flash takes it as a command (R531). -/
def busWrite (s : State) (port : Region → Bool) (a : Word) (w : Width) (v : Word) : Except Stop State :=
  match findRegion s.cfg port a with
  | none => .error (.fault (.unmappedStore a))
  | some r =>
    match r.kind with
    | .ram => .ok { s with mem := writeMem s.mem a w v }
    | .rom => .ok s
    | .flash => .error (.refusal (.flashCommand a))
    | .device i => deviceWrite s i (registerOffset r a) a w v
    | .unpublished => .error (.refusal (.unpublishedRegister a))

/-! ## The data cache (R86) -/

/-- The line an address selects: `a[k-1:2]`. -/
def dIndex (c : Config) (a : Word) : Nat := phys a % 2 ^ c.dcacheLog / 4

/-- The tag of an address: `a[30:k]`. -/
def dTag (c : Config) (a : Word) : Nat := phys a / 2 ^ c.dcacheLog

/-- The address a line holds: `tag : index : 0b00`. -/
def dLineAddr (c : Config) (tag index : Nat) : Word := BitVec.ofNat 32 (tag * 2 ^ c.dcacheLog + index * 4)

/-- The line that holds an address, on a hit. -/
def dHit (s : State) (a : Word) : Option DataLine :=
  (keyGet s.dcache (dIndex s.cfg a)).filter (fun l => l.tag == dTag s.cfg a)

/-- The line stored under the index of an address. -/
def setDLine (s : State) (a : Word) (l : DataLine) : State :=
  { s with dcache := keySet s.dcache (dIndex s.cfg a) l }

/-! ## The record of stores not yet visible to fetches (R82 to R84, U14; log 22) -/

/-- The words that stand at an aligned address: memory's, and that of a dirty line of the data cache on its way to memory. -/
def storedWords (s : State) (a : Word) : List Word :=
  match (dHit s a).filter (fun l => hasDCache s.cfg && l.dirty) with
  | some l => [l.data, readMem s.mem a .word]
  | none => [readMem s.mem a .word]

/-- No dirty line of the data cache stands before memory at a physical address. -/
def noDirtyLine (s : State) (p : Nat) : Bool :=
  !hasDCache s.cfg || ((dHit s (BitVec.ofNat 32 p)).all (fun l => !l.dirty))

/-- Step (1) of R84 is done for a recorded word: its stores went past the data cache or were written back, or no dirty line
stands before memory. -/
def memoryHolds (s : State) (e : StaleWord) : Bool := e.inMemory || noDirtyLine s e.addr

/-- The list of stale words with more older values for a word, of which it keeps one record; `done`: step (1) of R84 is done
for it. -/
def addStale (l : List StaleWord) (addr : Nat) (olds : List Word) (done : Bool) : List StaleWord :=
  ⟨addr, olds ++ (l.filter (fun e => e.addr == addr)).flatMap StaleWord.olds, done, false⟩ ::
    l.filter (fun e => e.addr != addr)

/-- A store to `a` is about to happen: fetches of its word may go on returning what stood there. Nothing is kept on a core that
holds no instruction back (R83: Nios II/e), nor for addresses the instruction master does not reach. -/
def noteStore (s : State) (a : Word) (done : Bool) : State :=
  if hasICache s.cfg && (findRegion s.cfg Region.instr a).isSome then
    { s with stale := addStale s.stale (phys (wordAddr a)) (storedWords s (wordAddr a)) done }
  else s

/-- A store on the bus does step (1) of R84 for its word: a whole word always, a part of it where what was stored to the word
before is in memory. -/
def storeSettles (s : State) (a : Word) (w : Width) : Bool :=
  w == .word || (s.stale.filter (fun e => e.addr == phys (wordAddr a))).all (memoryHolds s)

/-- A write transfer of a store, of a write-back or of another master, recorded for the fetches to come (R84, log 22). -/
def busStore (s : State) (port : Region → Bool) (a : Word) (w : Width) (v : Word) : Except Stop State :=
  busWrite (noteStore s a (storeSettles s a w)) port a w v

/-! ## Transfers between the data cache and memory (R86, R87) -/

/-- The write-back of a line: if it is dirty, its word goes to its own address (R86, R87). -/
def writeBack (s : State) (index : Nat) (l : DataLine) : Except Stop State :=
  if l.dirty then busStore s Region.data (dLineAddr s.cfg l.tag index) .word l.data else .ok s

/-- `evict` of R86: a valid dirty line is written back, and the line becomes invalid. -/
def evict (s : State) (index : Nat) : Except Stop State :=
  match keyGet s.dcache index with
  | none => .ok s
  | some l => (writeBack s index l).map (fun t => { t with dcache := keyErase t.dcache index })

/-- The word a line fill reads: a free value where nothing is mapped (U1). -/
def fillWord (s : State) (a : Word) : Except Stop (Word × State) := do
  let r ← busRead s Region.data (wordAddr a) .word
  match r.1 with
  | some v => return (v, r.2)
  | none => return (r.2.freeNow, r.2.drawn 1)

/-- A cached load of R86: the value zero-extended. -/
def cachedLoad (s : State) (a : Word) (w : Width) : Except Stop (Word × State) :=
  match dHit s a with
  | some l => .ok (selectLanes a w l.data, s)
  | none => do
    let s1 ← evict s (dIndex s.cfg a)
    let r ← fillWord s1 a
    return (selectLanes a w r.1, setDLine r.2 a ⟨dTag s.cfg a, false, r.1⟩)

/-- A cached store of R86. A word store that misses allocates the line without reading it (D18). It completes in the line
whatever lies at its address, and the bus takes or refuses the word when the line is written back (R77 (b)): that this holds of a
CFI flash, whose stores P22 refuses, and of unpublished registers as well is the model's choice (log 39). -/
def cachedStore (s : State) (a : Word) (w : Width) (v : Word) : Except Stop State :=
  match dHit s a with
  | some l => .ok (setDLine s a ⟨l.tag, true, mergeLanes a w v l.data⟩)
  | none => do
    let s1 ← evict s (dIndex s.cfg a)
    if w = .word then return setDLine s1 a ⟨dTag s.cfg a, true, v⟩
    else do
      let r ← fillWord s1 a
      return setDLine r.2 a ⟨dTag s.cfg a, true, mergeLanes a w v r.1⟩

/-! ## Fetch coherence (R82 to R84, U14; log 22) -/

/-- The line of the instruction cache an address selects: `a[k-1:5]` (R89). -/
def iIndex (c : Config) (p : Nat) : Nat := p % 2 ^ c.icacheLog / 32

/-- The tag of an address: `a[30:k]` (R89). -/
def iTag (c : Config) (p : Nat) : Nat := p / 2 ^ c.icacheLog

/-- The instruction-cache line of `a` becomes invalid (R90): step (2) of R84 for the words of that line. -/
def invalidateILine (s : State) (a : Word) : State :=
  if hasICache s.cfg then
    { s with
      icache := keyErase s.icache (iIndex s.cfg (phys a))
      stale := s.stale.map (fun e =>
        if iIndex s.cfg e.addr = iIndex s.cfg (phys a) ∧ memoryHolds s e then { e with lineFlushed := true }
        else e) }
  else s

/-- Prefetched instructions are discarded (R80): step (3) of R84. -/
def discardPrefetched (s : State) : State := { s with stale := s.stale.filter (fun e => !e.lineFlushed) }

/-! ## Loads and stores (R64, R70 to R72) -/

/-- The access does not go through the data cache: an `io` form, no data cache, or the bit-31 bypass (R70 to R72, log 19). -/
def bypasses (c : Config) (a : Word) (io : Bool) : Bool := io || !hasDCache c || a.getLsbD 31 == c.bit31Bypass

/-- The data of a load, zero-extended; `none`: the value is undefined (a misaligned address, U2; nothing mapped,
U1), and no access happens, cached or not. That a load past the cache returns memory's bytes and a cached one a line's, where
software mixes the two without a flush, which R91 forbids and U11 leaves to the model, is the model's choice (log 50). -/
def dataLoad (s : State) (a : Word) (w : Width) (io : Bool) : Except Stop (Option Word × State) :=
  if !aligned w a || !mapped s.cfg Region.data a then .ok (none, s)
  else if bypasses s.cfg a io then busRead s Region.data a w
  else do
    let r ← cachedLoad s a w
    return (some r.1, r.2)

/-- A store (R140, R151 to R156); a misaligned one and one to an address where nothing is mapped stop, cached or not (U1, U2).
That a store past the cache leaves a line for its address as it is, where software mixes cached and other accesses without a
flush, which R91 forbids and U11 leaves to the model, is the model's choice (log 50). -/
def dataStore (s : State) (a : Word) (w : Width) (v : Word) (io : Bool) : Except Stop State :=
  if !aligned w a then .error (.refusal (.misalignedStore a))
  else if !mapped s.cfg Region.data a then .error (.fault (.unmappedStore a))
  else if bypasses s.cfg a io then busStore s Region.data a w v
  else cachedStore (noteStore s a false) a w v

/-! ## Control registers (R29 to R36) -/

/-- The two defined bits as a register value: bits 31..2 read 0, and U reads 0 without user mode (R30, R36). -/
def statusWord (c : Config) (st : Status) : Word := bitAt 1 (st.u && c.hasUserMode) ||| bitAt 0 st.pie

/-- A value written to `status`, `estatus` or `bstatus` (R30 to R32, R36). -/
def statusOf (c : Config) (w : Word) : Status := ⟨w.getLsbD 1 && c.hasUserMode, w.getLsbD 0⟩

/-- A saved status as it comes back to `status`: U stays 0 without user mode (R30). -/
def restoredStatus (c : Config) (st : Status) : Status := ⟨st.u && c.hasUserMode, st.pie⟩

/-- The levels of the 32 interrupt request inputs (R39, R338). -/
def irq (s : State) : Word := (s.irqLines &&& s.cfg.irqOutside) ||| deviceIrqs s.devices

/-- `ipending` (R34). -/
def ipending (s : State) : Word := irq s &&& s.ienable

/-- The value of control register `n`; `none`: there is no such register (R29, R36). -/
def readControl (s : State) (n : Reg) : Option Word :=
  match n.toNat with
  | 0 => some (statusWord s.cfg s.status)
  | 1 => some (statusWord s.cfg s.estatus)
  | 2 => some (statusWord s.cfg s.bstatus)
  | 3 => some s.ienable
  | 4 => some (ipending s)
  | 5 => some s.cfg.cpuid
  | _ => none

/-- Control register `n` written (R29 to R36; U3, U4). -/
def writeControl (s : State) (n : Reg) (v : Word) : Except Stop State :=
  match n.toNat with
  | 0 => .ok { s with status := statusOf s.cfg v }
  | 1 => .ok { s with estatus := statusOf s.cfg v }
  | 2 => .ok { s with bstatus := statusOf s.cfg v }
  | 3 => .ok { s with ienable := v }
  | 4 => .error (.refusal .writeIpending)
  | 5 => .ok s
  | _ => .error (.refusal (.noSuchControlRegister n))

/-- User mode (R340, R360, R363). -/
def userMode (s : State) : Bool := s.status.u && s.cfg.hasUserMode

/-- `InterruptPending` (R336). -/
def interruptPending (s : State) : Bool := s.status.pie && ipending s != 0

/-! ## Control transfer, exceptions and breaks (R27, R334, R347, R350, R352) -/

/-- A transfer to an address, which must be a multiple of 4 (R27, U9). -/
def jumpTo (s : State) (a : Word) : Except Stop State :=
  if aligned .word a then .ok (s.setPc a) else .error (.refusal (.misalignedTarget a))

/-- `ExceptionEntry(ret)` (R334). -/
def exceptionEntry (s : State) (ret : Word) : State :=
  ({ s with estatus := s.status, status := ⟨false, false⟩ }.setReg 29#5 ret).setPc s.cfg.exceptionAddr

/-- `BreakEntry(ret)` (R350). -/
def breakEntry (s : State) (ret : Word) : State :=
  ({ s with bstatus := s.status, status := ⟨false, false⟩ }.setReg 30#5 ret).setPc s.cfg.breakAddr

/-- The return from an exception (R347). -/
def exceptionReturn (s : State) : Except Stop State :=
  jumpTo { s with status := restoredStatus s.cfg s.estatus } (s.reg 29#5)

/-- The return from a break (R352). -/
def breakReturn (s : State) : Except Stop State :=
  jumpTo { s with status := restoredStatus s.cfg s.bstatus } (s.reg 30#5)

/-- The exception of an instruction that cannot be carried out: `ea` is the following instruction (R340, R342; D15, D16). -/
def instructionException (s : State) : State := exceptionEntry s (s.pc + 4)

/-- One of the six restricted instructions: in user mode it raises the access violation, else it does `r` (R340). -/
def restricted (s : State) (r : Except Stop State) : Except Stop State :=
  if userMode s then .ok (instructionException s) else r

end Sys2Proof.Machine
end

