-- ==== Sys2Proof/Machine/Operands.lean ====
section
/-! DEFINITION. The operand forms (R69, R105): immediates, effective addresses, transfer targets, shift counts. -/

namespace Sys2Proof.Machine

/-- `sext_16(IMM16)` (R105). -/
def immSigned (imm : BitVec 16) : Word := imm.signExtend 32

/-- `0x0000 : IMM16` (R105). -/
def immUnsigned (imm : BitVec 16) : Word := imm.setWidth 32

/-- `IMM16 : 0x0000` (R105). -/
def immHigh (imm : BitVec 16) : Word := imm.setWidth 32 <<< 16

/-- The effective address of a memory instruction: `x[A] + sext_16(IMM16)` (R69). -/
def effAddr (s : State) (a : Reg) (imm : BitVec 16) : Word := s.reg a + immSigned imm

/-- The target of a taken branch: `pc + 4 + sext_16(IMM16)` (R27). -/
def branchTarget (s : State) (imm : BitVec 16) : Word := s.pc + 4 + immSigned imm

/-- The target of `call`: `pc[31:28] : IMM26 : 0b00` (R260). -/
def callTarget (s : State) (imm26 : BitVec 26) : Word := (s.pc &&& 0xf0000000) ||| (imm26.setWidth 32 <<< 2)

/-- The count of a shift or rotate by a register: its low five bits (R241 to R249). -/
def shiftCount (v : Word) : Nat := v.toNat % 32

end Sys2Proof.Machine
end

