-- ==== Sys2Proof/Machine/Debug.lean ====
section
/-! DEFINITION. The hardware triggers and the trace unit of the JTAG debug module (R351, R366 to R369; logs 47, 49). -/

namespace Sys2Proof.Machine

/-- The number of hardware execution breakpoints of the core (R366): none on the Nios II/e (R8, R369). -/
def triggerCapacity (c : Config) : Nat :=
  match c.core, c.debugLevel with
  | .economy, _ => 0
  | _, .level2 => 2
  | _, .level3 => 2
  | _, .level4 => 4
  | _, _ => 0

/-- The number of data triggers, which every core has by its debug level (R10, R366). -/
def dataTriggerCapacity (c : Config) : Nat :=
  match c.debugLevel with
  | .noDebug => 0
  | .level1 => 0
  | .level2 => 2
  | .level3 => 2
  | .level4 => 4

/-- A condition on a value that is present and a true range, which takes two hardware triggers (R367). -/
def isRange (r : Option (Word × Word)) : Bool :=
  match r with
  | none => false
  | some (lo, hi) => lo != hi

/-- How many hardware triggers a data trigger takes (R367). -/
def DataTrigger.cost (d : DataTrigger) : Nat := if isRange d.addrs || isRange d.values then 2 else 1

/-- The first data triggers of a list that fit in `n` hardware triggers. -/
def fittingTriggers (l : List DataTrigger) (n : Nat) : List DataTrigger :=
  match l with
  | [] => []
  | d :: t => if d.cost ≤ n then d :: fittingTriggers t (n - d.cost) else []

/-- The instruction-bus triggers that the instruction at `pc` activates (R351, R367). All 32 bits of the address count: the
model's choice (log 47). -/
def execHits (s : State) : List ExecTrigger :=
  (s.execTriggers.take (triggerCapacity s.cfg)).filter (fun e => e.addr == s.pc && (!e.needsArmed || s.armed))

/-- What a load or store asks of the data bus. -/
structure DataAccess where
  cycle : BusCycle
  addr : Word
  width : Width
  io : Bool
  /-- What a store writes. -/
  stored : Word
  deriving DecidableEq, Repr

/-- The access of a load. -/
def loadAccess (s : State) (a : Reg) (imm : BitVec 16) (w : Width) (io : Bool) : Option DataAccess :=
  some ⟨.read, effAddr s a imm, w, io, 0⟩

/-- The access of a store. -/
def storeAccess (s : State) (a b : Reg) (imm : BitVec 16) (w : Width) (io : Bool) : Option DataAccess :=
  some ⟨.write, effAddr s a imm, w, io, s.reg b &&& lowMask w.bits⟩

/-- The data access an instruction asks for, which triggers and trace look at: that of the 16 loads and stores. That the bus
cycles of the data cache, a write-back by `flushd` or in a miss and the fill of a line, activate no data trigger and are not
traced, which R298, R367 and R368 leave open, is the model's choice (log 47). -/
def dataAccess (s : State) (i : Instr) : Option DataAccess :=
  match i with
  | .ldw a _ imm => loadAccess s a imm .word false
  | .ldwio a _ imm => loadAccess s a imm .word true
  | .ldh a _ imm => loadAccess s a imm .half false
  | .ldhio a _ imm => loadAccess s a imm .half true
  | .ldhu a _ imm => loadAccess s a imm .half false
  | .ldhuio a _ imm => loadAccess s a imm .half true
  | .ldb a _ imm => loadAccess s a imm .byte false
  | .ldbio a _ imm => loadAccess s a imm .byte true
  | .ldbu a _ imm => loadAccess s a imm .byte false
  | .ldbuio a _ imm => loadAccess s a imm .byte true
  | .stw a b imm => storeAccess s a b imm .word false
  | .stwio a b imm => storeAccess s a b imm .word true
  | .sth a b imm => storeAccess s a b imm .half false
  | .sthio a b imm => storeAccess s a b imm .half true
  | .stb a b imm => storeAccess s a b imm .byte false
  | .stbio a b imm => storeAccess s a b imm .byte true
  | _ => none

/-- The value an access from state `s` moves, zero-extended; `none` where it does not take place (a misaligned address). -/
def DataAccess.value (x : DataAccess) (s : State) : Option Word :=
  if !aligned x.width x.addr then none
  else
    match x.cycle with
    | .write => some x.stored
    | .read =>
      match dataLoad s x.addr x.width x.io with
      | .ok (some v, _) => some v
      | .ok (none, t) => some (t.freeNow &&& lowMask x.width.bits)
      | .error _ => none

/-- A number lies in a range of addresses or values, where one is asked for. -/
def inRange (r : Option (Word × Word)) (n : Nat) : Bool :=
  match r with
  | none => true
  | some (lo, hi) => decide (lo.toNat ≤ n) && decide (n ≤ hi.toNat)

/-- One of the bytes of an access lies in a range of addresses, where one is asked for; the addresses of the bus count, without
bit 31 (the model's choice, log 47). -/
def DataAccess.touches (x : DataAccess) (r : Option (Word × Word)) : Bool :=
  (List.range x.width.bytes).any (fun k => inRange r (phys (x.addr + BitVec.ofNat 32 k)))

/-- All conditions of a data trigger hold of an access that moves the value `v` (R367). -/
def DataTrigger.matches (d : DataTrigger) (x : DataAccess) (v : Word) (armed : Bool) : Bool :=
  x.touches d.addrs && inRange d.values v.toNat &&
    (match d.cycle with
      | none => true
      | some c => c == x.cycle) && (!d.needsArmed || armed)

/-- The data-bus cycle of instruction `i` from state `s`, with the value it moves. -/
def dataCycle (s : State) (i : Instr) : Option (DataAccess × Word) :=
  match dataAccess s i with
  | none => none
  | some x => (x.value s).map (fun v => (x, v))

/-- The data triggers that the access of instruction `i` from state `s` activates (R367). -/
def dataHits (s : State) (i : Instr) : List DataTrigger :=
  match dataCycle s i with
  | none => []
  | some (x, v) => (fittingTriggers s.dataTriggers (dataTriggerCapacity s.cfg)).filter (fun d => d.matches x v s.armed)

/-- Instruction `i` from state `s` activates a trigger with the action `a`. -/
def triggers (s : State) (i : Instr) (a : TriggerAction) : Bool :=
  (dataHits s i).any (fun d => d.action == a) || (execHits s).any (fun e => e.action == a)

/-! ## Trace (R10, R366, R368; log 49) -/

/-- The size in frames of the buffer the host has chosen; `none`: the core has no such buffer (R10, R366, R369). Whether a core
of level 4 captures into both buffers at once the source does not say; into one at a time is the model's choice (log 49). -/
def traceCapacity (c : Config) (offChip : Bool) : Option Nat :=
  match c.core, c.debugLevel with
  | .economy, _ => none
  | _, .level3 => if offChip then none else some c.traceFrames
  | _, .level4 => some (if offChip then 131072 else c.traceFrames)
  | _, _ => none

/-- What data trace keeps of a data-bus cycle (R368). -/
def DataTrace.keep (m : DataTrace) (x : DataAccess) (v : Word) : List TraceRecord :=
  match m, x.cycle with
  | .loadAddr, .read => [.data .read (some x.addr) none]
  | .storeAddr, .write => [.data .write (some x.addr) none]
  | .bothAddr, c => [.data c (some x.addr) none]
  | .loadData, .read => [.data .read none (some v)]
  | .loadAddrData, .read => [.data .read (some x.addr) (some v)]
  | .storeAddrData, .write => [.data .write (some x.addr) (some v)]
  | .bothAddrData, c => [.data c (some x.addr) (some v)]
  | _, _ => []

/-- What the trace unit captures of instruction `i` from state `s`: the execution and data trace it is set to while it is on,
and a single sample of the data bus on a trigger (R367, R368). -/
def captured (s : State) (i : Instr) : List TraceRecord :=
  (if s.trace.on && s.trace.setup.execution then [.executed s.pc] else []) ++
    match dataCycle s i with
    | none => []
    | some (x, v) =>
      (if s.trace.on then s.trace.setup.data.keep x v else []) ++
        if (dataHits s i).any (fun d => d.action == .traceSample) then [.data x.cycle (some x.addr) (some v)] else []

/-- The youngest records of a list that fit in `cap` frames. -/
def fittingRecords (l : List TraceRecord) (cap : Nat) : List TraceRecord :=
  match l with
  | [] => []
  | r :: t => if Config.traceLength (r :: t) ≤ cap then r :: t else fittingRecords t cap

/-- A trace buffer of `cap` frames with the records `new` added: when they do not fit, the capture stops or the oldest records
go (R368). -/
def Trace.add (b : Trace) (cap : Nat) (new : List TraceRecord) : Trace :=
  if new = [] then b
  else if Config.traceLength (b.records ++ new) ≤ cap then { b with records := b.records ++ new }
  else if b.setup.stopWhenFull then { b with on := false }
  else { b with records := fittingRecords (b.records ++ new) cap }

/-- The trace unit `b` after instruction `i` from state `s`: what was captured is stored, then triggers switch it on or off
(R367, R368). -/
def Trace.after (b : Trace) (s : State) (i : Instr) : Trace :=
  match traceCapacity s.cfg b.setup.offChip with
  | none => b
  | some cap =>
    let c := b.add cap (captured s i)
    { c with on := (c.on || triggers s i .traceOn) && !triggers s i .traceOff }

/-- The state `t` after instruction `i` from state `s`, with what the debug module does: a data trigger with the break action
requests a hardware break for the next boundary, triggers with the arm action arm the armed ones, the trigger output follows
its triggers, the trace unit captures (R367, R368; logs 47, 49). -/
def fireTriggers (s : State) (i : Instr) (t : State) : State :=
  { t with
    hwBreak := t.hwBreak || (dataHits s i).any (fun d => d.action == .takeBreak)
    armed := t.armed || triggers s i .arm
    triggerOut := triggers s i .externalTrigger
    trace := t.trace.after s i }

/-- The outcome of instruction `i` from state `s` with what the triggers do to a next state. -/
def observed (i : Instr) (s : State) (o : Host.Outcome State Fault Refusal) : Host.Outcome State Fault Refusal :=
  match o with
  | .next t => .next (fireTriggers s i t)
  | .fault f => .fault f
  | .refused q => .refused q

end Sys2Proof.Machine
end

