-- ==== Sys2Proof/Machine/DmaEngine.lean ====
section
/-! DEFINITION. The transfers of the DMA controllers, each a second bus master with ports of its own (R450, R456, log 35).
They go past the processor's caches (R450), one bus transfer at a time, so that accesses of the processor fall between them. -/

namespace Sys2Proof.Machine

/-- The read master port of DMA controller number `i` reaches a region (R450). -/
def dmaReadPort (i : Nat) (r : Region) : Bool := r.dmaRead.contains i

/-- The write master port of DMA controller number `i` reaches a region (R450). -/
def dmaWritePort (i : Nat) (r : Region) : Bool := r.dmaWrite.contains i

/-- The peripheral a port finds at an address, with the offset of the register (R400). -/
def slaveAt (s : State) (port : Region → Bool) (a : Word) : Option (Core × Nat) :=
  match findRegion s.cfg port a with
  | some ⟨base, size, .device i, ins, dat, rd, wr, other⟩ =>
    (deviceAt s.devices i).map (fun c => (c, registerOffset ⟨base, size, .device i, ins, dat, rd, wr, other⟩ a))
  | _ => none

/-- The slave a port finds at an address lets a transfer of the kind `cycle` through (R497). -/
def slaveReady (s : State) (port : Region → Bool) (a : Word) (cycle : BusCycle) : Bool :=
  match slaveAt s port a with
  | some p => p.1.streamReady p.2 cycle
  | none => true

/-- The slave at an address signalled the end of a packet between the states `s` and `t` (R455); when a UART does so is the model's
choice (log 35). -/
def packetEnd (s t : State) (port : Region → Bool) (a : Word) : Bool :=
  match slaveAt s port a, slaveAt t port a with
  | some p, some q => endOfPacketSignal p.1 q.1
  | _, _ => false

/-- The registers of DMA controller number `i` changed by `f`. -/
def updateDma (s : State) (i : Nat) (f : Dma → Dma) : State :=
  match deviceAt s.devices i with
  | some (.dma d) => { s with devices := setDevice s.devices i (.dma (f d)) }
  | _ => s

/-- One bus transfer on the read port of controller number `i`, in units of `w` bytes, from `a` into the FIFO (R456); a free
value where nothing is mapped (U1). -/
def dmaRead (s : State) (i w : Nat) (a : Word) : Except Stop State := do
  let r ← busRead s (dmaReadPort i) a (unitTransfers w).1
  let v := match r.1 with
    | some v => v
    | none => r.2.freeNow
  return updateDma (r.2.drawn 1) i (Dma.afterRead · w v (packetEnd s r.2 (dmaReadPort i) a))

/-- One bus transfer on the write port of controller number `i`, in units of `w` bytes, of `v` to `a` (R456). -/
def dmaWrite (s : State) (i w : Nat) (a v : Word) : Except Stop State := do
  let t ← busStore s (dmaWritePort i) a (unitTransfers w).1 v
  return updateDma t i (Dma.afterWrite · w (packetEnd s t (dmaWritePort i) a))

/-- One clock cycle of the transaction of controller number `i`, which has the registers `d`, in units of `w` bytes: at most
one bus transfer. A port waits while its slave is not ready (R497); where both ports could act, which comes first is free:
"reads may run ahead of writes by the FIFO depth" (R456). -/
def dmaTransfer (s : State) (i : Nat) (d : Dma) (w : Nat) : Except Stop State :=
  let mayRead := d.canRead w && slaveReady s (dmaReadPort i) (d.nextRead w) .read
  let mayWrite := d.canWrite w && slaveReady s (dmaWritePort i) (d.nextWrite w) .write
  if mayRead && (!mayWrite || s.freeNow.getLsbD 0) then dmaRead (s.drawn 1) i w (d.nextRead w)
  else if mayWrite then dmaWrite (s.drawn 1) i w (d.nextWrite w) (d.fifo.headD 0)
  else .ok s

/-- One clock cycle of device number `i` as a bus master: an active DMA controller goes on with its transaction, which it sets
up first when it is a new one (R456). -/
def dmaCycle (s : State) (i : Nat) : Except Stop State :=
  match deviceAt s.devices i with
  | some (.dma d) =>
    if d.active then
      let e := d.begin s.freeNow
      dmaTransfer (updateDma (s.drawn 1) i (fun _ => e)) i e e.unit
    else .ok s
  | _ => .ok s

/-- Device number `i` is a DMA controller with a transaction to go on with. -/
def dmaActive (s : State) (i : Nat) : Bool :=
  match deviceAt s.devices i with
  | some (.dma d) => d.active
  | _ => false

/-- One clock cycle of the first `n` of the DMA controllers with the numbers of `l`, one after the other. Which of several comes
first is free: no fixed priority may be assumed (91_not_in_source.md, arbitration). -/
def dmaCycles (s : State) (n : Nat) (l : List Nat) : Except Stop State :=
  match n, l with
  | 0, _ => .ok s
  | _ + 1, [] => .ok s
  | _ + 1, [i] => dmaCycle s i
  | n + 1, i :: j :: t => do
    let k := s.freeNow.toNat % (i :: j :: t).length
    let u ← dmaCycle (s.drawn 1) ((i :: j :: t).getD k i)
    dmaCycles u n ((i :: j :: t).eraseIdx k)

/-- One clock cycle of the DMA controllers that are active at its beginning. -/
def dmaMasters (s : State) : Except Stop State :=
  let l := (List.range s.devices.length).filter (dmaActive s)
  dmaCycles s l.length l

end Sys2Proof.Machine
end

