-- ==== Sys2Proof/Machine/Boundary.lean ====
section
/-! DEFINITION. What happens between two instructions: the environment's events and the clock (D23, log 24), the system
reset (R560, log 29), the hardware break (R351) and the hardware interrupt (R336, R337), in the order of R344. -/

namespace Sys2Proof.Machine

/-! ## Events -/

/-- One system clock cycle of the peripherals: first every core but for bus transfers, then the transfers of the DMA controllers.
That the transfers come last is the model's choice (log 35). -/
def clockCycle (s : State) : Except Stop State :=
  let r := cycleCores s.devices s.freeCtr
  dmaMasters { s with
    devices := r.1
    resetReq := s.resetReq || r.2
    freeCtr := s.freeCtr + s.devices.length }

/-- `n` system clock cycles. All of them run, and the later events of the boundary too, when a watchdog asserts `resetrequest` in
one of them; the reset comes at the end of the boundary: the model's choice (log 29). -/
def clockCycles (s : State) (n : Nat) : Except Stop State :=
  match n with
  | 0 => .ok s
  | n + 1 => do
    let t ← clockCycle s
    clockCycles t n

/-- The device an event is meant for. -/
def EnvEvent.device : EnvEvent → Option Nat
  | .pioInput i _ => some i
  | .uartReceive i _ _ _ => some i
  | .uartBreak i => some i
  | .uartCts i _ => some i
  | .jtagSend i _ => some i
  | .jtagTake i => some i
  | .jtagIdle i _ => some i
  | .jtagPoll i => some i
  | .spiMiso i _ => some i
  | .spiSelect i => some i
  | .spiTransfer i _ => some i
  | .clock _ => none
  | .irqLines _ => none
  | .hwBreak => none
  | .triggers _ _ => none
  | .traceSetup _ _ => none
  | .traceRun _ => none
  | .systemReset => none
  | .otherWrite _ _ _ => none
  | .otherRead _ _ => none
  | .debugSession _ _ => none

/-- An event for a device. -/
def deviceEvent (s : State) (e : EnvEvent) : State :=
  match e.device with
  | none => s
  | some i =>
    match deviceAt s.devices i with
    | none => s
    | some c => { s.drawn 1 with devices := setDevice s.devices i (c.event e s.freeNow) }

/-- The debugger writes RAM: memory and a data-cache line that holds the address; the instructions it writes are what is
fetched next (R365 (b), log 27). -/
def editMemory (s : State) (a : Word) (w : Width) (v : Word) : State :=
  { s with
    mem := writeMem s.mem a w v
    icache := keyErase s.icache (iIndex s.cfg (phys a))
    dcache := match dHit s a with
      | some l => keySet s.dcache (dIndex s.cfg a) ⟨l.tag, l.dirty, mergeLanes a w v l.data⟩
      | none => s.dcache
    stale := s.stale.filter (fun e => e.addr != phys (wordAddr a)) }

/-- RAM that the data master reaches at an address. -/
def isRam (c : Config) (a : Word) : Bool :=
  match findRegion c Region.data a with
  | some r => r.kind == .ram
  | none => false

/-- One action of the debugger (R365). Memory and peripherals are reached through the data master, as a program in supervisor
mode reaches them past its caches; a misaligned access is not made (log 27). -/
def debugAction (s : State) (e : DebugAction) : Except Stop State :=
  match e with
  | .setReg r v => .ok (s.setReg r v)
  | .setControl n v => writeControl s n v
  | .read a w => if aligned w a then (busRead s Region.data a w).map Prod.snd else .ok s
  | .write a w v =>
    if !aligned w a then .ok s
    else if isRam s.cfg a then .ok (editMemory s a w v)
    else busWrite s Region.data a w v

/-- Actions of the debugger in order. -/
def debugActions (s : State) (l : List DebugAction) : Except Stop State :=
  match l with
  | [] => .ok s
  | e :: t => do
    let s1 ← debugAction s e
    debugActions s1 t

/-- A debugger session as one action, on a core with a JTAG debug module (R362, R365; log 27). -/
def debugSession (s : State) (acts : List DebugAction) (pc : Option Word) : Except Stop State :=
  if s.cfg.debugLevel = .noDebug then .ok s
  else (debugActions s acts).map (fun t => t.setPc ((pc.filter (aligned .word)).getD t.pc))

/-- One event of the environment. A further Avalon master (R75, R78) reaches the regions whose flag `other` says so, past the
processor's caches; that a misaligned access of it is not made, and that its write to an address where nothing is mapped stops
the step, is the model's choice (log 24). -/
def applyEvent (s : State) (e : EnvEvent) : Except Stop State :=
  match e with
  | .clock n => clockCycles s n
  | .irqLines v => .ok { s with irqLines := v }
  | .hwBreak => .ok { s with hwBreak := true }
  | .triggers exec data => .ok { s with execTriggers := exec, dataTriggers := data, armed := false }
  | .traceSetup setup on => .ok { s with trace := ⟨setup, on, []⟩ }
  | .traceRun on => .ok { s with trace := { s.trace with on := on } }
  | .systemReset => .ok { s with resetReq := true }
  | .otherWrite a w v => if aligned w a then busStore s Region.other a w v else .ok s
  | .otherRead a w => if aligned w a then (busRead s Region.other a w).map Prod.snd else .ok s
  | .debugSession acts pc => debugSession s acts pc
  | e => .ok (deviceEvent s e)

/-- Events in order. -/
def applyEvents (s : State) (l : List EnvEvent) : Except Stop State :=
  match l with
  | [] => .ok s
  | e :: t => do
    let s1 ← applyEvent s e
    applyEvents s1 t

/-- The events of the coming boundary: the head of the schedule, and one clock cycle when the schedule is used up. -/
def dueEvents (s : State) : List EnvEvent := s.env.headD [.clock 1]

/-- The state after the events of the coming boundary. A configuration that D1 does not allow is refused before any of them
(log 2). -/
def takeEvents (s : State) : Except Stop State :=
  if entriesLegal s.cfg then applyEvents { s with env := s.env.tail } (dueEvents s)
  else .error (.refusal .illegalConfiguration)

/-! ## System reset at run time (R560) -/

/-- Cache lines brought under line numbers below `n` and in order; of several for one number the first counts. -/
def normalLines {α : Type} (n : Nat) (l : List (Nat × α)) : List (Nat × α) :=
  match l with
  | [] => []
  | (k, v) :: t => keySet (normalLines n t) (k % n) v

/-- The general registers after a reset: register 0 is 0, the others are free (R45). -/
def resetRegs (n : Nat) : Vector Word 32 := Vector.ofFn (fun i => if i.val = 0 then 0 else Config.freeWord (n + i.val))

/-- `Reset()` of R560 on a running machine: everything R45 leaves undefined is free; memory keeps what had reached it, and
the environment and the debugger's requests, which are inputs, stay (log 29). R41 and R560 do not say how long the reset input
stays asserted: that doing the reset ends the request is the model's choice (log 29). Whether a reset can interrupt an instruction in progress, and
what memory then holds of a store in flight, the source does not state: that it comes between two instructions, every earlier
store whole, is the model's choice (log 29). -/
def systemReset (s : State) : State :=
  let n := s.freeCtr
  let lines := normalLines (2 ^ s.cfg.icacheLog / 32) (Config.freeInstrLines n)
  { s with
    regs := resetRegs n
    pc := s.cfg.resetAddr
    status := ⟨false, false⟩
    estatus := statusOf s.cfg (Config.freeWord (n + 32))
    bstatus := statusOf s.cfg (Config.freeWord (n + 33))
    ienable := Config.freeWord (n + 34)
    icache := if hasICache s.cfg then keyErase lines (iIndex s.cfg (phys s.cfg.resetAddr)) else []
    dcache := if hasDCache s.cfg then normalLines (2 ^ s.cfg.dcacheLog / 4) (Config.freeDataLines n) else []
    stale := []
    custom := Config.freeCustom n
    devices := resetCores s.devices (n + 35)
    resetReq := false
    freeCtr := n + 35 + resetDraws * s.devices.length }

/-! ## Which event comes first (R344) -/

/-- A hardware break is requested: by the host or a data trigger, or by a breakpoint on the instruction about to execute
(R351, R367). -/
def breakRequested (s : State) : Bool :=
  s.cfg.debugLevel != .noDebug &&
    (s.hwBreak || (execHits s).any (fun e => e.action == .takeBreak))

/-- What a step does. -/
inductive Action where
  | reset
  | hardwareBreak
  | interrupt
  | instruction
  deriving DecidableEq, Repr

/-- The choice at an instruction boundary: reset, then hardware break, then interrupt, then the instruction (R344, R560). That a
reset comes at a boundary only, never in the middle of an instruction, is the model's choice (log 29). -/
def nextAction (s : State) : Action :=
  if s.resetReq then .reset
  else if breakRequested s then .hardwareBreak
  else if interruptPending s then .interrupt
  else .instruction

/-- The hardware break before the instruction at `pc`: `ba` is `pc + 4` (R351, D20). R41 does not say how long the break signal
stays asserted: that taking the break ends the request is the model's choice (log 26). -/
def takeBreak (s : State) : State := breakEntry { s with hwBreak := false } (s.pc + 4)

/-- The hardware interrupt before the instruction at `pc`: `ea` is `pc + 4` (R337, D13). -/
def takeInterrupt (s : State) : State := exceptionEntry s (s.pc + 4)

end Sys2Proof.Machine
end

