-- ==== Sys2Proof/Machine/Flags.lean ====
section
/-! DEFINITION. The machine has no flags (R28). What stands in their place: the six relations that comparisons and branches
evaluate on two words (R210), and the 0 or 1 a comparison writes. -/

namespace Sys2Proof.Machine

/-- The relations of the comparison instructions and of the conditional branches. -/
inductive Rel where
  | eq
  | ne
  | ge
  | lt
  | geu
  | ltu
  deriving DecidableEq, Repr

/-- A relation evaluated: `ge` and `lt` on two's-complement values, `geu` and `ltu` on unsigned ones. -/
def Rel.holds (r : Rel) (a b : Word) : Bool :=
  match r with
  | .eq => a == b
  | .ne => a != b
  | .ge => b.sle a
  | .lt => a.slt b
  | .geu => b.ule a
  | .ltu => a.ult b

/-- The result of a comparison: "either 1 (if true) or 0" (R28). -/
def boolWord (b : Bool) : Word := if b then 1 else 0

end Sys2Proof.Machine
end

