-- ==== Sys2Proof/Machine/Arithmetic.lean ====
section
/-! DEFINITION. The arithmetic and logical instructions (R170 to R191). -/

namespace Sys2Proof.Machine

/-- `and`: bitwise AND (R170). -/
def execAnd (a b c : Reg) (s : State) : Host.Outcome State Fault Refusal :=
  .next (writeResult s c (s.reg a &&& s.reg b))

/-- `or`: bitwise OR (R171). -/
def execOr (a b c : Reg) (s : State) : Host.Outcome State Fault Refusal :=
  .next (writeResult s c (s.reg a ||| s.reg b))

/-- `xor`: bitwise exclusive OR (R172). -/
def execXor (a b c : Reg) (s : State) : Host.Outcome State Fault Refusal :=
  .next (writeResult s c (s.reg a ^^^ s.reg b))

/-- `nor`: bitwise NOT of OR (R173). -/
def execNor (a b c : Reg) (s : State) : Host.Outcome State Fault Refusal :=
  .next (writeResult s c (~~~(s.reg a ||| s.reg b)))

/-- `andi`: AND with the zero-extended immediate (R174). -/
def execAndi (a b : Reg) (imm : BitVec 16) (s : State) : Host.Outcome State Fault Refusal :=
  .next (writeResult s b (s.reg a &&& immUnsigned imm))

/-- `ori`: OR with the zero-extended immediate (R175). -/
def execOri (a b : Reg) (imm : BitVec 16) (s : State) : Host.Outcome State Fault Refusal :=
  .next (writeResult s b (s.reg a ||| immUnsigned imm))

/-- `xori`: exclusive OR with the zero-extended immediate (R176). -/
def execXori (a b : Reg) (imm : BitVec 16) (s : State) : Host.Outcome State Fault Refusal :=
  .next (writeResult s b (s.reg a ^^^ immUnsigned imm))

/-- `andhi`: AND with the immediate in the high half (R177). -/
def execAndhi (a b : Reg) (imm : BitVec 16) (s : State) : Host.Outcome State Fault Refusal :=
  .next (writeResult s b (s.reg a &&& immHigh imm))

/-- `orhi`: OR with the immediate in the high half (R178). -/
def execOrhi (a b : Reg) (imm : BitVec 16) (s : State) : Host.Outcome State Fault Refusal :=
  .next (writeResult s b (s.reg a ||| immHigh imm))

/-- `xorhi`: exclusive OR with the immediate in the high half (R179). -/
def execXorhi (a b : Reg) (imm : BitVec 16) (s : State) : Host.Outcome State Fault Refusal :=
  .next (writeResult s b (s.reg a ^^^ immHigh imm))

/-- `add`: sum modulo 2^32 (R180). -/
def execAdd (a b c : Reg) (s : State) : Host.Outcome State Fault Refusal :=
  .next (writeResult s c (s.reg a + s.reg b))

/-- `sub`: difference modulo 2^32 (R181). -/
def execSub (a b c : Reg) (s : State) : Host.Outcome State Fault Refusal :=
  .next (writeResult s c (s.reg a - s.reg b))

/-- `addi`: sum with the signed immediate (R185). -/
def execAddi (a b : Reg) (imm : BitVec 16) (s : State) : Host.Outcome State Fault Refusal :=
  .next (writeResult s b (s.reg a + immSigned imm))

/-- The high 32 bits of a 64-bit product. -/
def highHalf (p : BitVec 64) : Word := p.extractLsb' 32 32

/-- An instruction of the multiply and divide group: where the core does not implement it, the unimplemented-instruction
exception and nothing else (R192, R342). -/
def ifImplemented (implemented : Bool) (s t : State) : State := if implemented then t else instructionException s

/-- The quotient of `div` truncated toward zero, or the free value `x` where it is undefined: a zero divisor, and
-2147483648 by -1 (R183, U6, U7). -/
def signedQuotient (n d x : Word) : Word := if d = 0 ∨ (n = 0x80000000 ∧ d = 0xffffffff) then x else n.sdiv d

/-- The quotient of `divu`, or the free value `x` for a zero divisor (R184, U6). -/
def unsignedQuotient (n d x : Word) : Word := if d = 0 then x else n / d

/-- `mul`: low half of the product (R182). -/
def execMul (a b c : Reg) (s : State) : Host.Outcome State Fault Refusal :=
  .next (ifImplemented (mulImplemented s.cfg) s (writeResult s c (s.reg a * s.reg b)))

/-- `muli`: low half of the product with the signed immediate (R187). -/
def execMuli (a b : Reg) (imm : BitVec 16) (s : State) : Host.Outcome State Fault Refusal :=
  .next (ifImplemented (mulImplemented s.cfg) s (writeResult s b (s.reg a * immSigned imm)))

/-- `mulxss`: high half of the signed product (R188). -/
def execMulxss (a b c : Reg) (s : State) : Host.Outcome State Fault Refusal :=
  .next (ifImplemented (mulxImplemented s.cfg) s (writeResult s c (highHalf ((s.reg a).signExtend 64 * (s.reg b).signExtend 64))))

/-- `mulxuu`: high half of the unsigned product (R189). -/
def execMulxuu (a b c : Reg) (s : State) : Host.Outcome State Fault Refusal :=
  .next (ifImplemented (mulxImplemented s.cfg) s (writeResult s c (highHalf ((s.reg a).setWidth 64 * (s.reg b).setWidth 64))))

/-- `mulxsu`: high half of the product of signed `x[A]` and unsigned `x[B]` (R190). -/
def execMulxsu (a b c : Reg) (s : State) : Host.Outcome State Fault Refusal :=
  .next (ifImplemented (mulxImplemented s.cfg) s (writeResult s c (highHalf ((s.reg a).signExtend 64 * (s.reg b).setWidth 64))))

/-- `div`: signed quotient (R183). One free value is drawn, used or not (log 46). -/
def execDiv (a b c : Reg) (s : State) : Host.Outcome State Fault Refusal :=
  .next (ifImplemented (divImplemented s.cfg) s
    (writeResult (s.drawn 1) c (signedQuotient (s.reg a) (s.reg b) s.freeNow)))

/-- `divu`: unsigned quotient (R184). One free value is drawn, used or not (log 46). -/
def execDivu (a b c : Reg) (s : State) : Host.Outcome State Fault Refusal :=
  .next (ifImplemented (divImplemented s.cfg) s
    (writeResult (s.drawn 1) c (unsignedQuotient (s.reg a) (s.reg b) s.freeNow)))

end Sys2Proof.Machine
end

