-- ==== Sys2Proof/Machine/Comparison.lean ====
section
/-! DEFINITION. The comparison instructions (R211 to R222). -/

namespace Sys2Proof.Machine

/-- `cmpeq`: equal. -/
def execCmpeq (a b c : Reg) (s : State) : Host.Outcome State Fault Refusal :=
  .next (writeResult s c (boolWord (Rel.eq.holds (s.reg a) (s.reg b))))

/-- `cmpne`: not equal. -/
def execCmpne (a b c : Reg) (s : State) : Host.Outcome State Fault Refusal :=
  .next (writeResult s c (boolWord (Rel.ne.holds (s.reg a) (s.reg b))))

/-- `cmpge`: signed greater than or equal. -/
def execCmpge (a b c : Reg) (s : State) : Host.Outcome State Fault Refusal :=
  .next (writeResult s c (boolWord (Rel.ge.holds (s.reg a) (s.reg b))))

/-- `cmplt`: signed less than. -/
def execCmplt (a b c : Reg) (s : State) : Host.Outcome State Fault Refusal :=
  .next (writeResult s c (boolWord (Rel.lt.holds (s.reg a) (s.reg b))))

/-- `cmpgeu`: unsigned greater than or equal. -/
def execCmpgeu (a b c : Reg) (s : State) : Host.Outcome State Fault Refusal :=
  .next (writeResult s c (boolWord (Rel.geu.holds (s.reg a) (s.reg b))))

/-- `cmpltu`: unsigned less than. -/
def execCmpltu (a b c : Reg) (s : State) : Host.Outcome State Fault Refusal :=
  .next (writeResult s c (boolWord (Rel.ltu.holds (s.reg a) (s.reg b))))

/-- `cmpeqi`: equal to the signed immediate. -/
def execCmpeqi (a b : Reg) (imm : BitVec 16) (s : State) : Host.Outcome State Fault Refusal :=
  .next (writeResult s b (boolWord (Rel.eq.holds (s.reg a) (immSigned imm))))

/-- `cmpnei`: not equal to the signed immediate. -/
def execCmpnei (a b : Reg) (imm : BitVec 16) (s : State) : Host.Outcome State Fault Refusal :=
  .next (writeResult s b (boolWord (Rel.ne.holds (s.reg a) (immSigned imm))))

/-- `cmpgei`: signed greater than or equal to the signed immediate. -/
def execCmpgei (a b : Reg) (imm : BitVec 16) (s : State) : Host.Outcome State Fault Refusal :=
  .next (writeResult s b (boolWord (Rel.ge.holds (s.reg a) (immSigned imm))))

/-- `cmplti`: signed less than the signed immediate. -/
def execCmplti (a b : Reg) (imm : BitVec 16) (s : State) : Host.Outcome State Fault Refusal :=
  .next (writeResult s b (boolWord (Rel.lt.holds (s.reg a) (immSigned imm))))

/-- `cmpgeui`: unsigned greater than or equal to the zero-extended immediate. -/
def execCmpgeui (a b : Reg) (imm : BitVec 16) (s : State) : Host.Outcome State Fault Refusal :=
  .next (writeResult s b (boolWord (Rel.geu.holds (s.reg a) (immUnsigned imm))))

/-- `cmpltui`: unsigned less than the zero-extended immediate. -/
def execCmpltui (a b : Reg) (imm : BitVec 16) (s : State) : Host.Outcome State Fault Refusal :=
  .next (writeResult s b (boolWord (Rel.ltu.holds (s.reg a) (immUnsigned imm))))

end Sys2Proof.Machine
end

