-- ==== Sys2Proof/Machine/Custom.lean ====
section
/-! DEFINITION. The custom instructions (R320; logs 17, 18). -/

namespace Sys2Proof.Machine

/-- What a `custom` instruction presents to its logic (R320): an operand only where its read bit is set. -/
def customCall (s : State) (a b c : Reg) (readra readrb writerc : Bool) (n : BitVec 8) : CustomCall where
  n := n
  a := a
  b := b
  c := c
  readra := readra
  readrb := readrb
  writerc := writerc
  opA := if readra then some (s.reg a) else none
  opB := if readrb then some (s.reg b) else none

/-- `custom`: the custom function number N of the system; a number without logic is refused (R320, U8). -/
def execCustom (a b c : Reg) (readra readrb writerc : Bool) (n : BitVec 8) (s : State) : Host.Outcome State Fault Refusal :=
  if s.cfg.customPresent.contains n.toNat then
    let r := Config.customFn (customCall s a b c readra readrb writerc n) s.custom
    let t := { s with custom := r.2 }
    .next (if writerc then writeResult t c r.1 else t.advance)
  else .refused (.noSuchCustom n)

end Sys2Proof.Machine
end

