-- ==== Sys2Proof/Machine/DataTransfer.lean ====
section
/-! DEFINITION. The data-transfer instructions (R140 to R158). -/

namespace Sys2Proof.Machine

/-- The shape of every load: the value of the access extended to 32 bits goes to `x[B]`; where the access has no defined value
(U1, U2) a free one does. -/
def load (s : State) (a b : Reg) (imm : BitVec 16) (w : Width) (signed io : Bool) : Except Stop State := do
  let r ← dataLoad s (effAddr s a imm) w io
  match r.1 with
  | some v => return writeResult r.2 b (extend w signed v)
  | none => return writeResult (r.2.drawn 1) b r.2.freeNow

/-- The shape of every store: the low bytes of `x[B]` go to memory. -/
def store (s : State) (a b : Reg) (imm : BitVec 16) (w : Width) (io : Bool) : Except Stop State := do
  let t ← dataStore s (effAddr s a imm) w (s.reg b) io
  return t.advance

/-- `ldw`: load a word. -/
def execLdw (a b : Reg) (imm : BitVec 16) (s : State) : Host.Outcome State Fault Refusal :=
  finish (load s a b imm .word false false)

/-- `ldwio`: load a word, without caching. -/
def execLdwio (a b : Reg) (imm : BitVec 16) (s : State) : Host.Outcome State Fault Refusal :=
  finish (load s a b imm .word false true)

/-- `ldh`: load a halfword, sign-extended. -/
def execLdh (a b : Reg) (imm : BitVec 16) (s : State) : Host.Outcome State Fault Refusal :=
  finish (load s a b imm .half true false)

/-- `ldhio`: load a halfword, sign-extended, without caching. -/
def execLdhio (a b : Reg) (imm : BitVec 16) (s : State) : Host.Outcome State Fault Refusal :=
  finish (load s a b imm .half true true)

/-- `ldhu`: load a halfword, zero-extended. -/
def execLdhu (a b : Reg) (imm : BitVec 16) (s : State) : Host.Outcome State Fault Refusal :=
  finish (load s a b imm .half false false)

/-- `ldhuio`: load a halfword, zero-extended, without caching. -/
def execLdhuio (a b : Reg) (imm : BitVec 16) (s : State) : Host.Outcome State Fault Refusal :=
  finish (load s a b imm .half false true)

/-- `ldb`: load a byte, sign-extended. -/
def execLdb (a b : Reg) (imm : BitVec 16) (s : State) : Host.Outcome State Fault Refusal :=
  finish (load s a b imm .byte true false)

/-- `ldbio`: load a byte, sign-extended, without caching. -/
def execLdbio (a b : Reg) (imm : BitVec 16) (s : State) : Host.Outcome State Fault Refusal :=
  finish (load s a b imm .byte true true)

/-- `ldbu`: load a byte, zero-extended. -/
def execLdbu (a b : Reg) (imm : BitVec 16) (s : State) : Host.Outcome State Fault Refusal :=
  finish (load s a b imm .byte false false)

/-- `ldbuio`: load a byte, zero-extended, without caching. -/
def execLdbuio (a b : Reg) (imm : BitVec 16) (s : State) : Host.Outcome State Fault Refusal :=
  finish (load s a b imm .byte false true)

/-- `stw`: store a word. -/
def execStw (a b : Reg) (imm : BitVec 16) (s : State) : Host.Outcome State Fault Refusal :=
  finish (store s a b imm .word false)

/-- `stwio`: store a word, without caching. -/
def execStwio (a b : Reg) (imm : BitVec 16) (s : State) : Host.Outcome State Fault Refusal :=
  finish (store s a b imm .word true)

/-- `sth`: store a halfword. -/
def execSth (a b : Reg) (imm : BitVec 16) (s : State) : Host.Outcome State Fault Refusal :=
  finish (store s a b imm .half false)

/-- `sthio`: store a halfword, without caching. -/
def execSthio (a b : Reg) (imm : BitVec 16) (s : State) : Host.Outcome State Fault Refusal :=
  finish (store s a b imm .half true)

/-- `stb`: store a byte. -/
def execStb (a b : Reg) (imm : BitVec 16) (s : State) : Host.Outcome State Fault Refusal :=
  finish (store s a b imm .byte false)

/-- `stbio`: store a byte, without caching. -/
def execStbio (a b : Reg) (imm : BitVec 16) (s : State) : Host.Outcome State Fault Refusal :=
  finish (store s a b imm .byte true)

end Sys2Proof.Machine
end

