-- ==== Sys2Proof/Machine/OtherControl.lean ====
section
/-! DEFINITION. The other-control instructions (R290 to R303): trap, break, their returns, control registers, caches, pipeline. -/

namespace Sys2Proof.Machine

/-- `trap`: the software trap (R290, R341). -/
def execTrap (s : State) : Host.Outcome State Fault Refusal := .next (exceptionEntry s (s.pc + 4))

/-- `eret`: the return from an exception (R291). -/
def execEret (s : State) : Host.Outcome State Fault Refusal := finish (restricted s (exceptionReturn s))

/-- `break`: the break entry; the immediate is ignored (R292). -/
def execBreakpoint (_imm5 : BitVec 5) (s : State) : Host.Outcome State Fault Refusal := .next (breakEntry s (s.pc + 4))

/-- `bret`: the return from a break (R293). -/
def execBret (s : State) : Host.Outcome State Fault Refusal := finish (restricted s (breakReturn s))

/-- A control register read into `x[C]`; a register that does not exist reads as a free value (R296, U4, log 42). -/
def readControlInto (s : State) (c n : Reg) : State :=
  match readControl s n with
  | some v => writeResult s c v
  | none => writeResult (s.drawn 1) c s.freeNow

/-- `rdctl`: read a control register (R296). -/
def execRdctl (c n : Reg) (s : State) : Host.Outcome State Fault Refusal := finish (restricted s (.ok (readControlInto s c n)))

/-- `wrctl`: write a control register (R297). -/
def execWrctl (a n : Reg) (s : State) : Host.Outcome State Fault Refusal :=
  finish (restricted s ((writeControl s n (s.reg a)).map State.advance))

/-- The data-cache line of an address written back if dirty and made invalid; nothing without a data cache (R87). -/
def flushDLine (s : State) (a : Word) : Except Stop State :=
  if hasDCache s.cfg then evict s (dIndex s.cfg a) else .ok s

/-- The data-cache line of an address made invalid without a write-back; nothing without a data cache (R88). -/
def dropDLine (s : State) (a : Word) : State :=
  if hasDCache s.cfg then { s with dcache := keyErase s.dcache (dIndex s.cfg a) } else s

/-- `flushd`: flush a data-cache line (R87, R298). -/
def execFlushd (a : Reg) (imm : BitVec 16) (s : State) : Host.Outcome State Fault Refusal :=
  finish ((flushDLine s (effAddr s a imm)).map State.advance)

/-- `initd`: initialise a data-cache line (R88, R300). -/
def execInitd (a : Reg) (imm : BitVec 16) (s : State) : Host.Outcome State Fault Refusal :=
  finish (restricted s (.ok (dropDLine s (effAddr s a imm)).advance))

/-- `flushi`: flush an instruction-cache line (R90, R299). -/
def execFlushi (a : Reg) (s : State) : Host.Outcome State Fault Refusal := .next (invalidateILine s (s.reg a)).advance

/-- `initi`: initialise an instruction-cache line (R90, R301). -/
def execIniti (a : Reg) (s : State) : Host.Outcome State Fault Refusal :=
  finish (restricted s (.ok (invalidateILine s (s.reg a)).advance))

/-- `flushp`: flush the pipeline of prefetched instructions (R302). -/
def execFlushp (s : State) : Host.Outcome State Fault Refusal := .next (discardPrefetched s).advance

/-- `sync`: every access of this machine is complete when its instruction ends, so nothing but the pc changes (R79, R303,
D21). -/
def execSync (s : State) : Host.Outcome State Fault Refusal := .next s.advance

end Sys2Proof.Machine
end

