-- ==== Sys2Proof/Machine/ProgramControl.lean ====
section
/-! DEFINITION. The program-control instructions (R260 to R271). -/

namespace Sys2Proof.Machine

/-- The shape of every conditional branch (R265 to R270): not taken, on to the following instruction. -/
def branch (s : State) (r : Rel) (a b : Reg) (imm : BitVec 16) : Except Stop State :=
  if r.holds (s.reg a) (s.reg b) then jumpTo s (branchTarget s imm) else .ok s.advance

/-- The shape of `call` and `callr`: the target is known before `ra` is written (R260, R261, D26). -/
def callTo (s : State) (target : Word) : Except Stop State :=
  jumpTo (s.setReg 31#5 (s.pc + 4)) target

/-- `call`: absolute call inside the 256-Mbyte segment (R260). -/
def execCall (imm26 : BitVec 26) (s : State) : Host.Outcome State Fault Refusal := finish (callTo s (callTarget s imm26))

/-- `callr`: call through a register (R261). -/
def execCallr (a : Reg) (s : State) : Host.Outcome State Fault Refusal := finish (callTo s (s.reg a))

/-- `ret`: return to the address in `ra` (R262). -/
def execRet (s : State) : Host.Outcome State Fault Refusal := finish (jumpTo s (s.reg 31#5))

/-- `jmp`: jump through a register, which must not be r31 (R263, U10, D25). -/
def execJmp (a : Reg) (s : State) : Host.Outcome State Fault Refusal :=
  finish (if a = 31#5 then .error (.refusal .jumpThroughRa) else jumpTo s (s.reg a))

/-- `br`: branch always (R264). -/
def execBr (imm : BitVec 16) (s : State) : Host.Outcome State Fault Refusal := finish (jumpTo s (branchTarget s imm))

/-- `beq`: branch if equal. -/
def execBeq (a b : Reg) (imm : BitVec 16) (s : State) : Host.Outcome State Fault Refusal :=
  finish (branch s .eq a b imm)

/-- `bne`: branch if not equal. -/
def execBne (a b : Reg) (imm : BitVec 16) (s : State) : Host.Outcome State Fault Refusal :=
  finish (branch s .ne a b imm)

/-- `bge`: branch if signed greater than or equal. -/
def execBge (a b : Reg) (imm : BitVec 16) (s : State) : Host.Outcome State Fault Refusal :=
  finish (branch s .ge a b imm)

/-- `blt`: branch if signed less than. -/
def execBlt (a b : Reg) (imm : BitVec 16) (s : State) : Host.Outcome State Fault Refusal :=
  finish (branch s .lt a b imm)

/-- `bgeu`: branch if unsigned greater than or equal. -/
def execBgeu (a b : Reg) (imm : BitVec 16) (s : State) : Host.Outcome State Fault Refusal :=
  finish (branch s .geu a b imm)

/-- `bltu`: branch if unsigned less than. -/
def execBltu (a b : Reg) (imm : BitVec 16) (s : State) : Host.Outcome State Fault Refusal :=
  finish (branch s .ltu a b imm)

/-- `nextpc`: the address of the following instruction (R271). -/
def execNextpc (c : Reg) (s : State) : Host.Outcome State Fault Refusal := .next (writeResult s c (s.pc + 4))

end Sys2Proof.Machine
end

