-- ==== Sys2Proof/Machine/Shift.lean ====
section
/-! DEFINITION. The shift and rotate instructions (R241 to R249). -/

namespace Sys2Proof.Machine

/-- `rol`: rotate left by the low five bits of `x[B]`. -/
def execRol (a b c : Reg) (s : State) : Host.Outcome State Fault Refusal :=
  .next (writeResult s c ((s.reg a).rotateLeft (shiftCount (s.reg b))))

/-- `ror`: rotate right by the low five bits of `x[B]`. -/
def execRor (a b c : Reg) (s : State) : Host.Outcome State Fault Refusal :=
  .next (writeResult s c ((s.reg a).rotateRight (shiftCount (s.reg b))))

/-- `roli`: rotate left by IMM5. -/
def execRoli (a c : Reg) (imm5 : BitVec 5) (s : State) : Host.Outcome State Fault Refusal :=
  .next (writeResult s c ((s.reg a).rotateLeft imm5.toNat))

/-- `sll`: shift left by the low five bits of `x[B]`. -/
def execSll (a b c : Reg) (s : State) : Host.Outcome State Fault Refusal :=
  .next (writeResult s c (s.reg a <<< shiftCount (s.reg b)))

/-- `slli`: shift left by IMM5. -/
def execSlli (a c : Reg) (imm5 : BitVec 5) (s : State) : Host.Outcome State Fault Refusal :=
  .next (writeResult s c (s.reg a <<< imm5.toNat))

/-- `srl`: logical shift right by the low five bits of `x[B]`. -/
def execSrl (a b c : Reg) (s : State) : Host.Outcome State Fault Refusal :=
  .next (writeResult s c (s.reg a >>> shiftCount (s.reg b)))

/-- `srli`: logical shift right by IMM5. -/
def execSrli (a c : Reg) (imm5 : BitVec 5) (s : State) : Host.Outcome State Fault Refusal :=
  .next (writeResult s c (s.reg a >>> imm5.toNat))

/-- `sra`: arithmetic shift right by the low five bits of `x[B]`. -/
def execSra (a b c : Reg) (s : State) : Host.Outcome State Fault Refusal :=
  .next (writeResult s c ((s.reg a).sshiftRight (shiftCount (s.reg b))))

/-- `srai`: arithmetic shift right by IMM5. -/
def execSrai (a c : Reg) (imm5 : BitVec 5) (s : State) : Host.Outcome State Fault Refusal :=
  .next (writeResult s c ((s.reg a).sshiftRight imm5.toNat))

end Sys2Proof.Machine
end

