-- ==== Sys2Proof/Machine/Dispatch.lean ====
section
/-! DEFINITION. The meaning of every instruction: one arm per constructor of Instr. -/

namespace Sys2Proof.Machine

def exec (i : Instr) (s : State) : Host.Outcome State Fault Refusal :=
  match i with
  | .addi a b imm => Sys2Proof.Machine.execAddi a b imm s
  | .andi a b imm => Sys2Proof.Machine.execAndi a b imm s
  | .andhi a b imm => Sys2Proof.Machine.execAndhi a b imm s
  | .ori a b imm => Sys2Proof.Machine.execOri a b imm s
  | .orhi a b imm => Sys2Proof.Machine.execOrhi a b imm s
  | .xori a b imm => Sys2Proof.Machine.execXori a b imm s
  | .xorhi a b imm => Sys2Proof.Machine.execXorhi a b imm s
  | .muli a b imm => Sys2Proof.Machine.execMuli a b imm s
  | .cmpeqi a b imm => Sys2Proof.Machine.execCmpeqi a b imm s
  | .cmpnei a b imm => Sys2Proof.Machine.execCmpnei a b imm s
  | .cmpgei a b imm => Sys2Proof.Machine.execCmpgei a b imm s
  | .cmplti a b imm => Sys2Proof.Machine.execCmplti a b imm s
  | .cmpgeui a b imm => Sys2Proof.Machine.execCmpgeui a b imm s
  | .cmpltui a b imm => Sys2Proof.Machine.execCmpltui a b imm s
  | .br imm => Sys2Proof.Machine.execBr imm s
  | .beq a b imm => Sys2Proof.Machine.execBeq a b imm s
  | .bne a b imm => Sys2Proof.Machine.execBne a b imm s
  | .bge a b imm => Sys2Proof.Machine.execBge a b imm s
  | .blt a b imm => Sys2Proof.Machine.execBlt a b imm s
  | .bgeu a b imm => Sys2Proof.Machine.execBgeu a b imm s
  | .bltu a b imm => Sys2Proof.Machine.execBltu a b imm s
  | .ldb a b imm => Sys2Proof.Machine.execLdb a b imm s
  | .ldbu a b imm => Sys2Proof.Machine.execLdbu a b imm s
  | .ldh a b imm => Sys2Proof.Machine.execLdh a b imm s
  | .ldhu a b imm => Sys2Proof.Machine.execLdhu a b imm s
  | .ldw a b imm => Sys2Proof.Machine.execLdw a b imm s
  | .ldbio a b imm => Sys2Proof.Machine.execLdbio a b imm s
  | .ldbuio a b imm => Sys2Proof.Machine.execLdbuio a b imm s
  | .ldhio a b imm => Sys2Proof.Machine.execLdhio a b imm s
  | .ldhuio a b imm => Sys2Proof.Machine.execLdhuio a b imm s
  | .ldwio a b imm => Sys2Proof.Machine.execLdwio a b imm s
  | .stb a b imm => Sys2Proof.Machine.execStb a b imm s
  | .sth a b imm => Sys2Proof.Machine.execSth a b imm s
  | .stw a b imm => Sys2Proof.Machine.execStw a b imm s
  | .stbio a b imm => Sys2Proof.Machine.execStbio a b imm s
  | .sthio a b imm => Sys2Proof.Machine.execSthio a b imm s
  | .stwio a b imm => Sys2Proof.Machine.execStwio a b imm s
  | .flushd a imm => Sys2Proof.Machine.execFlushd a imm s
  | .initd a imm => Sys2Proof.Machine.execInitd a imm s
  | .call imm26 => Sys2Proof.Machine.execCall imm26 s
  | .add a b c => Sys2Proof.Machine.execAdd a b c s
  | .sub a b c => Sys2Proof.Machine.execSub a b c s
  | .and a b c => Sys2Proof.Machine.execAnd a b c s
  | .or a b c => Sys2Proof.Machine.execOr a b c s
  | .xor a b c => Sys2Proof.Machine.execXor a b c s
  | .nor a b c => Sys2Proof.Machine.execNor a b c s
  | .mul a b c => Sys2Proof.Machine.execMul a b c s
  | .mulxss a b c => Sys2Proof.Machine.execMulxss a b c s
  | .mulxsu a b c => Sys2Proof.Machine.execMulxsu a b c s
  | .mulxuu a b c => Sys2Proof.Machine.execMulxuu a b c s
  | .div a b c => Sys2Proof.Machine.execDiv a b c s
  | .divu a b c => Sys2Proof.Machine.execDivu a b c s
  | .cmpeq a b c => Sys2Proof.Machine.execCmpeq a b c s
  | .cmpne a b c => Sys2Proof.Machine.execCmpne a b c s
  | .cmpge a b c => Sys2Proof.Machine.execCmpge a b c s
  | .cmplt a b c => Sys2Proof.Machine.execCmplt a b c s
  | .cmpgeu a b c => Sys2Proof.Machine.execCmpgeu a b c s
  | .cmpltu a b c => Sys2Proof.Machine.execCmpltu a b c s
  | .sll a b c => Sys2Proof.Machine.execSll a b c s
  | .slli a c imm5 => Sys2Proof.Machine.execSlli a c imm5 s
  | .srl a b c => Sys2Proof.Machine.execSrl a b c s
  | .srli a c imm5 => Sys2Proof.Machine.execSrli a c imm5 s
  | .sra a b c => Sys2Proof.Machine.execSra a b c s
  | .srai a c imm5 => Sys2Proof.Machine.execSrai a c imm5 s
  | .rol a b c => Sys2Proof.Machine.execRol a b c s
  | .roli a c imm5 => Sys2Proof.Machine.execRoli a c imm5 s
  | .ror a b c => Sys2Proof.Machine.execRor a b c s
  | .callr a => Sys2Proof.Machine.execCallr a s
  | .ret => Sys2Proof.Machine.execRet s
  | .jmp a => Sys2Proof.Machine.execJmp a s
  | .nextpc c => Sys2Proof.Machine.execNextpc c s
  | .trap => Sys2Proof.Machine.execTrap s
  | .eret => Sys2Proof.Machine.execEret s
  | .breakpoint imm5 => Sys2Proof.Machine.execBreakpoint imm5 s
  | .bret => Sys2Proof.Machine.execBret s
  | .rdctl c n => Sys2Proof.Machine.execRdctl c n s
  | .wrctl a n => Sys2Proof.Machine.execWrctl a n s
  | .flushi a => Sys2Proof.Machine.execFlushi a s
  | .initi a => Sys2Proof.Machine.execIniti a s
  | .flushp => Sys2Proof.Machine.execFlushp s
  | .sync => Sys2Proof.Machine.execSync s
  | .custom a b c readra readrb writerc n => Sys2Proof.Machine.execCustom a b c readra readrb writerc n s

end Sys2Proof.Machine
end

