-- ==== Sys2Proof/Machine/Fetch.lean ====
section
/-! DEFINITION. Instruction fetch (R61, R63, R82 to R84, R89), and the placing of a word where the next fetch finds it. -/

namespace Sys2Proof.Machine

/-- The aligned 32-byte block of an address as memory holds it (R89). -/
def blockWords (m : List Host.Cell) (a : Word) : Vector Word 8 :=
  let b := a &&& 0xffffffe0
  #v[readMem m b .word, readMem m (b + 4) .word, readMem m (b + 8) .word, readMem m (b + 12) .word,
    readMem m (b + 16) .word, readMem m (b + 20) .word, readMem m (b + 24) .word, readMem m (b + 28) .word]

/-- `a[4:2]` (R89). -/
def blockOffset (a : Word) : BitVec 3 := a.extractLsb' 2 3

/-- A fetch through the instruction cache: a hit returns the cached word, a miss fills the line (R89). -/
def cachedFetch (s : State) (a : Word) : Word × State :=
  match (keyGet s.icache (iIndex s.cfg (phys a))).filter (fun l => l.tag == iTag s.cfg (phys a)) with
  | some l => (l.words[(blockOffset a).toNat]'(blockOffset a).isLt, s)
  | none =>
    (readMem s.mem a .word,
      { s with icache := keySet s.icache (iIndex s.cfg (phys a)) ⟨iTag s.cfg (phys a), blockWords s.mem a⟩ })

/-- The word that the caches and memory give (R63). -/
def plainFetch (s : State) (a : Word) : Word × State :=
  if hasICache s.cfg then cachedFetch s a else (readMem s.mem a .word, s)

/-- One of the candidates, chosen by a free word. -/
def choose (l : List Word) (x : Word) : Word := l.getD (x.toNat % l.length) 0

/-- A fetch of a word that was stored to without the whole sequence of R84 returns one of the words it may still be seen as
(U14, log 22). -/
def fetchOf (s : State) (a : Word) : Word × State :=
  let r := plainFetch s a
  match s.stale.find? (fun e => e.addr == phys a) with
  | none => r
  | some e => (choose (r.1 :: storedWords s a ++ e.olds) s.freeNow, r.2.drawn 1)

/-- `Fetch(pc)` (R63, R65, R68). -/
def fetch (s : State) : Except Stop (Word × State) :=
  if !aligned .word s.pc then .error (.refusal (.misalignedFetch s.pc))
  else if instrMemory s.cfg s.pc then .ok (fetchOf s s.pc)
  else .error (.fault (.unmappedFetch s.pc))

/-- `w` stored where the next fetch finds it, and nothing in the way of that fetch: the word in memory at `pc`, its
instruction-cache line invalid, nothing stale about it, no event, reset, hardware break or breakpoint at the coming boundary (log 41). -/
def placeWord (s : State) (w : Word) : State :=
  { s with
    mem := writeMem s.mem s.pc .word w
    icache := keyErase s.icache (iIndex s.cfg (phys s.pc))
    stale := s.stale.filter (fun e => e.addr != phys s.pc)
    env := [] :: s.env
    hwBreak := false
    execTriggers := s.execTriggers.filter (fun e => e.addr != s.pc)
    resetReq := false }

end Sys2Proof.Machine
end

