-- ==== Sys2Proof/Machine/Step.lean ====
section
/-! DEFINITION. One step: the events of the boundary, then a reset, a hardware break, a hardware interrupt or one
instruction (R337, R344). -/

namespace Sys2Proof.Machine

/-- Fetch, decode (R109, R111) and execute, under the eyes of the hardware triggers (R367). -/
def runInstruction (s : State) : Host.Outcome State Fault Refusal :=
  match fetch s with
  | .error e => finish (.error e)
  | .ok r =>
    match decodeWord r.1 with
    | .error _ => .refused (.reservedEncoding r.1)
    | .ok i => observed i r.2 (exec i r.2)

/-- One step of the machine. -/
def step (s : State) : Host.Outcome State Fault Refusal :=
  match takeEvents s with
  | .error e => finish (.error e)
  | .ok t =>
    match nextAction t with
    | .reset => .next (systemReset t)
    | .hardwareBreak => .next (takeBreak t)
    | .interrupt => .next (takeInterrupt t)
    | .instruction => runInstruction t

/-- `s` with the instruction whose bits are `w` where `step` fetches its next instruction (log 41). -/
def State.withFetchWord (s : State) (_nbits w : Nat) : State := placeWord s (BitVec.ofNat 32 w)

end Sys2Proof.Machine
end

