-- ==== Sys2Proof/WellFormed.lean ====
section
/-! DEFINITION. Well-formed instructions: what the spec requires of a legal instruction beyond the widths of its fields,
which the types of Syntax.lean already fix. -/

namespace Sys2Proof

/-- A branch offset is legal when its two least-significant bits are zero (R27, R277). -/
def branchOffsetOk (imm : BitVec 16) : Bool := imm.extractLsb' 0 2 == 0#2

/-- The spec's legality of an instruction: branch offsets are multiples of 4 (R277), `jmp` does not name r31 (R263),
`rdctl` and `wrctl` name one of the six control registers (R29, R36), `wrctl` does not write `ipending` (R34). -/
def Instr.wf : Instr → Bool
  | .br imm => branchOffsetOk imm
  | .beq _ _ imm => branchOffsetOk imm
  | .bne _ _ imm => branchOffsetOk imm
  | .bge _ _ imm => branchOffsetOk imm
  | .blt _ _ imm => branchOffsetOk imm
  | .bgeu _ _ imm => branchOffsetOk imm
  | .bltu _ _ imm => branchOffsetOk imm
  | .jmp a => a != 31#5
  | .rdctl _ n => n.toNat ≤ 5
  | .wrctl _ n => n.toNat ≤ 5 && n != 4#5
  | .addi _ _ _ | .andi _ _ _ | .andhi _ _ _ | .ori _ _ _ | .orhi _ _ _ | .xori _ _ _ | .xorhi _ _ _ | .muli _ _ _
  | .cmpeqi _ _ _ | .cmpnei _ _ _ | .cmpgei _ _ _ | .cmplti _ _ _ | .cmpgeui _ _ _ | .cmpltui _ _ _
  | .ldb _ _ _ | .ldbu _ _ _ | .ldh _ _ _ | .ldhu _ _ _ | .ldw _ _ _
  | .ldbio _ _ _ | .ldbuio _ _ _ | .ldhio _ _ _ | .ldhuio _ _ _ | .ldwio _ _ _
  | .stb _ _ _ | .sth _ _ _ | .stw _ _ _ | .stbio _ _ _ | .sthio _ _ _ | .stwio _ _ _
  | .flushd _ _ | .initd _ _ | .call _
  | .add _ _ _ | .sub _ _ _ | .and _ _ _ | .or _ _ _ | .xor _ _ _ | .nor _ _ _
  | .mul _ _ _ | .mulxss _ _ _ | .mulxsu _ _ _ | .mulxuu _ _ _ | .div _ _ _ | .divu _ _ _
  | .cmpeq _ _ _ | .cmpne _ _ _ | .cmpge _ _ _ | .cmplt _ _ _ | .cmpgeu _ _ _ | .cmpltu _ _ _
  | .sll _ _ _ | .slli _ _ _ | .srl _ _ _ | .srli _ _ _ | .sra _ _ _ | .srai _ _ _
  | .rol _ _ _ | .roli _ _ _ | .ror _ _ _
  | .callr _ | .ret | .nextpc _ | .trap | .eret | .breakpoint _ | .bret
  | .flushi _ | .initi _ | .flushp | .sync | .custom _ _ _ _ _ _ _ => true

end Sys2Proof
end

