-- ==== Sys2Proof/Pseudo.lean ====
section
/-! DEFINITION. The assembler layer: register names, immediate macros and pseudo-instructions (R22, R114 to R117, R200 to
R204, R223 to R230, R272 to R275, R321). It is resolved before a program is in memory (R117): the machine does not read
this file. A pseudo-instruction "is exactly its expansion" (R114), a list of machine instructions. -/

namespace Sys2Proof.Asm

/-- The names of the registers that the assembler recognises (R22); the registers it gives no name have none here. -/
inductive RegName where
  | zero | at | et | bt | gp | sp | fp | ea | ba | ra
  deriving DecidableEq, Repr

/-- The register a name stands for (R22). -/
def RegName.reg : RegName → Reg
  | .zero => 0
  | .at => 1
  | .et => 24
  | .bt => 25
  | .gp => 26
  | .sp => 27
  | .fp => 28
  | .ea => 29
  | .ba => 30
  | .ra => 31

/-- `%lo` (R116): bits 15..0. -/
def lo (v : Word) : BitVec 16 := v.extractLsb' 0 16

/-- `%hi` (R116): bits 31..16. -/
def hi (v : Word) : BitVec 16 := v.extractLsb' 16 16

/-- `%hiadj` (R116, 90_conflicts.md C12): bits 31..16 plus bit 15, so that `orhi` then a signed `addi` of `%lo` gives `v`. -/
def hiadj (v : Word) : BitVec 16 := hi v + (v.extractLsb' 15 1).zeroExtend 16

/-- `%gprel` (R116): the offset from the global pointer value `gp`, as the 16 bits placed in `IMM16`. The
source gives the assembler no behaviour for an offset that does not fit 16 bits: that it is cut to its low 16 bits is the model's
choice (log 51). -/
def gprel (gp v : Word) : BitVec 16 := lo (v - gp)

/-- The 19 pseudo-instructions of R114, operands in the order of the assembler syntax. An immediate is the number written
in the source line; a branch offset is the `IMM16` that the assembler computes from the label. -/
inductive Pseudo where
  | bgt (ra rb : Reg) (offset : BitVec 16)
  | bgtu (ra rb : Reg) (offset : BitVec 16)
  | ble (ra rb : Reg) (offset : BitVec 16)
  | bleu (ra rb : Reg) (offset : BitVec 16)
  | cmpgt (rc ra rb : Reg)
  | cmpgtu (rc ra rb : Reg)
  | cmple (rc ra rb : Reg)
  | cmpleu (rc ra rb : Reg)
  | cmpgti (rb ra : Reg) (immed : Int)
  | cmpgtui (rb ra : Reg) (immed : Int)
  | cmplei (rb ra : Reg) (immed : Int)
  | cmpleui (rb ra : Reg) (immed : Int)
  | mov (rc ra : Reg)
  | movhi (rb : Reg) (immed : Int)
  | movi (rb : Reg) (immed : Int)
  | movui (rb : Reg) (immed : Int)
  | movia (rb : Reg) (label : Word)
  | nop
  | subi (rb ra : Reg) (immed : Int)
  deriving DecidableEq, Repr

/-- The operands the assembler accepts (R115; branch offsets R277). -/
def Pseudo.accepted : Pseudo → Bool
  | .cmpgti _ _ n | .cmplei _ _ n => -32769 ≤ n && n ≤ 32766
  | .cmpgtui _ _ n | .cmpleui _ _ n => 0 ≤ n && n ≤ 65534
  | .movi _ n => -32768 ≤ n && n ≤ 32767
  | .movui _ n | .movhi _ n => 0 ≤ n && n ≤ 65535
  | .subi _ _ n => -32767 ≤ n && n ≤ 32768
  | .bgt _ _ off | .bgtu _ _ off | .ble _ _ off | .bleu _ _ off => branchOffsetOk off
  | .cmpgt .. | .cmpgtu .. | .cmple .. | .cmpleu .. | .mov .. | .movia .. | .nop => true

/-- The machine instructions a pseudo-instruction stands for (R114, with C13 and C14 of 90_conflicts.md). -/
def Pseudo.expand : Pseudo → List Instr
  | .bgt ra rb off => [.blt rb ra off]
  | .bgtu ra rb off => [.bltu rb ra off]
  | .ble ra rb off => [.bge rb ra off]
  | .bleu ra rb off => [.bgeu rb ra off]
  | .cmpgt rc ra rb => [.cmplt rb ra rc]
  | .cmpgtu rc ra rb => [.cmpltu rb ra rc]
  | .cmple rc ra rb => [.cmpge rb ra rc]
  | .cmpleu rc ra rb => [.cmpgeu rb ra rc]
  | .cmpgti rb ra n => [.cmpgei ra rb (BitVec.ofInt 16 (n + 1))]
  | .cmpgtui rb ra n => [.cmpgeui ra rb (BitVec.ofInt 16 (n + 1))]
  | .cmplei rb ra n => [.cmplti ra rb (BitVec.ofInt 16 (n + 1))]
  | .cmpleui rb ra n => [.cmpltui ra rb (BitVec.ofInt 16 (n + 1))]
  | .mov rc ra => [.add ra 0 rc]
  | .movhi rb n => [.orhi 0 rb (BitVec.ofInt 16 n)]
  | .movi rb n => [.addi 0 rb (BitVec.ofInt 16 n)]
  | .movui rb n => [.ori 0 rb (BitVec.ofInt 16 n)]
  | .movia rb v => [.orhi 0 rb (hiadj v), .addi rb rb (lo v)]
  | .nop => [.add 0 0 0]
  | .subi rb ra n => [.addi ra rb (BitVec.ofInt 16 (-n))]

/-- The words of a pseudo-instruction in memory (R114). -/
def Pseudo.words (p : Pseudo) : List Word := p.expand.map encode

end Sys2Proof.Asm
end

