-- ==== Sys2Proof/Abi.lean ====
section
/-! DEFINITION. The application binary interface (R25, R282 to R286): conventions of compiled code over the machine. "It is not
enforced by hardware" (R25): no step reads this file; it states what a function may assume and has to keep. -/

namespace Sys2Proof.Abi

open Sys2Proof Sys2Proof.Machine Sys2Proof.Asm

/-- The data types of R282; a signed integer type and its unsigned type are two. -/
inductive CType where
  | char | unsignedChar | short | unsignedShort | int | unsignedInt | long | unsignedLong
  | float | double | pointer | longLong | unsignedLongLong
  deriving DecidableEq, Repr

/-- Size in bytes (R282). -/
def CType.size : CType → Nat
  | .char | .unsignedChar => 1
  | .short | .unsignedShort => 2
  | .int | .unsignedInt | .long | .unsignedLong | .float | .pointer => 4
  | .double | .longLong | .unsignedLongLong => 8

/-- How the bits of a type are read (R282). -/
inductive Representation where
  | twosComplement | binary | ieee
  deriving DecidableEq, Repr

/-- The representation column of R282. -/
def CType.representation : CType → Representation
  | .char | .short | .int | .long | .longLong => .twosComplement
  | .unsignedChar | .unsignedShort | .unsignedInt | .unsignedLong | .pointer | .unsignedLongLong => .binary
  | .float | .double => .ieee

/-- The least alignment of a data element: its size, and a larger one than 32 bits only 32 bits (R282). -/
def CType.alignment (t : CType) : Nat := min t.size 4

/-- What is aligned as a whole (R282). -/
inductive Block where
  | struct
  | union
  | string
  | bitField
  | function
  deriving DecidableEq, Repr

/-- Their least alignment in bytes: "Structures, unions, and strings must be aligned to a minimum of 32 bits. Bit-fields inside
structures are always 32-bit aligned", and a function to a 32-bit boundary (R282). -/
def Block.alignment : Block → Nat
  | .struct => 4
  | .union => 4
  | .string => 4
  | .bitField => 4
  | .function => 4

/-- The bytes of a value in memory, lowest address first: the upper 8 bits stand at the higher address (R282). -/
def valueBytes (size v : Nat) : List Byte := (List.range size).map (fun k => BitVec.ofNat 8 (v >>> (8 * k)))

/-- The registers that compiled code uses (R25, R286). -/
def usedByCompiler (r : Reg) : Bool :=
  r == RegName.zero.reg || (2#5 ≤ r && r ≤ 23#5) || [RegName.gp, .sp, .fp, .ra].any (·.reg == r)

/-- r16 to r23 (R25, 90_conflicts.md C22). -/
def calleeSaved (r : Reg) : Bool := 16#5 ≤ r && r ≤ 23#5

/-- What a function keeps from its entry to its return: "The function must restore the register's original value before
exiting" (R25). -/
def calleeSavedKept (entry exit : State) : Bool :=
  (List.range 32).all (fun r => !calleeSaved (BitVec.ofNat 5 r) || entry.reg (BitVec.ofNat 5 r) == exit.reg (BitVec.ofNat 5 r))

/-- "The ABI requires the stack pointer be 32-bit aligned at all times" (R283). -/
def stackAligned (s : State) : Bool := (s.reg RegName.sp.reg).extractLsb' 0 2 == 0#2

/-! ## Arguments (R284) -/

/-- One argument: what it has to be aligned to, and its bytes as they lie in memory, the lowest address first. -/
structure Argument where
  alignment : Nat
  bytes : List Byte
  deriving DecidableEq, Repr

/-- An argument of one of the types of R282, with the bits of its value. -/
def Argument.scalar (t : CType) (v : Nat) : Argument := ⟨t.alignment, valueBytes t.size v⟩

/-- A structure or union passed by value (R282, R284). -/
def Argument.aggregate (bytes : List Byte) : Argument := ⟨Block.struct.alignment, bytes⟩

/-- The least multiple of `a` that is not below `n`. -/
def roundUp (n a : Nat) : Nat := (n + a - 1) / a * a

/-- The members of a structure from the offset `off` on, each at the next offset its alignment allows (R282): every byte with
its offset. Bytes that only pad are not there. -/
def structBytes (off : Nat) (args : List Argument) : List (Nat × Byte) :=
  match args with
  | [] => []
  | a :: t =>
    let o := roundUp off a.alignment
    a.bytes.mapIdx (fun k b => (o + k, b)) ++ structBytes (o + a.bytes.length) t

/-- "The arguments are passed as if a structure containing the types of the arguments was constructed" (R284): the bytes of
that structure. A result of more than 8 bytes has its address as "a hidden zero argument" before the others. -/
def argumentBytes (resultSize : Nat) (resultAddr : Word) (args : List Argument) : List (Nat × Byte) :=
  structBytes 0 (if 8 < resultSize then .scalar .pointer resultAddr.toNat :: args else args)

/-- Where the words of that structure are passed: "the first 16-bytes of the structure are located in r4 through r7" (R284), the
rest with the caller's outgoing arguments; no register for a word of the rest. -/
def argumentRegister (word : Nat) : Option Reg := if word < 4 then some (BitVec.ofNat 5 (4 + word)) else none

/-- The address of the byte at offset `off` past the first 16: the outgoing arguments lie at the bottom of the caller's frame
(R284); that they begin at its SP is the model's choice (log 48). -/
def outgoingAddr (s : State) (off : Nat) : Word := s.reg RegName.sp.reg + BitVec.ofNat 32 (off - 16)

/-- One byte of the structure put in its place, in a register, little endian as in memory, or on the stack (R284). -/
def passByte (s : State) (p : Nat × Byte) : Except Stop State :=
  let v : Word := p.2.setWidth 32
  match argumentRegister (p.1 / 4) with
  | some r => .ok (s.setReg r (mergeLanes (BitVec.ofNat 32 p.1) .byte v (s.reg r)))
  | none => dataStore s (outgoingAddr s p.1) .byte v false

/-- The arguments of a call put in their places (R284). -/
def passBytes (s : State) (l : List (Nat × Byte)) : Except Stop State :=
  match l with
  | [] => .ok s
  | p :: t => do
    let u ← passByte s p
    passBytes u t

/-- The byte at offset `off` of the structure as the called function finds it at its entry; `none` where a load of it has no
value. -/
def argumentByte (s : State) (off : Nat) : Option Byte :=
  match argumentRegister (off / 4) with
  | some r => some ((selectLanes (BitVec.ofNat 32 off) .byte (s.reg r)).setWidth 8)
  | none =>
    match dataLoad s (outgoingAddr s off) .byte false with
    | .ok r => r.1.map (·.setWidth 8)
    | .error _ => none

/-- What a called function may assume at its entry: its arguments are passed as R284 says. -/
def argumentsPassed (s : State) (l : List (Nat × Byte)) : Bool := l.all (fun p => argumentByte s p.1 == some p.2)

/-- The registers of a return value, least-significant word first; more than 8 bytes go to memory through a hidden pointer
that is argument word 0 (R25, R284). -/
def returnRegisters (size : Nat) : Option (List Reg) :=
  if size ≤ 4 then some [2] else if size ≤ 8 then some [2, 3] else none

/-- The order in which registers are saved, from high addresses (R283). -/
def saveOrder : List Reg :=
  [RegName.ra.reg, RegName.fp.reg] ++ (List.range 24).map (fun k => BitVec.ofNat 5 (k + 2)) ++ [RegName.gp.reg, RegName.sp.reg]

/-- What decides the prolog and the epilog of a function (R283 to R285). -/
structure Function where
  /-- Bytes of stack temporaries. -/
  temporaries : Nat
  /-- Bytes of outgoing arguments. -/
  outgoing : Nat
  /-- The registers it saves; a leaf function does not save `ra`. -/
  saved : Reg → Bool
  /-- The frame pointer is in use. -/
  framePointer : Bool
  /-- It takes variable arguments. -/
  variadic : Bool
  /-- It calls `alloca()`. -/
  callsAlloca : Bool
  /-- The extra temporary register of a frame larger than 32767 bytes. -/
  temp : Reg

/-- "the Nios II C/C++ compiler maintains a frame pointer for any function that calls alloca()" (R284). -/
def Function.usesFp (f : Function) : Bool := f.framePointer || f.callsAlloca

/-- Size of the frame in bytes, without the 16 bytes of variable arguments: "Each section of the current frame is aligned to a
32-bit boundary" (R283). -/
def Function.frame (f : Function) : Nat :=
  roundUp f.outgoing 4 + roundUp f.temporaries 4 + 4 * (saveOrder.filter f.saved).length

/-- "functions that take variable arguments will allocate 16 extra bytes of storage on the stack" (R284). -/
def Function.stackBytes (f : Function) : Nat := f.frame + if f.variadic then 16 else 0

/-- The registers that `saved` selects, each with its offset in a frame of `frame` bytes, in the order of R283; "Stack space is
not allocated for registers that are not saved". That they take the topmost words of the frame, as in the example of R285, is the
model's choice for any other frame (91_not_in_source.md, log 48). -/
def saveSlots (frame : Nat) (saved : Reg → Bool) : List (Reg × Nat) :=
  (saveOrder.filter saved).mapIdx (fun k r => (r, frame - 4 * (k + 1)))

/-- Where r4 to r7 of a function with variable arguments are copied: the 16 extra bytes, the first word lowest, next to the
arguments passed on the stack (R284). That they lie directly above the frame is the model's choice (log 48). -/
def variableSlots (frame : Nat) : List (Reg × Nat) :=
  (List.range 4).map (fun k => (BitVec.ofNat 5 (4 + k), frame + 4 * k))

/-- The SP moved by `n` bytes, down or up: one instruction, or more with the extra temporary register where `n` does not fit
an immediate (R285). The instructions of the long form are the model's choice (log 48). -/
def moveSp (temp : Reg) (n : Nat) (down : Bool) : List Instr :=
  if n ≤ 32767 then
    [.addi RegName.sp.reg RegName.sp.reg (BitVec.ofInt 16 (if down then -(n : Int) else n))]
  else
    (Pseudo.movia temp (BitVec.ofNat 32 n)).expand ++
      [if down then .sub RegName.sp.reg temp RegName.sp.reg else .add RegName.sp.reg temp RegName.sp.reg]

/-- An access to the word at offset `off` from the SP, by `access` with a base register and an offset; with the extra temporary
register where `off` does not fit an immediate (R285, log 48). -/
def frameAccess (temp : Reg) (access : Reg → BitVec 16 → Instr) (off : Nat) : List Instr :=
  if off ≤ 32767 then [access RegName.sp.reg (BitVec.ofNat 16 off)]
  else (Pseudo.movia temp (BitVec.ofNat 32 off)).expand ++ [.add RegName.sp.reg temp temp, access temp 0]

/-- The prolog of a function (R285): adjust the SP, with variable arguments store the argument registers, store the saved
registers, and, when the frame pointer is in use, assign the SP to the FP. -/
def prolog (f : Function) : List Instr :=
  moveSp f.temp f.stackBytes true ++
    (if f.variadic then variableSlots f.frame else []).flatMap (fun p => frameAccess f.temp (fun b => .stw b p.1) p.2) ++
    (saveSlots f.frame f.saved).flatMap (fun p => frameAccess f.temp (fun b => .stw b p.1) p.2) ++
    (if f.usesFp then (Pseudo.mov RegName.fp.reg RegName.sp.reg).expand else [])

/-- The epilog, the inverse (R285): after `alloca()` the SP is taken back from the FP, the saved registers are reloaded, the
frame is given back, and `ret`. That they are reloaded in the order in which they are stored is the model's choice (log 48). -/
def epilog (f : Function) : List Instr :=
  (if f.callsAlloca then (Pseudo.mov RegName.sp.reg RegName.fp.reg).expand else []) ++
    (saveSlots f.frame f.saved).flatMap (fun p => frameAccess f.temp (fun b => .ldw b p.1) p.2) ++
    moveSp f.temp f.stackBytes false ++ [.ret]

/-- `alloca()` of `size` bytes in a frame that has `outgoing` bytes of outgoing arguments at its bottom: the new SP and the
address of the block. "The space allocated by alloca() replaces the outgoing arguments and the outgoing arguments get new space
allocated at the bottom of the frame" (R284); each section of the frame is aligned to 32 bits (R283). -/
def allocaBlock (sp : Word) (outgoing size : Nat) : Word × Word :=
  let low := sp - BitVec.ofNat 32 (roundUp size 4)
  (low, low + BitVec.ofNat 32 (roundUp outgoing 4))

end Sys2Proof.Abi
end

