-- ==== Sys2Proof/Laws/Decode.lean ====
section
/-! SUPPORT. The fields of the words the encoder builds, and the byte layout of a word. -/

namespace Sys2Proof

/-! ## Fields of an I-type word -/

theorem fieldOp_iWord (a b : Reg) (imm : BitVec 16) (op : BitVec 6) : fieldOp (iWord a b imm op) = op := by
  ext i hi
  simp [fieldOp, iWord]
  interval_cases i <;> simp

theorem fieldA_iWord (a b : Reg) (imm : BitVec 16) (op : BitVec 6) : fieldA (iWord a b imm op) = a := by
  ext i hi
  simp [fieldA, iWord]
  interval_cases i <;> simp

theorem fieldB_iWord (a b : Reg) (imm : BitVec 16) (op : BitVec 6) : fieldB (iWord a b imm op) = b := by
  ext i hi
  simp [fieldB, iWord]
  interval_cases i <;> simp

theorem fieldImm16_iWord (a b : Reg) (imm : BitVec 16) (op : BitVec 6) : fieldImm16 (iWord a b imm op) = imm := by
  ext i hi
  simp [fieldImm16, iWord]
  interval_cases i <;> simp

/-! ## Fields of an R-type word -/

theorem fieldOp_rWord (a b c : Reg) (opx : BitVec 6) (imm5 : BitVec 5) : fieldOp (rWord a b c opx imm5) = 0x3a#6 := by
  ext i hi
  simp [fieldOp, rWord]
  interval_cases i <;> simp

theorem fieldA_rWord (a b c : Reg) (opx : BitVec 6) (imm5 : BitVec 5) : fieldA (rWord a b c opx imm5) = a := by
  ext i hi
  simp [fieldA, rWord]
  interval_cases i <;> simp

theorem fieldB_rWord (a b c : Reg) (opx : BitVec 6) (imm5 : BitVec 5) : fieldB (rWord a b c opx imm5) = b := by
  ext i hi
  simp [fieldB, rWord]
  interval_cases i <;> simp

theorem fieldC_rWord (a b c : Reg) (opx : BitVec 6) (imm5 : BitVec 5) : fieldC (rWord a b c opx imm5) = c := by
  ext i hi
  simp [fieldC, rWord]
  interval_cases i <;> simp

theorem fieldOpx_rWord (a b c : Reg) (opx : BitVec 6) (imm5 : BitVec 5) : fieldOpx (rWord a b c opx imm5) = opx := by
  ext i hi
  simp [fieldOpx, rWord]
  interval_cases i <;> simp

theorem fieldImm5_rWord (a b c : Reg) (opx : BitVec 6) (imm5 : BitVec 5) : fieldImm5 (rWord a b c opx imm5) = imm5 := by
  ext i hi
  simp [fieldImm5, rWord]
  interval_cases i <;> simp

/-! ## Fields of a J-type word -/

theorem fieldOp_jWord (imm26 : BitVec 26) (op : BitVec 6) : fieldOp (jWord imm26 op) = op := by
  ext i hi
  simp [fieldOp, jWord]
  interval_cases i <;> simp

theorem fieldImm26_jWord (imm26 : BitVec 26) (op : BitVec 6) : fieldImm26 (jWord imm26 op) = imm26 := by
  ext i hi
  simp [fieldImm26, jWord]
  interval_cases i <;> simp

/-! ## Fields of a `custom` word -/

theorem fieldOp_customWord (a b c : Reg) (ra rb wc : Bool) (n : BitVec 8) : fieldOp (customWord a b c ra rb wc n) = 0x32#6 := by
  ext i hi
  simp [fieldOp, customWord]
  interval_cases i <;> simp

theorem fieldA_customWord (a b c : Reg) (ra rb wc : Bool) (n : BitVec 8) : fieldA (customWord a b c ra rb wc n) = a := by
  ext i hi
  simp [fieldA, customWord]
  interval_cases i <;> simp

theorem fieldB_customWord (a b c : Reg) (ra rb wc : Bool) (n : BitVec 8) : fieldB (customWord a b c ra rb wc n) = b := by
  ext i hi
  simp [fieldB, customWord]
  interval_cases i <;> simp

theorem fieldC_customWord (a b c : Reg) (ra rb wc : Bool) (n : BitVec 8) : fieldC (customWord a b c ra rb wc n) = c := by
  ext i hi
  simp [fieldC, customWord]
  interval_cases i <;> simp

theorem fieldN_customWord (a b c : Reg) (ra rb wc : Bool) (n : BitVec 8) : fieldN (customWord a b c ra rb wc n) = n := by
  ext i hi
  simp [fieldN, customWord]
  interval_cases i <;> simp

theorem fieldReadra_customWord (a b c : Reg) (ra rb wc : Bool) (n : BitVec 8) : fieldReadra (customWord a b c ra rb wc n) = ra := by
  simp [fieldReadra, customWord]

theorem fieldReadrb_customWord (a b c : Reg) (ra rb wc : Bool) (n : BitVec 8) : fieldReadrb (customWord a b c ra rb wc n) = rb := by
  simp [fieldReadrb, customWord]

theorem fieldWriterc_customWord (a b c : Reg) (ra rb wc : Bool) (n : BitVec 8) : fieldWriterc (customWord a b c ra rb wc n) = wc := by
  simp [fieldWriterc, customWord]

/-! ## Words as bytes -/

/-- The bytes of a word put together again (R60). -/
theorem wordOfBytes_bytesOfWord (w : Word) :
    wordOfBytes (w.extractLsb' 0 8) (w.extractLsb' 8 8) (w.extractLsb' 16 8) (w.extractLsb' 24 8) = w := by
  ext i hi
  simp [wordOfBytes]
  interval_cases i <;> simp

/-- Decoding the bytes of a word is decoding the word. -/
theorem decodeBytes_bytesOfWord (w : Word) (rest : List Byte) :
    decodeBytes (bytesOfWord w ++ rest) = (decodeWord w).map (fun i => (i, rest)) := by
  simp only [bytesOfWord, List.cons_append, List.nil_append, decodeBytes, wordOfBytes_bytesOfWord]
  cases decodeWord w <;> rfl

/-- A word is the I-type word of its fields (R102). -/
theorem iWord_fields (w : Word) : iWord (fieldA w) (fieldB w) (fieldImm16 w) (fieldOp w) = w := by
  ext i hi
  simp [iWord, fieldA, fieldB, fieldImm16, fieldOp]
  interval_cases i <;> simp

/-- A word is the J-type word of its fields (R104). -/
theorem jWord_fields (w : Word) : jWord (fieldImm26 w) (fieldOp w) = w := by
  ext i hi
  simp [jWord, fieldImm26, fieldOp]
  interval_cases i <;> simp

end Sys2Proof
end

