-- ==== Sys2Proof/Laws/PerInstr.lean ====
section
/-! SUPPORT. Facts about every instruction, one lemma per constructor. -/

namespace Sys2Proof.Laws

/-- The reserved values of `OP` (R109). -/
def reservedOps : List (BitVec 6) := [0x01, 0x02, 0x09, 0x0a, 0x11, 0x12, 0x13, 0x19, 0x1a, 0x1b, 0x1d, 0x1f, 0x21, 0x22,
  0x29, 0x2a, 0x31, 0x38, 0x39, 0x3d, 0x3e, 0x3f]

/-- The reserved values of `OPX6` (R109). -/
def reservedOpxs : List (BitVec 6) := [0x00, 0x0a, 0x0f, 0x11, 0x14, 0x15, 0x19, 0x21, 0x22, 0x23, 0x2a, 0x2b, 0x2c, 0x2f,
  0x32, 0x33, 0x35, 0x37, 0x38, 0x3c, 0x3d, 0x3e, 0x3f]

/-- The word of the instruction carries no reserved opcode. -/
def Encoded.Statement (i : Instr) : Prop :=
  fieldOp (encode i) ∉ reservedOps ∧ (fieldOp (encode i) = 0x3a#6 → fieldOpx (encode i) ∉ reservedOpxs)

/-- No instruction's word carries a reserved opcode. -/
theorem Encoded.all (i : Instr) : Encoded.Statement i := by
  cases i <;> simp [Encoded.Statement, encode, fieldOp_iWord, fieldOp_jWord, fieldOp_customWord, fieldOp_rWord,
    fieldOpx_rWord, reservedOps, reservedOpxs]

theorem Encoded.addi (a b : Reg) (imm : BitVec 16) : Encoded.Statement (.addi a b imm) :=
  Encoded.all _

theorem Encoded.andi (a b : Reg) (imm : BitVec 16) : Encoded.Statement (.andi a b imm) :=
  Encoded.all _

theorem Encoded.andhi (a b : Reg) (imm : BitVec 16) : Encoded.Statement (.andhi a b imm) :=
  Encoded.all _

theorem Encoded.ori (a b : Reg) (imm : BitVec 16) : Encoded.Statement (.ori a b imm) :=
  Encoded.all _

theorem Encoded.orhi (a b : Reg) (imm : BitVec 16) : Encoded.Statement (.orhi a b imm) :=
  Encoded.all _

theorem Encoded.xori (a b : Reg) (imm : BitVec 16) : Encoded.Statement (.xori a b imm) :=
  Encoded.all _

theorem Encoded.xorhi (a b : Reg) (imm : BitVec 16) : Encoded.Statement (.xorhi a b imm) :=
  Encoded.all _

theorem Encoded.muli (a b : Reg) (imm : BitVec 16) : Encoded.Statement (.muli a b imm) :=
  Encoded.all _

theorem Encoded.cmpeqi (a b : Reg) (imm : BitVec 16) : Encoded.Statement (.cmpeqi a b imm) :=
  Encoded.all _

theorem Encoded.cmpnei (a b : Reg) (imm : BitVec 16) : Encoded.Statement (.cmpnei a b imm) :=
  Encoded.all _

theorem Encoded.cmpgei (a b : Reg) (imm : BitVec 16) : Encoded.Statement (.cmpgei a b imm) :=
  Encoded.all _

theorem Encoded.cmplti (a b : Reg) (imm : BitVec 16) : Encoded.Statement (.cmplti a b imm) :=
  Encoded.all _

theorem Encoded.cmpgeui (a b : Reg) (imm : BitVec 16) : Encoded.Statement (.cmpgeui a b imm) :=
  Encoded.all _

theorem Encoded.cmpltui (a b : Reg) (imm : BitVec 16) : Encoded.Statement (.cmpltui a b imm) :=
  Encoded.all _

theorem Encoded.br (imm : BitVec 16) : Encoded.Statement (.br imm) :=
  Encoded.all _

theorem Encoded.beq (a b : Reg) (imm : BitVec 16) : Encoded.Statement (.beq a b imm) :=
  Encoded.all _

theorem Encoded.bne (a b : Reg) (imm : BitVec 16) : Encoded.Statement (.bne a b imm) :=
  Encoded.all _

theorem Encoded.bge (a b : Reg) (imm : BitVec 16) : Encoded.Statement (.bge a b imm) :=
  Encoded.all _

theorem Encoded.blt (a b : Reg) (imm : BitVec 16) : Encoded.Statement (.blt a b imm) :=
  Encoded.all _

theorem Encoded.bgeu (a b : Reg) (imm : BitVec 16) : Encoded.Statement (.bgeu a b imm) :=
  Encoded.all _

theorem Encoded.bltu (a b : Reg) (imm : BitVec 16) : Encoded.Statement (.bltu a b imm) :=
  Encoded.all _

theorem Encoded.ldb (a b : Reg) (imm : BitVec 16) : Encoded.Statement (.ldb a b imm) :=
  Encoded.all _

theorem Encoded.ldbu (a b : Reg) (imm : BitVec 16) : Encoded.Statement (.ldbu a b imm) :=
  Encoded.all _

theorem Encoded.ldh (a b : Reg) (imm : BitVec 16) : Encoded.Statement (.ldh a b imm) :=
  Encoded.all _

theorem Encoded.ldhu (a b : Reg) (imm : BitVec 16) : Encoded.Statement (.ldhu a b imm) :=
  Encoded.all _

theorem Encoded.ldw (a b : Reg) (imm : BitVec 16) : Encoded.Statement (.ldw a b imm) :=
  Encoded.all _

theorem Encoded.ldbio (a b : Reg) (imm : BitVec 16) : Encoded.Statement (.ldbio a b imm) :=
  Encoded.all _

theorem Encoded.ldbuio (a b : Reg) (imm : BitVec 16) : Encoded.Statement (.ldbuio a b imm) :=
  Encoded.all _

theorem Encoded.ldhio (a b : Reg) (imm : BitVec 16) : Encoded.Statement (.ldhio a b imm) :=
  Encoded.all _

theorem Encoded.ldhuio (a b : Reg) (imm : BitVec 16) : Encoded.Statement (.ldhuio a b imm) :=
  Encoded.all _

theorem Encoded.ldwio (a b : Reg) (imm : BitVec 16) : Encoded.Statement (.ldwio a b imm) :=
  Encoded.all _

theorem Encoded.stb (a b : Reg) (imm : BitVec 16) : Encoded.Statement (.stb a b imm) :=
  Encoded.all _

theorem Encoded.sth (a b : Reg) (imm : BitVec 16) : Encoded.Statement (.sth a b imm) :=
  Encoded.all _

theorem Encoded.stw (a b : Reg) (imm : BitVec 16) : Encoded.Statement (.stw a b imm) :=
  Encoded.all _

theorem Encoded.stbio (a b : Reg) (imm : BitVec 16) : Encoded.Statement (.stbio a b imm) :=
  Encoded.all _

theorem Encoded.sthio (a b : Reg) (imm : BitVec 16) : Encoded.Statement (.sthio a b imm) :=
  Encoded.all _

theorem Encoded.stwio (a b : Reg) (imm : BitVec 16) : Encoded.Statement (.stwio a b imm) :=
  Encoded.all _

theorem Encoded.flushd (a : Reg) (imm : BitVec 16) : Encoded.Statement (.flushd a imm) :=
  Encoded.all _

theorem Encoded.initd (a : Reg) (imm : BitVec 16) : Encoded.Statement (.initd a imm) :=
  Encoded.all _

theorem Encoded.call (imm26 : BitVec 26) : Encoded.Statement (.call imm26) :=
  Encoded.all _

theorem Encoded.add (a b c : Reg) : Encoded.Statement (.add a b c) :=
  Encoded.all _

theorem Encoded.sub (a b c : Reg) : Encoded.Statement (.sub a b c) :=
  Encoded.all _

theorem Encoded.and (a b c : Reg) : Encoded.Statement (.and a b c) :=
  Encoded.all _

theorem Encoded.or (a b c : Reg) : Encoded.Statement (.or a b c) :=
  Encoded.all _

theorem Encoded.xor (a b c : Reg) : Encoded.Statement (.xor a b c) :=
  Encoded.all _

theorem Encoded.nor (a b c : Reg) : Encoded.Statement (.nor a b c) :=
  Encoded.all _

theorem Encoded.mul (a b c : Reg) : Encoded.Statement (.mul a b c) :=
  Encoded.all _

theorem Encoded.mulxss (a b c : Reg) : Encoded.Statement (.mulxss a b c) :=
  Encoded.all _

theorem Encoded.mulxsu (a b c : Reg) : Encoded.Statement (.mulxsu a b c) :=
  Encoded.all _

theorem Encoded.mulxuu (a b c : Reg) : Encoded.Statement (.mulxuu a b c) :=
  Encoded.all _

theorem Encoded.div (a b c : Reg) : Encoded.Statement (.div a b c) :=
  Encoded.all _

theorem Encoded.divu (a b c : Reg) : Encoded.Statement (.divu a b c) :=
  Encoded.all _

theorem Encoded.cmpeq (a b c : Reg) : Encoded.Statement (.cmpeq a b c) :=
  Encoded.all _

theorem Encoded.cmpne (a b c : Reg) : Encoded.Statement (.cmpne a b c) :=
  Encoded.all _

theorem Encoded.cmpge (a b c : Reg) : Encoded.Statement (.cmpge a b c) :=
  Encoded.all _

theorem Encoded.cmplt (a b c : Reg) : Encoded.Statement (.cmplt a b c) :=
  Encoded.all _

theorem Encoded.cmpgeu (a b c : Reg) : Encoded.Statement (.cmpgeu a b c) :=
  Encoded.all _

theorem Encoded.cmpltu (a b c : Reg) : Encoded.Statement (.cmpltu a b c) :=
  Encoded.all _

theorem Encoded.sll (a b c : Reg) : Encoded.Statement (.sll a b c) :=
  Encoded.all _

theorem Encoded.slli (a c : Reg) (imm5 : BitVec 5) : Encoded.Statement (.slli a c imm5) :=
  Encoded.all _

theorem Encoded.srl (a b c : Reg) : Encoded.Statement (.srl a b c) :=
  Encoded.all _

theorem Encoded.srli (a c : Reg) (imm5 : BitVec 5) : Encoded.Statement (.srli a c imm5) :=
  Encoded.all _

theorem Encoded.sra (a b c : Reg) : Encoded.Statement (.sra a b c) :=
  Encoded.all _

theorem Encoded.srai (a c : Reg) (imm5 : BitVec 5) : Encoded.Statement (.srai a c imm5) :=
  Encoded.all _

theorem Encoded.rol (a b c : Reg) : Encoded.Statement (.rol a b c) :=
  Encoded.all _

theorem Encoded.roli (a c : Reg) (imm5 : BitVec 5) : Encoded.Statement (.roli a c imm5) :=
  Encoded.all _

theorem Encoded.ror (a b c : Reg) : Encoded.Statement (.ror a b c) :=
  Encoded.all _

theorem Encoded.callr (a : Reg) : Encoded.Statement (.callr a) :=
  Encoded.all _

theorem Encoded.ret : Encoded.Statement .ret :=
  Encoded.all _

theorem Encoded.jmp (a : Reg) : Encoded.Statement (.jmp a) :=
  Encoded.all _

theorem Encoded.nextpc (c : Reg) : Encoded.Statement (.nextpc c) :=
  Encoded.all _

theorem Encoded.trap : Encoded.Statement .trap :=
  Encoded.all _

theorem Encoded.eret : Encoded.Statement .eret :=
  Encoded.all _

theorem Encoded.breakpoint (imm5 : BitVec 5) : Encoded.Statement (.breakpoint imm5) :=
  Encoded.all _

theorem Encoded.bret : Encoded.Statement .bret :=
  Encoded.all _

theorem Encoded.rdctl (c n : Reg) : Encoded.Statement (.rdctl c n) :=
  Encoded.all _

theorem Encoded.wrctl (a n : Reg) : Encoded.Statement (.wrctl a n) :=
  Encoded.all _

theorem Encoded.flushi (a : Reg) : Encoded.Statement (.flushi a) :=
  Encoded.all _

theorem Encoded.initi (a : Reg) : Encoded.Statement (.initi a) :=
  Encoded.all _

theorem Encoded.flushp : Encoded.Statement .flushp :=
  Encoded.all _

theorem Encoded.sync : Encoded.Statement .sync :=
  Encoded.all _

theorem Encoded.custom (a b c : Reg) (readra readrb writerc : Bool) (n : BitVec 8) : Encoded.Statement (.custom a b c readra readrb writerc n) :=
  Encoded.all _

end Sys2Proof.Laws
end

