-- ==== Sys2Proof/Safety.lean ====
section
/-! DEFINITION. What a sound state is, and the frames in which statements about instructions are written. -/

namespace Sys2Proof.Machine

/-! ## The invariant -/

/-- The three entry addresses are multiples of 4 in memory that the instruction master reads (D1), and the on-chip trace buffer has 128
to 64K frames (R10). The other bounds of R8 to R10 are in the types of `Config`. -/
def configLegal (c : Config) : Bool :=
  entriesLegal c && decide (128 ≤ c.traceFrames) && decide (c.traceFrames ≤ 65536)

/-- Without user mode no saved or current status holds U = 1 (R30, R31, R363). -/
def userBitsLegal (s : State) : Bool := s.cfg.hasUserMode || (!s.status.u && !s.estatus.u && !s.bstatus.u)

/-- A core without an instruction cache holds no word back from fetches (R83, log 22). -/
def staleLegal (s : State) : Bool := hasICache s.cfg || s.stale.isEmpty

/-- What every step keeps: a legal configuration, memory and cache lists in canonical form, register 0 holding 0, `pc` a
multiple of 4 (R27), legal user-mode bits, a legal store record. -/
def Inv (s : State) : Prop :=
  configLegal s.cfg = true ∧ Memory.wf s.mem = true ∧ keysRising s.icache = true ∧ keysRising s.dcache = true ∧
    s.regs[0] = 0#32 ∧ aligned .word s.pc = true ∧ userBitsLegal s = true ∧ staleLegal s = true

/-! ## Frames -/

/-- All of `t` but general registers and `pc` is as in `s`. -/
def OnlyRegs (s t : State) : Prop := t = { s with regs := t.regs, pc := t.pc }

/-- The outcome is a next state in which register `r` has the value `v` (register 0 stays 0), `pc` is the following
instruction, every other register, every byte of memory and everything else is unchanged. -/
def Writes (o : Host.Outcome State Fault Refusal) (s : State) (r : Reg) (v : Word) : Prop :=
  ∃ t, o = .next t ∧ t.reg r = (if r = 0#5 then 0#32 else v) ∧ t.pc = s.pc + 4 ∧ (∀ q, q ≠ r → t.reg q = s.reg q) ∧
    (∀ a, readByte t.mem a = readByte s.mem a) ∧ OnlyRegs s t

/-- The outcome is `s` with `pc` at `a` and nothing else changed. -/
def GoesTo (o : Host.Outcome State Fault Refusal) (s : State) (a : Word) : Prop := o = .next { s with pc := a }

/-- The outcome is the state after the exception entry with return address `ret`: the saved status, the cleared status, `ea`
and `pc` are as R334 says, every other register, all memory and everything else is unchanged. -/
def TakesException (o : Host.Outcome State Fault Refusal) (s : State) (ret : Word) : Prop :=
  ∃ t, o = .next t ∧ t.estatus = s.status ∧ t.status.u = false ∧ t.status.pie = false ∧ t.reg 29#5 = ret ∧
    t.pc = s.cfg.exceptionAddr ∧ (∀ q, q ≠ 29#5 → t.reg q = s.reg q) ∧ (∀ a, readByte t.mem a = readByte s.mem a) ∧
    t = { s with regs := t.regs, pc := t.pc, status := t.status, estatus := t.estatus }

/-- The same for the break entry of R350. -/
def TakesBreak (o : Host.Outcome State Fault Refusal) (s : State) (ret : Word) : Prop :=
  ∃ t, o = .next t ∧ t.bstatus = s.status ∧ t.status.u = false ∧ t.status.pie = false ∧ t.reg 30#5 = ret ∧
    t.pc = s.cfg.breakAddr ∧ (∀ q, q ≠ 30#5 → t.reg q = s.reg q) ∧ (∀ a, readByte t.mem a = readByte s.mem a) ∧
    t = { s with regs := t.regs, pc := t.pc, status := t.status, bstatus := t.bstatus }

/-- Memory, of one of the three kinds, that the data master reaches at `a`. -/
def dataMemoryAt (s : State) (a : Word) : Prop :=
  ∃ r, findRegion s.cfg Region.data a = some r ∧ (r.kind = .ram ∨ r.kind = .rom ∨ r.kind = .flash)

/-- RAM that the data master reaches at `a`. -/
def ramAt (s : State) (a : Word) : Prop := ∃ r, findRegion s.cfg Region.data a = some r ∧ r.kind = .ram

/-- Nothing that the data master reaches at `a` (R68). -/
def nothingAt (s : State) (a : Word) : Prop := findRegion s.cfg Region.data a = none

/-- The location of address `a` is not one of the `n` bytes stored from `ea` on. -/
def outside (ea : Word) (n : Nat) (a : Word) : Prop := ∀ k, k < n → phys a ≠ phys (ea + BitVec.ofNat 32 k)

/-- The value of the `n` bytes from `a` on, the first the least significant (R60). -/
def bytesValue (m : List Host.Cell) (a : Word) (n : Nat) : Nat :=
  match n with
  | 0 => 0
  | n + 1 => (readByte m a).toNat + 256 * bytesValue m (a + 1) n

/-- Nothing but memory, the store record and `pc` differs from `s`; `pc` is the following instruction; the `n` bytes from
`ea` on are the low bytes of `v`, and every other byte is as before. -/
def Stores (o : Host.Outcome State Fault Refusal) (s : State) (ea : Word) (n : Nat) (v : Word) : Prop :=
  ∃ t, o = .next t ∧ (∀ k, k < n → readByte t.mem (ea + BitVec.ofNat 32 k) = v.extractLsb' (8 * k) 8) ∧
    (∀ a, outside ea n a → readByte t.mem a = readByte s.mem a) ∧
    t = { s with pc := s.pc + 4, mem := t.mem, stale := t.stale }

/-! ## Shapes of statements about one instruction -/

/-- On every core that `ok` accepts, the three-register instruction `mk`, encoded with `opx` in `OPX6`, writes a value
related by `f` to `x[A]` and `x[B]` into `x[C]`. -/
def ComputesR (ok : Config → Bool) (opx : BitVec 6) (mk : Reg → Reg → Reg → Instr) (f : Word → Word → Word → Prop) :
    Prop :=
  ∀ (s : State) (a b c : Reg), ok s.cfg = true →
    decodeWord (rWord a b c opx 0) = .ok (mk a b c) ∧ ∃ v, f (s.reg a) (s.reg b) v ∧ Writes (exec (mk a b c) s) s c v

/-- The same for an instruction with an immediate, encoded with `op` in `OP`: `x[A]` and IMM16 to `x[B]`. -/
def ComputesI (ok : Config → Bool) (op : BitVec 6) (mk : Reg → Reg → BitVec 16 → Instr)
    (f : Word → BitVec 16 → Word → Prop) : Prop :=
  ∀ (s : State) (a b : Reg) (imm : BitVec 16), ok s.cfg = true →
    decodeWord (iWord a b imm op) = .ok (mk a b imm) ∧ ∃ v, f (s.reg a) imm v ∧ Writes (exec (mk a b imm) s) s b v

/-- The same for a shift by a constant: `x[A]` and IMM5 to `x[C]`. -/
def ComputesShift (opx : BitVec 6) (mk : Reg → Reg → BitVec 5 → Instr) (f : Word → Nat → Word → Prop) : Prop :=
  ∀ (s : State) (a c : Reg) (n : BitVec 5),
    decodeWord (rWord a 0 c opx n) = .ok (mk a c n) ∧
      ∃ v, f (s.reg a) n.toNat v ∧ Writes (exec (mk a c n) s) s c v

/-- Every core. -/
def anyCore (_ : Config) : Bool := true

/-- A conditional branch encoded with `op`, with nothing but `pc` changed: if `cond` holds of the two registers, to `pc + 4`
plus the signed offset, wherever the offset is legal and `pc` a multiple of 4; else to `pc + 4`, whatever the offset. -/
def BranchesIf (op : BitVec 6) (mk : Reg → Reg → BitVec 16 → Instr) (cond : Word → Word → Prop) : Prop :=
  ∀ (s : State) (a b : Reg) (imm : BitVec 16),
    decodeWord (iWord a b imm op) = .ok (mk a b imm) ∧
      (branchOffsetOk imm = true → aligned .word s.pc = true → cond (s.reg a) (s.reg b) →
        GoesTo (exec (mk a b imm) s) s (s.pc + 4 + BitVec.ofInt 32 imm.toInt)) ∧
      (¬ cond (s.reg a) (s.reg b) → GoesTo (exec (mk a b imm) s) s (s.pc + 4))

/-- A conditional branch taken to an address that is not a multiple of 4 is refused. -/
def BranchStops (mk : Reg → Reg → BitVec 16 → Instr) (cond : Word → Word → Prop) : Prop :=
  ∀ (s : State) (a b : Reg) (imm : BitVec 16), cond (s.reg a) (s.reg b) → aligned .word (branchTarget s imm) = false →
    exec (mk a b imm) s = .refused (.misalignedTarget (branchTarget s imm))

/-- A load of `n` bytes from memory past the data cache: the value `ext` of the bytes goes to `x[B]`. -/
def LoadsBytes (mk : Reg → Reg → BitVec 16 → Instr) (n : Nat) (io : Bool) (ext : Nat → Int) : Prop :=
  ∀ (s : State) (a b : Reg) (imm : BitVec 16) (ea : Word), ea = BitVec.ofInt 32 ((s.reg a).toInt + imm.toInt) →
    ea.toNat % n = 0 → bypasses s.cfg ea io = true → dataMemoryAt s ea →
    Writes (exec (mk a b imm) s) s b (BitVec.ofInt 32 (ext (bytesValue s.mem ea n)))

/-- A store of `n` bytes to RAM past the data cache. -/
def StoresBytes (mk : Reg → Reg → BitVec 16 → Instr) (n : Nat) (io : Bool) : Prop :=
  ∀ (s : State) (a b : Reg) (imm : BitVec 16) (ea : Word), ea = BitVec.ofInt 32 ((s.reg a).toInt + imm.toInt) →
    ea.toNat % n = 0 → bypasses s.cfg ea io = true → ramAt s ea →
    Stores (exec (mk a b imm) s) s ea n (s.reg b)

/-- A load of `n` bytes whose value is undefined, at a misaligned address or where nothing is mapped (U1, U2): it completes,
only the value in `x[B]` is open, and besides `x[B]` and `pc` only the model's count of free values changes. -/
def LoadsOpen (mk : Reg → Reg → BitVec 16 → Instr) (n : Nat) : Prop :=
  ∀ (s : State) (a b : Reg) (imm : BitVec 16) (ea : Word), ea = BitVec.ofInt 32 ((s.reg a).toInt + imm.toInt) →
    (ea.toNat % n ≠ 0 ∨ nothingAt s ea) →
    ∃ t v k, t = { s with freeCtr := k } ∧ Writes (exec (mk a b imm) s) t b v

/-- Where a store of `n` bytes stops: at a misaligned address; where nothing is mapped; past the data cache, in a CFI flash (U1,
U2, P22). -/
def StoresStop (mk : Reg → Reg → BitVec 16 → Instr) (n : Nat) (io : Bool) : Prop :=
  ∀ (s : State) (a b : Reg) (imm : BitVec 16) (ea : Word), ea = BitVec.ofInt 32 ((s.reg a).toInt + imm.toInt) →
    (ea.toNat % n ≠ 0 → exec (mk a b imm) s = .refused (.misalignedStore ea)) ∧
    (ea.toNat % n = 0 → nothingAt s ea → exec (mk a b imm) s = .fault (.unmappedStore ea)) ∧
    (ea.toNat % n = 0 → bypasses s.cfg ea io = true →
      (∃ r, findRegion s.cfg Region.data ea = some r ∧ r.kind = .flash) →
      exec (mk a b imm) s = .refused (.flashCommand ea))

/-- `m` is the memory of `s` after the line under number `k` of its data cache was evicted, where that takes no more than RAM:
with a dirty line its four bytes at its own address (R86), else unchanged. -/
def evictedMem (s : State) (k : Nat) (m : List Host.Cell) : Prop :=
  match keyGet s.dcache k with
  | none => ∀ x, readByte m x = readByte s.mem x
  | some l =>
    if l.dirty then
      ramAt s (dLineAddr s.cfg l.tag k) ∧
      (∀ j, j < 4 → readByte m (dLineAddr s.cfg l.tag k + BitVec.ofNat 32 j) = l.data.extractLsb' (8 * j) 8) ∧
      ∀ x, outside (dLineAddr s.cfg l.tag k) 4 x → readByte m x = readByte s.mem x
    else ∀ x, readByte m x = readByte s.mem x

/-- The line under number `k` can be evicted by a write to RAM, or without any write. -/
def evictable (s : State) (k : Nat) : Prop :=
  ∀ l, keyGet s.dcache k = some l → l.dirty = true → ramAt s (dLineAddr s.cfg l.tag k)

/-- The `n` bytes from address `ea` on, inside its aligned word, of the word `v`. -/
def lanesValue (v ea : Word) (n : Nat) : Nat := v.toNat / 2 ^ (8 * (ea.toNat % 4)) % 2 ^ (8 * n)

/-- `v` is `old` with the `n` bytes from address `ea` on, inside its aligned word, replaced by the low bytes of `x`. -/
def lanesReplaced (ea : Word) (n : Nat) (x old v : Word) : Prop :=
  ∀ j, j < 4 → v.extractLsb' (8 * j) 8 =
    if ea.toNat % 4 ≤ j ∧ j < ea.toNat % 4 + n then x.extractLsb' (8 * (j - ea.toNat % 4)) 8
    else old.extractLsb' (8 * j) 8

/-- Line `k` of the data cache of `t` is `l`, every other line is as in `s`. -/
def OnlyLine (s t : State) (k : Nat) (l : DataLine) : Prop :=
  keyGet t.dcache k = some l ∧ ∀ j, j ≠ k → keyGet t.dcache j = keyGet s.dcache j

/-- A cached load of `n` bytes from an address where something is mapped (R86): on a hit the selected bytes of the line, with
nothing else changed; on a miss that evicts at most to RAM, the line of `ea` filled from memory, and its selected bytes. -/
def CachedLoads (mk : Reg → Reg → BitVec 16 → Instr) (n : Nat) (ext : Nat → Int) : Prop :=
  ∀ (s : State) (a b : Reg) (imm : BitVec 16) (ea : Word) (k : Nat),
    ea = BitVec.ofInt 32 ((s.reg a).toInt + imm.toInt) → k = dIndex s.cfg ea →
    ea.toNat % n = 0 → bypasses s.cfg ea false = false → mapped s.cfg Region.data ea = true →
    (∀ l, keyGet s.dcache k = some l → l.tag = dTag s.cfg ea →
      Writes (exec (mk a b imm) s) s b (BitVec.ofInt 32 (ext (lanesValue l.data ea n)))) ∧
    ((∀ l, keyGet s.dcache k = some l → l.tag ≠ dTag s.cfg ea) → evictable s k → dataMemoryAt s (wordAddr ea) →
      ∃ t l, exec (mk a b imm) s = .next t ∧ evictedMem s k t.mem ∧
        l.tag = dTag s.cfg ea ∧ l.dirty = false ∧ l.data.toNat = bytesValue t.mem (wordAddr ea) 4 ∧ OnlyLine s t k l ∧
        Writes (exec (mk a b imm) s) { s with mem := t.mem, dcache := t.dcache, stale := t.stale } b
          (BitVec.ofInt 32 (ext (lanesValue l.data ea n))))

/-- A cached store of `n` bytes to an address where something is mapped (R86, D18): on a hit the line changed and dirty, memory
unchanged; on a miss that evicts at most to RAM, the line of `ea` allocated (for a word without a read, else filled from memory
first), changed and dirty. -/
def CachedStores (mk : Reg → Reg → BitVec 16 → Instr) (n : Nat) : Prop :=
  ∀ (s : State) (a b : Reg) (imm : BitVec 16) (ea : Word) (k : Nat),
    ea = BitVec.ofInt 32 ((s.reg a).toInt + imm.toInt) → k = dIndex s.cfg ea →
    ea.toNat % n = 0 → bypasses s.cfg ea false = false → mapped s.cfg Region.data ea = true →
    (∀ l, keyGet s.dcache k = some l → l.tag = dTag s.cfg ea →
      ∃ t v, exec (mk a b imm) s = .next t ∧ lanesReplaced ea n (s.reg b) l.data v ∧ OnlyLine s t k ⟨l.tag, true, v⟩ ∧
        (∀ x, readByte t.mem x = readByte s.mem x) ∧
        t = { s with pc := s.pc + 4, dcache := t.dcache, stale := t.stale }) ∧
    ((∀ l, keyGet s.dcache k = some l → l.tag ≠ dTag s.cfg ea) → evictable s k →
      (n = 4 ∨ dataMemoryAt s (wordAddr ea)) →
      ∃ t v old, exec (mk a b imm) s = .next t ∧ evictedMem s k t.mem ∧
        (n ≠ 4 → old.toNat = bytesValue t.mem (wordAddr ea) 4) ∧ lanesReplaced ea n (s.reg b) old v ∧
        OnlyLine s t k ⟨dTag s.cfg ea, true, v⟩ ∧
        t = { s with pc := s.pc + 4, mem := t.mem, dcache := t.dcache, stale := t.stale })

/-- The two's-complement reading of an unsigned `n`-bit value. -/
def signedValue (bits x : Nat) : Int := if x < 2 ^ (bits - 1) then (x : Int) else (x : Int) - 2 ^ bits

end Sys2Proof.Machine
end

