-- ==== Sys2Proof/Certificates/Slice0/Obligations.lean ====
section
/-! DEFINITION. The statements for the provers. -/

section

open Sys2Proof Sys2Proof.Machine

/-! ## Encoding -/

/-- Decoding the bytes of any instruction, whatever follows them, gives the instruction back (R100 to R111). -/
def Obligations.DecodeOfEncode : Prop :=
  ∀ (i : Instr) (rest : List Byte), decodeBytes (encodeBytes i ++ rest) = .ok (i, rest)

/-- A word that decodes is the encoding of what it decodes to: no instruction has a second word (D12). -/
def Obligations.EncodeOfDecode : Prop :=
  ∀ (w : Word) (i : Instr), decodeWord w = .ok i → encode i = w

/-- The reserved values of `OP`, and of `OPX6` under `OP` = 0x3a, are exactly the lists of R109, and are
rejected (U8, log 14). -/
def Obligations.ReservedOpcodesRejected : Prop :=
  ∀ w : Word,
    (decodeWord w = .error (.reservedOp (fieldOp w)) ↔ fieldOp w ∈ Laws.reservedOps) ∧
    (decodeWord w = .error (.reservedOpx (fieldOpx w)) ↔ fieldOp w = 0x3a ∧ fieldOpx w ∈ Laws.reservedOpxs)

/-- The worked encodings of R118. -/
def Obligations.WorkedEncodings : Prop :=
  decodeWord 0x3a0d883a = .ok (.add 7 8 6) ∧ decodeWord 0x39bfe704 = .ok (.addi 7 6 0xff9c) ∧
  decodeWord 0x01000000 = .ok (.call 0x0040000) ∧ decodeWord 0x380c90fa = .ok (.slli 7 6 3) ∧
  decodeWord 0x003b683a = .ok .trap ∧ decodeWord 0x003da03a = .ok (.breakpoint 0) ∧
  decodeWord 0xe800083a = .ok .eret ∧ decodeWord 0xf000483a = .ok .bret ∧ decodeWord 0xf800283a = .ok .ret ∧
  decodeWord 0x0001883a = .ok (.add 0 0 0) ∧ decodeWord 0x0007303a = .ok (.rdctl 3 0) ∧
  decodeWord 0x180170fa = .ok (.wrctl 3 3) ∧ decodeWord 0x003fff06 = .ok (.br 0xfffc)

/-! ## Arithmetic, logic, comparison, shifts -/

/-- `and`, `or`, `xor`, `nor` bit by bit (R170 to R173). -/
def Obligations.LogicalRegister : Prop :=
  ComputesR anyCore 0x0e Instr.and
    (fun x y v => ∀ i, i < 32 → v.getLsbD i = (x.getLsbD i && y.getLsbD i)) ∧
  ComputesR anyCore 0x16 Instr.or
    (fun x y v => ∀ i, i < 32 → v.getLsbD i = (x.getLsbD i || y.getLsbD i)) ∧
  ComputesR anyCore 0x1e Instr.xor
    (fun x y v => ∀ i, i < 32 → v.getLsbD i = (x.getLsbD i != y.getLsbD i)) ∧
  ComputesR anyCore 0x06 Instr.nor
    (fun x y v => ∀ i, i < 32 → v.getLsbD i = !(x.getLsbD i || y.getLsbD i))

/-- `andi`, `ori`, `xori` with the immediate in bits 15..0, `andhi`, `orhi`, `xorhi` with it in bits 31..16 (R174 to R179). -/
def Obligations.LogicalImmediate : Prop :=
  ComputesI anyCore 0x0c Instr.andi
    (fun x n v => ∀ i, i < 32 → v.getLsbD i = (x.getLsbD i && n.getLsbD i)) ∧
  ComputesI anyCore 0x14 Instr.ori
    (fun x n v => ∀ i, i < 32 → v.getLsbD i = (x.getLsbD i || n.getLsbD i)) ∧
  ComputesI anyCore 0x1c Instr.xori
    (fun x n v => ∀ i, i < 32 → v.getLsbD i = (x.getLsbD i != n.getLsbD i)) ∧
  ComputesI anyCore 0x2c Instr.andhi
    (fun x n v => ∀ i, i < 32 → v.getLsbD i = (x.getLsbD i && (decide (16 ≤ i) && n.getLsbD (i - 16)))) ∧
  ComputesI anyCore 0x34 Instr.orhi
    (fun x n v => ∀ i, i < 32 → v.getLsbD i = (x.getLsbD i || (decide (16 ≤ i) && n.getLsbD (i - 16)))) ∧
  ComputesI anyCore 0x3c Instr.xorhi
    (fun x n v => ∀ i, i < 32 → v.getLsbD i = (x.getLsbD i != (decide (16 ≤ i) && n.getLsbD (i - 16))))

/-- `add`, `sub`, `addi`: the sum or difference as an integer, modulo 2^32 (R180, R181, R185). -/
def Obligations.AddAndSubtract : Prop :=
  ComputesR anyCore 0x31 Instr.add (fun x y v => v.toNat = (x.toNat + y.toNat) % 2 ^ 32) ∧
  ComputesR anyCore 0x39 Instr.sub (fun x y v => v = BitVec.ofInt 32 (x.toInt - y.toInt)) ∧
  ComputesI anyCore 0x04 Instr.addi (fun x n v => v = BitVec.ofInt 32 (x.toInt + n.toInt))

/-- `mul`, `muli` on a core that implements them: the low 32 bits of the product (R182, R187). -/
def Obligations.MultiplyLow : Prop :=
  ComputesR mulImplemented 0x27 Instr.mul (fun x y v => v.toNat = x.toNat * y.toNat % 2 ^ 32) ∧
  ComputesI mulImplemented 0x24 Instr.muli (fun x n v => v = BitVec.ofInt 32 (x.toInt * n.toInt))

/-- `mulxuu`, `mulxss`, `mulxsu` on a core that implements them: the high 32 bits of the unsigned, signed and mixed 64-bit
product (R188 to R191). -/
def Obligations.MultiplyHigh : Prop :=
  ComputesR mulxImplemented 0x07 Instr.mulxuu (fun x y v => v.toNat = x.toNat * y.toNat / 2 ^ 32) ∧
  ComputesR mulxImplemented 0x1f Instr.mulxss (fun x y v => v.toInt = x.toInt * y.toInt / 2 ^ 32) ∧
  ComputesR mulxImplemented 0x17 Instr.mulxsu (fun x y v => v.toInt = x.toInt * (y.toNat : Int) / 2 ^ 32)

/-- `div` and `divu` on a core that implements them, for every divisor and dividend (R183, R184): the quotient truncated
toward zero where it is defined; the instruction completes also where it is not (division by zero, -2^31 by -1), and then
only the value written is open. Besides `x[C]` and `pc` only the model's count of free values changes. -/
def Obligations.Divide : Prop :=
  ∀ (s : State) (a b c : Reg), divImplemented s.cfg = true →
    (∃ v, ((s.reg b).toInt ≠ 0 → ¬ ((s.reg a).toInt = -2 ^ 31 ∧ (s.reg b).toInt = -1) →
        v.toInt = (s.reg a).toInt.tdiv (s.reg b).toInt) ∧
      ∃ t n, t = { s with freeCtr := n } ∧ Writes (exec (.div a b c) s) t c v) ∧
    (∃ v, ((s.reg b).toNat ≠ 0 → v.toNat = (s.reg a).toNat / (s.reg b).toNat) ∧
      ∃ t n, t = { s with freeCtr := n } ∧ Writes (exec (.divu a b c) s) t c v)

/-- On a core that lacks it, each of the seven multiply and divide instructions takes the unimplemented-instruction
exception and does nothing else (R192, R342, D16). -/
def Obligations.UnimplementedInstruction : Prop :=
  ∀ (s : State) (a b c : Reg) (imm : BitVec 16),
    (mulImplemented s.cfg = false →
      TakesException (exec (.mul a b c) s) s (s.pc + 4) ∧ TakesException (exec (.muli a b imm) s) s (s.pc + 4)) ∧
    (mulxImplemented s.cfg = false →
      TakesException (exec (.mulxss a b c) s) s (s.pc + 4) ∧ TakesException (exec (.mulxsu a b c) s) s (s.pc + 4) ∧
      TakesException (exec (.mulxuu a b c) s) s (s.pc + 4)) ∧
    (divImplemented s.cfg = false →
      TakesException (exec (.div a b c) s) s (s.pc + 4) ∧ TakesException (exec (.divu a b c) s) s (s.pc + 4))

/-- The six register comparisons write 1 or 0 (R211 to R216). -/
def Obligations.CompareRegister : Prop :=
  ComputesR anyCore 0x20 Instr.cmpeq (fun x y v => v = if x = y then 1 else 0) ∧
  ComputesR anyCore 0x18 Instr.cmpne (fun x y v => v = if x = y then 0 else 1) ∧
  ComputesR anyCore 0x08 Instr.cmpge (fun x y v => v = if y.toInt ≤ x.toInt then 1 else 0) ∧
  ComputesR anyCore 0x28 Instr.cmpgeu (fun x y v => v = if y.toNat ≤ x.toNat then 1 else 0) ∧
  ComputesR anyCore 0x10 Instr.cmplt (fun x y v => v = if x.toInt < y.toInt then 1 else 0) ∧
  ComputesR anyCore 0x30 Instr.cmpltu (fun x y v => v = if x.toNat < y.toNat then 1 else 0)

/-- The six comparisons with an immediate: signed, but unsigned for `cmpgeui` and `cmpltui` (R217 to R222). -/
def Obligations.CompareImmediate : Prop :=
  ComputesI anyCore 0x20 Instr.cmpeqi (fun x n v => v = if x.toInt = n.toInt then 1 else 0) ∧
  ComputesI anyCore 0x18 Instr.cmpnei (fun x n v => v = if x.toInt = n.toInt then 0 else 1) ∧
  ComputesI anyCore 0x08 Instr.cmpgei (fun x n v => v = if n.toInt ≤ x.toInt then 1 else 0) ∧
  ComputesI anyCore 0x28 Instr.cmpgeui (fun x n v => v = if n.toNat ≤ x.toNat then 1 else 0) ∧
  ComputesI anyCore 0x10 Instr.cmplti (fun x n v => v = if x.toInt < n.toInt then 1 else 0) ∧
  ComputesI anyCore 0x30 Instr.cmpltui (fun x n v => v = if x.toNat < n.toNat then 1 else 0)

/-- Shifts and rotates by the low five bits of a register, bit by bit (R241, R243, R244, R246, R248). -/
def Obligations.ShiftByRegister : Prop :=
  ComputesR anyCore 0x13 Instr.sll (fun x y v => ∀ i, i < 32 →
    v.getLsbD i = (decide (y.toNat % 32 ≤ i) && x.getLsbD (i - y.toNat % 32))) ∧
  ComputesR anyCore 0x1b Instr.srl (fun x y v => ∀ i, i < 32 → v.getLsbD i = x.getLsbD (i + y.toNat % 32)) ∧
  ComputesR anyCore 0x3b Instr.sra (fun x y v => ∀ i, i < 32 → v.getLsbD i = x.getLsbD (min (i + y.toNat % 32) 31)) ∧
  ComputesR anyCore 0x03 Instr.rol (fun x y v => ∀ i, i < 32 →
    v.getLsbD i = x.getLsbD ((i + 32 - y.toNat % 32) % 32)) ∧
  ComputesR anyCore 0x0b Instr.ror (fun x y v => ∀ i, i < 32 → v.getLsbD i = x.getLsbD ((i + y.toNat % 32) % 32))

/-- Shifts and rotates by a constant, bit by bit (R242, R245, R247, R249). -/
def Obligations.ShiftByConstant : Prop :=
  ComputesShift 0x12 Instr.slli (fun x n v => ∀ i, i < 32 → v.getLsbD i = (decide (n ≤ i) && x.getLsbD (i - n))) ∧
  ComputesShift 0x1a Instr.srli (fun x n v => ∀ i, i < 32 → v.getLsbD i = x.getLsbD (i + n)) ∧
  ComputesShift 0x3a Instr.srai (fun x n v => ∀ i, i < 32 → v.getLsbD i = x.getLsbD (min (i + n) 31)) ∧
  ComputesShift 0x02 Instr.roli (fun x n v => ∀ i, i < 32 → v.getLsbD i = x.getLsbD ((i + 32 - n) % 32))

/-! ## Loads and stores -/

/-- Every load, from memory and past the data cache, at an aligned address: the little-endian value of its bytes, extended
(R60, R140 to R150). -/
def Obligations.LoadsFromMemory : Prop :=
  (LoadsBytes Instr.ldw 4 false (fun x => x) ∧ LoadsBytes Instr.ldwio 4 true (fun x => x)) ∧
  (LoadsBytes Instr.ldh 2 false (signedValue 16) ∧ LoadsBytes Instr.ldhio 2 true (signedValue 16)) ∧
  (LoadsBytes Instr.ldhu 2 false (fun x => x) ∧ LoadsBytes Instr.ldhuio 2 true (fun x => x)) ∧
  (LoadsBytes Instr.ldb 1 false (signedValue 8) ∧ LoadsBytes Instr.ldbio 1 true (signedValue 8)) ∧
  (LoadsBytes Instr.ldbu 1 false (fun x => x) ∧ LoadsBytes Instr.ldbuio 1 true (fun x => x))

/-- Every store, to RAM and past the data cache, at an aligned address: exactly its bytes (R60, R140, R151 to R156). -/
def Obligations.StoresToRam : Prop :=
  (StoresBytes Instr.stw 4 false ∧ StoresBytes Instr.stwio 4 true) ∧
  (StoresBytes Instr.sth 2 false ∧ StoresBytes Instr.sthio 2 true) ∧
  (StoresBytes Instr.stb 1 false ∧ StoresBytes Instr.stbio 1 true)

/-- A load that is misaligned, or at an address where nothing is mapped, completes, cached or not: only the value in `x[B]` is
open (U1, U2; logs 11, 12: the model's choice of what stays defined). -/
def Obligations.UndefinedLoadsComplete : Prop :=
  (LoadsOpen Instr.ldw 4 ∧ LoadsOpen Instr.ldwio 4) ∧ (LoadsOpen Instr.ldh 2 ∧ LoadsOpen Instr.ldhio 2) ∧
  (LoadsOpen Instr.ldhu 2 ∧ LoadsOpen Instr.ldhuio 2) ∧ (LoadsOpen Instr.ldb 1 ∧ LoadsOpen Instr.ldbio 1) ∧
  (LoadsOpen Instr.ldbu 1 ∧ LoadsOpen Instr.ldbuio 1)

/-- Where the six stores stop: at a misaligned address, where nothing is mapped, past the data cache in a CFI flash (U1, U2,
P22; logs 11, 12, 39: the model's choice of a stop where the source gives no effect). -/
def Obligations.StoreStops : Prop :=
  (StoresStop Instr.stw 4 false ∧ StoresStop Instr.stwio 4 true) ∧
  (StoresStop Instr.sth 2 false ∧ StoresStop Instr.sthio 2 true) ∧
  (StoresStop Instr.stb 1 false ∧ StoresStop Instr.stbio 1 true)

/-- A word stored is the word loaded by the next instruction, through the cache or past it alike (R76); and after a store past
the cache the four bytes of memory from its address up are the word's bytes from the least significant up (R60). -/
def Obligations.StoreThenLoad : Prop :=
  ∀ (s t : State) (a b c : Reg) (imm : BitVec 16),
    (bypasses s.cfg (effAddr s a imm) false = true → ramAt s (effAddr s a imm)) →
    exec (.stw a b imm) s = .next t →
    (∃ u, exec (.ldw a c imm) t = .next u ∧ u.reg c = if c = 0#5 then 0#32 else s.reg b) ∧
    (bypasses s.cfg (effAddr s a imm) false = true → ∀ k, k < 4 →
      readByte t.mem (effAddr s a imm + BitVec.ofNat 32 k) = (s.reg b).extractLsb' (8 * k) 8)

/-- The five cached loads and the three cached stores of the Nios II/f, hit or miss, where something is mapped (R71, R86;
D18). That a cached store into a CFI flash, and a cached word store at unpublished registers, completes in its line as well, and
is refused only at the write-back, is the model's choice (log 39; P20 to P22). -/
def Obligations.CachedAccesses : Prop :=
  CachedLoads Instr.ldw 4 (fun x => x) ∧
  CachedLoads Instr.ldh 2 (signedValue 16) ∧ CachedLoads Instr.ldhu 2 (fun x => x) ∧
  CachedLoads Instr.ldb 1 (signedValue 8) ∧ CachedLoads Instr.ldbu 1 (fun x => x) ∧
  CachedStores Instr.stw 4 ∧ CachedStores Instr.sth 2 ∧ CachedStores Instr.stb 1

/-- A word load or store past the data cache at a peripheral register makes exactly one register read or write with all byte
lanes, and touches no memory (R62, R70, R73, R400; the register offset is log 30's). -/
def Obligations.PeripheralAccess : Prop :=
  ∀ (s : State) (a b : Reg) (imm : BitVec 16) (io : Bool) (ea : Word) (r : Region) (i off : Nat) (c : Core) (x : Word),
    ea = effAddr s a imm → ea.toNat % 4 = 0 → bypasses s.cfg ea io = true →
    findRegion s.cfg Region.data ea = some r → r.kind = .device i → deviceAt s.devices i = some c →
    off = (phys ea - r.base) / 4 → x = Config.freeWord s.freeCtr →
    (∃ t, t = { s with devices := setDevice s.devices i (c.read off x).2, freeCtr := s.freeCtr + 1 } ∧
      Writes (exec (if io then .ldwio a b imm else .ldw a b imm) s) t b (c.read off x).1) ∧
    (∀ c', c.write off (s.reg b) 0xffffffff x = .ok c' →
      ∃ t, exec (if io then .stwio a b imm else .stw a b imm) s = .next t ∧ deviceAt t.devices i = some c' ∧
        (∀ y, readByte t.mem y = readByte s.mem y) ∧
        t = { s with
          pc := s.pc + 4, devices := setDevice s.devices i c', freeCtr := t.freeCtr, stale := t.stale })

/-! ## Program control -/

/-- The six conditional branches, taken with a legal offset and not taken with any, and `br` (R264 to R270, R277). -/
def Obligations.Branches : Prop :=
  BranchesIf 0x26 Instr.beq (fun x y => x = y) ∧
  BranchesIf 0x1e Instr.bne (fun x y => x ≠ y) ∧
  BranchesIf 0x0e Instr.bge (fun x y => y.toInt ≤ x.toInt) ∧
  BranchesIf 0x2e Instr.bgeu (fun x y => y.toNat ≤ x.toNat) ∧
  BranchesIf 0x16 Instr.blt (fun x y => x.toInt < y.toInt) ∧
  BranchesIf 0x36 Instr.bltu (fun x y => x.toNat < y.toNat) ∧
  (∀ (s : State) (imm : BitVec 16), branchOffsetOk imm = true → aligned .word s.pc = true →
    decodeWord (iWord 0 0 imm 0x06) = .ok (.br imm) ∧
      GoesTo (exec (.br imm) s) s (s.pc + 4 + BitVec.ofInt 32 imm.toInt))

/-- `call` and `callr` save `pc + 4` in `ra` and go to their target, which `callr` reads first; `nextpc` writes `pc + 4`
(R260, R261, R271; D26). -/
def Obligations.CallsAndNextpc : Prop :=
  ∀ (s : State) (imm26 : BitVec 26) (a c : Reg),
    (∃ t, exec (.call imm26) s = .next t ∧ t.reg 31 = s.pc + 4 ∧
      t.pc.extractLsb' 28 4 = s.pc.extractLsb' 28 4 ∧ t.pc.extractLsb' 2 26 = imm26 ∧ t.pc.extractLsb' 0 2 = 0 ∧
      (∀ q, q ≠ 31#5 → t.reg q = s.reg q) ∧ (∀ x, readByte t.mem x = readByte s.mem x) ∧ OnlyRegs s t) ∧
    (aligned .word (s.reg a) = true →
      ∃ t, exec (.callr a) s = .next t ∧ t.reg 31 = s.pc + 4 ∧ t.pc = s.reg a ∧
        (∀ q, q ≠ 31#5 → t.reg q = s.reg q) ∧ (∀ x, readByte t.mem x = readByte s.mem x) ∧ OnlyRegs s t) ∧
    Writes (exec (.nextpc c) s) s c (s.pc + 4)

/-- `ret` goes to the address in `ra`, `jmp` to the address in its register, and nothing else changes (R262, R263). -/
def Obligations.JumpAndReturn : Prop :=
  ∀ (s : State) (a : Reg),
    (aligned .word (s.reg 31) = true → GoesTo (exec .ret s) s (s.reg 31)) ∧
    (a ≠ 31#5 → aligned .word (s.reg a) = true → GoesTo (exec (.jmp a) s) s (s.reg a))

/-- A control transfer to an address that is not a multiple of 4 is refused, whether by `callr`, `jmp`, `ret`, `br`, a taken
conditional branch, or in supervisor mode `eret` or `bret`; so is `jmp` through r31 (R27, R263; U9, U10; logs 13, 15: the
model's choice where the source says nothing of what happens). -/
def Obligations.TransferStops : Prop :=
  ∀ (s : State) (a : Reg) (imm : BitVec 16),
    exec (.jmp 31) s = .refused .jumpThroughRa ∧
    (aligned .word (s.reg a) = false →
      exec (.callr a) s = .refused (.misalignedTarget (s.reg a)) ∧
      (a ≠ 31#5 → exec (.jmp a) s = .refused (.misalignedTarget (s.reg a)))) ∧
    (aligned .word (s.reg 31) = false → exec .ret s = .refused (.misalignedTarget (s.reg 31))) ∧
    (aligned .word (branchTarget s imm) = false →
      exec (.br imm) s = .refused (.misalignedTarget (branchTarget s imm))) ∧
    BranchStops Instr.beq (fun x y => x = y) ∧ BranchStops Instr.bne (fun x y => x ≠ y) ∧
    BranchStops Instr.bge (fun x y => y.toInt ≤ x.toInt) ∧ BranchStops Instr.bgeu (fun x y => y.toNat ≤ x.toNat) ∧
    BranchStops Instr.blt (fun x y => x.toInt < y.toInt) ∧ BranchStops Instr.bltu (fun x y => x.toNat < y.toNat) ∧
    (s.status.u = false →
      (aligned .word (s.reg 29) = false → exec .eret s = .refused (.misalignedTarget (s.reg 29))) ∧
      (aligned .word (s.reg 30) = false → exec .bret s = .refused (.misalignedTarget (s.reg 30))))

/-! ## Exceptions, breaks, control registers -/

/-- `trap` takes the exception, `break` with any immediate takes the break, with the following instruction as return address
(R290, R292, R334, R350). -/
def Obligations.TrapAndBreak : Prop :=
  ∀ (s : State) (n : BitVec 5),
    TakesException (exec .trap s) s (s.pc + 4) ∧ TakesBreak (exec (.breakpoint n) s) s (s.pc + 4)

/-- In supervisor mode `eret` and `bret` restore `status` from the saved copy and go to the saved address; nothing else
changes (R291, R293, R347). -/
def Obligations.ExceptionAndBreakReturn : Prop :=
  ∀ s : State, s.status.u = false →
    (aligned .word (s.reg 29) = true → ∃ t, exec .eret s = .next t ∧ t.status.pie = s.estatus.pie ∧
      t.status.u = (s.estatus.u && s.cfg.hasUserMode) ∧ t.pc = s.reg 29 ∧
      t = { s with pc := t.pc, status := t.status }) ∧
    (aligned .word (s.reg 30) = true → ∃ t, exec .bret s = .next t ∧ t.status.pie = s.bstatus.pie ∧
      t.status.u = (s.bstatus.u && s.cfg.hasUserMode) ∧ t.pc = s.reg 30 ∧
      t = { s with pc := t.pc, status := t.status })

/-- A trap and the `eret` of its handler bring the program to the instruction after the trap with its `status`, every
register but `ea`, and all memory as they were; a break and its `bret` likewise, with `ba` (R290 to R293, R346, R352). -/
def Obligations.TrapThenReturn : Prop :=
  ∀ (s t : State) (n : BitVec 5), userBitsLegal s = true → aligned .word s.pc = true →
    (exec .trap s = .next t → ∃ u, exec .eret t = .next u ∧ u.pc = s.pc + 4 ∧ u.status = s.status ∧
      (∀ q, q ≠ 29#5 → u.reg q = s.reg q) ∧ u.mem = s.mem ∧ u.bstatus = s.bstatus ∧ u.ienable = s.ienable) ∧
    (exec (.breakpoint n) s = .next t → ∃ u, exec .bret t = .next u ∧ u.pc = s.pc + 4 ∧ u.status = s.status ∧
      (∀ q, q ≠ 30#5 → u.reg q = s.reg q) ∧ u.mem = s.mem ∧ u.estatus = s.estatus ∧ u.ienable = s.ienable)

/-- In user mode each of the six restricted instructions takes the access-violation exception and does nothing else
(R294, R340, D15). -/
def Obligations.AccessViolation : Prop :=
  ∀ (s : State) (a c n : Reg) (imm : BitVec 16) (i : Instr), s.status.u = true → s.cfg.hasUserMode = true →
    i ∈ [Instr.rdctl c n, .wrctl a n, .bret, .eret, .initd a imm, .initi a] →
    TakesException (exec i s) s (s.pc + 4)

/-- Only the mode decides what user-mode code can do to the processor's control state: an instruction executed in user mode
leaves `status`, `estatus`, `bstatus`, `ienable` as they are, or it enters the exception handler or the break handler in
supervisor mode with interrupts off (R294, R340, R360, R361). -/
def Obligations.UserModeConfined : Prop :=
  ∀ (i : Instr) (s t : State), s.status.u = true → s.cfg.hasUserMode = true → exec i s = .next t →
    t.ienable = s.ienable ∧ t.cfg = s.cfg ∧
    ((t.status = s.status ∧ t.estatus = s.estatus ∧ t.bstatus = s.bstatus) ∨
      (t.status = ⟨false, false⟩ ∧ t.estatus = s.status ∧ t.bstatus = s.bstatus ∧ t.pc = s.cfg.exceptionAddr) ∨
      (t.status = ⟨false, false⟩ ∧ t.estatus = s.estatus ∧ t.bstatus = s.status ∧ t.pc = s.cfg.breakAddr))

/-- `rdctl` in supervisor mode reads each of the six control registers (R29 to R36, R296). That bits 31..2 of the three status
registers read 0 is decision D8 (log 9), that `bstatus` reads like any other control register is decision D10 (log 10): the
spec's choices, not the source's. -/
def Obligations.ReadControl : Prop :=
  ∀ (s : State) (c : Reg), s.status.u = false →
    (∃ v, Writes (exec (.rdctl c 0) s) s c v ∧ ∀ i, v.getLsbD i = (decide (i = 0) && s.status.pie)) ∧
    (∃ v, Writes (exec (.rdctl c 1) s) s c v ∧ ∀ i, v.getLsbD i =
      (decide (i = 0) && s.estatus.pie || decide (i = 1) && (s.estatus.u && s.cfg.hasUserMode))) ∧
    (∃ v, Writes (exec (.rdctl c 2) s) s c v ∧ ∀ i, v.getLsbD i =
      (decide (i = 0) && s.bstatus.pie || decide (i = 1) && (s.bstatus.u && s.cfg.hasUserMode))) ∧
    Writes (exec (.rdctl c 3) s) s c s.ienable ∧
    (∃ v, Writes (exec (.rdctl c 4) s) s c v ∧ ∀ i, v.getLsbD i = ((irq s).getLsbD i && s.ienable.getLsbD i)) ∧
    Writes (exec (.rdctl c 5) s) s c s.cfg.cpuid

/-- `wrctl` in supervisor mode: `status`, `estatus`, `bstatus` take bits 1 and 0 (bit 1 only with user mode), `ienable` all
32 bits, `cpuid` is unaffected; nothing but that register and `pc` changes (R29 to R36, R297; D8 to D10). -/
def Obligations.WriteControl : Prop :=
  ∀ (s : State) (a : Reg), s.status.u = false →
    (∃ st : Status, st.pie = (s.reg a).getLsbD 0 ∧ st.u = ((s.reg a).getLsbD 1 && s.cfg.hasUserMode) ∧
      exec (.wrctl a 0) s = .next { s with status := st, pc := s.pc + 4 } ∧
      exec (.wrctl a 1) s = .next { s with estatus := st, pc := s.pc + 4 } ∧
      exec (.wrctl a 2) s = .next { s with bstatus := st, pc := s.pc + 4 }) ∧
    exec (.wrctl a 3) s = .next { s with ienable := s.reg a, pc := s.pc + 4 } ∧
    exec (.wrctl a 5) s = .next { s with pc := s.pc + 4 }

/-- `wrctl` to `ipending` and to ctl6 to ctl31 is refused; `rdctl` of ctl6 to ctl31 completes with an open value
(R34, R36; U3, U4; log 42). -/
def Obligations.AbsentControlRegisters : Prop :=
  ∀ (s : State) (a c n : Reg), s.status.u = false →
    exec (.wrctl a 4) s = .refused .writeIpending ∧
    (6 ≤ n.toNat → exec (.wrctl a n) s = .refused (.noSuchControlRegister n) ∧
      ∃ t v k, t = { s with freeCtr := k } ∧ Writes (exec (.rdctl c n) s) t c v)

/-! ## Cache and pipeline management -/

/-- `flushd` ignores the tag: without a data cache it does nothing; a line that is not dirty becomes invalid; a dirty line
that belongs to RAM is written back to its own address and becomes invalid (R87, R298); the write-back, a change of memory, may
be recorded for the fetches to come (R84, log 22). -/
def Obligations.FlushDataLine : Prop :=
  ∀ (s : State) (a : Reg) (imm : BitVec 16) (k : Nat), k = dIndex s.cfg (effAddr s a imm) →
    (hasDCache s.cfg = false → exec (.flushd a imm) s = .next { s with pc := s.pc + 4 }) ∧
    (hasDCache s.cfg = true → (∀ l, keyGet s.dcache k = some l → l.dirty = false) →
      ∃ t, exec (.flushd a imm) s = .next t ∧ keyGet t.dcache k = none ∧
        (∀ j, j ≠ k → keyGet t.dcache j = keyGet s.dcache j) ∧ (∀ x, readByte t.mem x = readByte s.mem x) ∧
        t = { s with pc := s.pc + 4, dcache := t.dcache }) ∧
    (∀ l ea, hasDCache s.cfg = true → keyGet s.dcache k = some l → l.dirty = true → ea = dLineAddr s.cfg l.tag k →
      ramAt s ea →
      ∃ t, exec (.flushd a imm) s = .next t ∧ keyGet t.dcache k = none ∧
        (∀ j, j ≠ k → keyGet t.dcache j = keyGet s.dcache j) ∧
        (∀ j, j < 4 → readByte t.mem (ea + BitVec.ofNat 32 j) = l.data.extractLsb' (8 * j) 8) ∧
        (∀ x, outside ea 4 x → readByte t.mem x = readByte s.mem x) ∧
        t = { s with pc := s.pc + 4, dcache := t.dcache, mem := t.mem, stale := t.stale })

/-- `initd` in supervisor mode makes the line invalid without a write-back (R88, R300). -/
def Obligations.InitDataLine : Prop :=
  ∀ (s : State) (a : Reg) (imm : BitVec 16), s.status.u = false →
    ∃ t, exec (.initd a imm) s = .next t ∧ (∀ x, readByte t.mem x = readByte s.mem x) ∧
      (∀ j, keyGet t.dcache j = if hasDCache s.cfg = true ∧ j = dIndex s.cfg (effAddr s a imm) then none
        else keyGet s.dcache j) ∧
      t = { s with pc := s.pc + 4, dcache := t.dcache }

/-- `flushi`, and `initi` in supervisor mode, make the instruction-cache line of `x[A]` invalid and no other (R90, R299,
R301). -/
def Obligations.InvalidateInstructionLine : Prop :=
  ∀ (s : State) (a : Reg) (i : Instr), i = .flushi a ∨ (i = .initi a ∧ s.status.u = false) →
    ∃ t, exec i s = .next t ∧ (∀ x, readByte t.mem x = readByte s.mem x) ∧
      (∀ j, keyGet t.icache j = if hasICache s.cfg = true ∧ j = iIndex s.cfg (phys (s.reg a)) then none
        else keyGet s.icache j) ∧
      t = { s with pc := s.pc + 4, icache := t.icache, stale := t.stale }

/-- `sync` changes only `pc`; `flushp` changes only `pc` and the record of words not yet visible to fetches (R79, R302,
R303; D21). -/
def Obligations.SyncAndFlushp : Prop :=
  ∀ s : State, GoesTo (exec .sync s) s (s.pc + 4) ∧
    ∃ t, exec .flushp s = .next t ∧ (∀ e, e ∈ t.stale ↔ e ∈ s.stale ∧ e.lineFlushed = false) ∧
      t = { s with pc := s.pc + 4, stale := t.stale }

/-- After a word is stored past the data cache into RAM that the instruction master reaches, whatever the data cache holds for
it, `flushi` of its line and `flushp` make the next fetch of its address return it (R84). In states where a core without
instruction cache holds no word back, which InvKept shows to be all that are reached. -/
def Obligations.NewInstructionFetched : Prop :=
  ∀ (s t u v : State) (a b r : Reg) (imm : BitVec 16) (ea : Word), staleLegal s = true →
    ea = effAddr s a imm → ramAt s ea → (findRegion s.cfg Region.instr ea).isSome = true →
    exec (.stwio a b imm) s = .next t → t.reg r = ea →
    exec (.flushi r) t = .next u → exec .flushp u = .next v →
    (fetchOf v ea).1 = s.reg b

/-! ## Custom -/

/-- `custom` with a number that has logic: the logic's state becomes what its function says, the result goes to `x[C]` where
`writerc` is set, an operand is passed only where its read bit is set; a number without logic is refused (R320, D19). -/
def Obligations.CustomInstruction : Prop :=
  ∀ (s : State) (a b c : Reg) (ra rb wc : Bool) (n : BitVec 8),
    (n.toNat ∈ s.cfg.customPresent →
      ∃ call r t, call = CustomCall.mk n a b c ra rb wc (if ra then some (s.reg a) else none)
          (if rb then some (s.reg b) else none) ∧
        r = Config.customFn call s.custom ∧ t = { s with custom := r.2 } ∧
        (wc = true → Writes (exec (.custom a b c ra rb wc n) s) t c r.1) ∧
        (wc = false → GoesTo (exec (.custom a b c ra rb wc n) s) t (s.pc + 4))) ∧
    (n.toNat ∉ s.cfg.customPresent → exec (.custom a b c ra rb wc n) s = .refused (.noSuchCustom n))

/-! ## The machine -/

/-- Register 0 reads 0 in every state, and writing it changes nothing; another register reads what was written (R20, R21). -/
def Obligations.ZeroRegister : Prop :=
  ∀ (s : State) (r q : Reg) (v : Word), s.reg 0 = 0 ∧ s.setReg 0 v = s ∧
    (r ≠ 0 → (s.setReg r v).reg r = v) ∧ (q ≠ r → (s.setReg r v).reg q = s.reg q)

/-- Where the events of the boundary leave nothing else to do, a step is the decoded instruction executed on the state the
fetch leaves, which differs only in the instruction cache and the count of free values; besides, the debug module, where the
debugger has set triggers or trace up, may request a break, become armed, drive its output or capture (logs 47, 49); a word
that is no instruction is refused (R109, R111, R337; the refusal is U8's, log 14). -/
def Obligations.StepRunsInstruction : Prop :=
  ∀ (s t u : State) (w : Word), takeEvents s = .ok t → nextAction t = .instruction → fetch t = .ok (w, u) →
    u = { t with icache := u.icache, freeCtr := u.freeCtr } ∧
    (∀ i, decodeWord w = .ok i →
      (∀ x, exec i u = .next x →
        ∃ y, step s = .next y ∧
          y = { x with hwBreak := y.hwBreak, armed := y.armed, triggerOut := y.triggerOut, trace := y.trace } ∧
          (u.cfg.debugLevel = .noDebug ∨ u.execTriggers = [] ∧ u.dataTriggers = [] ∧ u.trace.on = false →
            y = { x with triggerOut := false })) ∧
      (∀ f, exec i u = .fault f → step s = .fault f) ∧ (∀ q, exec i u = .refused q → step s = .refused q)) ∧
    (∀ e, decodeWord w = .error e → step s = .refused (.reservedEncoding w))

/-- A fetch from memory of a word about which nothing is stale, on a core without an instruction cache or with no line that
holds it, returns the four bytes at `pc`, the lowest address least significant; after it the same address hits with the same
word on a core with an instruction cache (R61, R63, R89). -/
def Obligations.FetchReadsMemory : Prop :=
  ∀ (s : State) (r : Region), aligned .word s.pc = true → findRegion s.cfg Region.instr s.pc = some r →
    (r.kind = .ram ∨ r.kind = .rom ∨ r.kind = .flash) → (∀ e ∈ s.stale, e.addr ≠ phys s.pc) →
    (hasICache s.cfg = true →
      ∀ l, keyGet s.icache (iIndex s.cfg (phys s.pc)) = some l → l.tag ≠ iTag s.cfg (phys s.pc)) →
    ∃ w t, fetch s = .ok (w, t) ∧ w.toNat = bytesValue s.mem s.pc 4 ∧
      (hasICache s.cfg = true → ∀ m, ∃ t', fetch { t with mem := m } = .ok (w, t'))

/-- A hardware interrupt is pending exactly when PIE is 1 and some interrupt input is asserted whose `ienable` bit is 1
(R336). -/
def Obligations.InterruptCondition : Prop :=
  ∀ s : State, interruptPending s = true ↔
    s.status.pie = true ∧ ∃ n, n < 32 ∧ (irq s).getLsbD n = true ∧ s.ienable.getLsbD n = true

/-- Interrupt input n is asserted exactly when it is connected outside and driven from there, or a peripheral wired to it asserts
its output; so an unconnected input is never asserted (R39, R338, R400; D2). -/
def Obligations.InterruptInputs : Prop :=
  ∀ (s : State) (n : Nat), n < 32 →
    ((irq s).getLsbD n = true ↔
      s.irqLines.getLsbD n = true ∧ s.cfg.irqOutside.getLsbD n = true ∨ ∃ d ∈ s.devices, d.irqN = some n ∧ d.core.irq = true)

/-- What a step does at the boundary, in the order of R344: a system reset; else a requested hardware break, with `ba` four
bytes after the instruction about to execute; else a pending interrupt, with `ea` likewise; else the instruction (decisions
D13, D14, D20; logs 25, 26). A break is requested, on a core with a debug module, by the host or a data trigger (`hwBreak`)
or by one of as many execution breakpoints as the debug level has, on the instruction about to execute (R351, R366, R367). That
all 32 bits of the address count, that the first breakpoints of the list are the ones that count, and how arming works, is the
model's choice (log 47). A configuration whose reset, exception or break address is not a multiple of 4 in memory that the
instruction master reads is refused in every state (R562; decision D1, log 2). -/
def Obligations.BoundaryOrder : Prop :=
  (∀ (s : State) (a : Word), a = s.cfg.resetAddr ∨ a = s.cfg.exceptionAddr ∨ a = s.cfg.breakAddr →
    (a.toNat % 4 ≠ 0 ∨ ∀ r, findRegion s.cfg Region.instr a = some r → r.kind ≠ .ram ∧ r.kind ≠ .rom ∧ r.kind ≠ .flash) →
    step s = .refused .illegalConfiguration) ∧
  ∀ s t : State, takeEvents s = .ok t →
    (t.resetReq = true → step s = .next (systemReset t)) ∧
    (t.resetReq = false → breakRequested t = true → TakesBreak (step s) { t with hwBreak := false } (t.pc + 4)) ∧
    (t.resetReq = false → breakRequested t = false → interruptPending t = true →
      TakesException (step s) t (t.pc + 4)) ∧
    (t.resetReq = false → breakRequested t = false → interruptPending t = false → step s = runInstruction t) ∧
    (breakRequested t = true ↔ t.cfg.debugLevel ≠ .noDebug ∧ (t.hwBreak = true ∨
      ∃ e ∈ t.execTriggers.take (triggerCapacity t.cfg),
        e.addr = t.pc ∧ (e.needsArmed = true → t.armed = true) ∧ e.action = .takeBreak))

/-- After reset: `status` is 0, `pc` is the reset address, register 0 is 0, the instruction-cache line of the reset address
is invalid, nothing is prefetched (R45, R560; the last as log 22 has it, an empty record of stored words). -/
def Obligations.ResetState : Prop :=
  State.reset.status = ⟨false, false⟩ ∧ State.reset.pc = State.reset.cfg.resetAddr ∧ State.reset.reg 0 = 0 ∧
    keyGet State.reset.icache (iIndex State.reset.cfg (phys State.reset.cfg.resetAddr)) = none ∧ State.reset.stale = []

/-- A system reset of a running machine leaves the same, reads `cpuid` as before, keeps memory (the model's choice, log 29),
and puts the peripherals to every reset value that is stated: a timer's period to its initial value, a watchdog stopped, a
timer without Start/Stop running, a PIO to direction 0 and mask 0, a mutex to its initial owner and value with RESET 1, a UART's
interrupt enables and `endofpacket` to 0 and its divisor to the default, an SPI's `control` to 0 and `slaveselect` to 1 (R45,
R409, R426, R446, R496, R497, R517, R560). -/
def Obligations.SystemReset : Prop :=
  ∀ (s t : State), t = systemReset s →
    t.status = ⟨false, false⟩ ∧ t.pc = s.cfg.resetAddr ∧ t.reg 0 = 0 ∧ t.cfg = s.cfg ∧ t.stale = [] ∧
    keyGet t.icache (iIndex s.cfg (phys s.cfg.resetAddr)) = none ∧ t.mem = s.mem ∧
    (∀ i d, deviceAt t.devices i = some (.timer d) → d.period = d.opts.fixedPeriod ∧
      (d.opts.watchdog = true → d.running = false) ∧
      (d.opts.watchdog = false → d.opts.startStop = false → d.running = true)) ∧
    (∀ i d, deviceAt t.devices i = some (.pio d) → d.direction = 0 ∧ d.interruptmask = 0) ∧
    (∀ i d, deviceAt t.devices i = some (.mutex d) →
      mutexOwner d.mutex = d.initialOwner ∧ mutexValue d.mutex = d.initialValue ∧ d.reset = true) ∧
    (∀ i d, deviceAt t.devices i = some (.uart d) → d.control &&& 0x15ff = 0 ∧ d.endofpacket = 0 ∧
      d.divisor = d.opts.defaultDivisor) ∧
    (∀ i d, deviceAt t.devices i = some (.spi d) → d.control = 0 ∧ d.slaveselect = 1)

/-- The invariant of Safety.lean holds after reset. -/
def Obligations.InvAtReset : Prop := Inv State.reset

/-- Every step keeps the invariant and the configuration: memory and caches stay in canonical form, register 0 stays 0, `pc`
stays a multiple of 4, the user-mode bits stay legal. -/
def Obligations.InvKept : Prop :=
  ∀ s t : State, Inv s → step s = .next t → Inv t ∧ t.cfg = s.cfg

/-! ## Peripherals -/

/-- A running timer whose counter holds n sets TO, and reloads its counter from the period, in its (n + 1)-st clock cycle,
and not before (R404, R406). That it is the cycle of the reload and not the one in which the counter becomes 0, which the source
does not distinguish, is the model's choice (log 33). -/
def Obligations.TimerPeriod : Prop :=
  ∀ (d : Timer) (n : Nat), d.running = true → d.timeout = false → d.counter.toNat = n →
    (∀ k, k ≤ n → ((fun e => (Timer.cycle e).1)^[k] d).timeout = false) ∧
    ((fun e => (Timer.cycle e).1)^[n + 1] d).timeout = true ∧
    ((fun e => (Timer.cycle e).1)^[n + 1] d).counter = d.period

/-- The timer's interrupt output is TO and ITO: it rises in the cycle of a running counter at zero with ITO 1, and falls when
zero is written to `status`, which leaves RUN alone, or `control` is written with ITO 0 (R402, R406, R407; that it rises in this
cycle is the model's choice, log 33). -/
def Obligations.TimerInterrupt : Prop :=
  ∀ d : Timer, (d.irq = true ↔ d.timeout = true ∧ d.ito = true) ∧
    (d.running = true → d.counter = 0 → d.ito = true → d.cycle.1.irq = true) ∧
    (∃ e, d.write 0 0 0xffffffff = .ok e ∧ e.irq = false ∧ e.running = d.running) ∧
    (∀ e v, v.getLsbD 0 = false → d.write 1 v 0xffffffff = .ok e → e.irq = false)

/-- The `mutex` register is always readable, and a write changes it only if VALUE is zero or OWNER matches (R442). -/
def Obligations.MutexTestAndSet : Prop :=
  ∀ (d : Mutex) (v x : Word), d.read 0 x = d.mutex ∧
    ∃ e, d.write 0 v 0xffffffff = .ok e ∧
      e = { d with mutex :=
        if d.mutex.extractLsb' 0 16 = 0#16 ∨ d.mutex.extractLsb' 16 16 = v.extractLsb' 16 16 then v else d.mutex }

/-- The DMA controller's interrupt output is DONE and I_EN; a write of zero to `status` clears DONE, LEN, REOP, WEOP and so
the interrupt; a read of `status` shows the five bits and changes nothing (R452, R457). That such a write while BUSY does the
same and lets the transaction go on, which R456 does not state, is the model's choice (log 35). -/
def Obligations.DmaInterrupt : Prop :=
  ∀ (d : Dma) (x : Word), (d.irq = true ↔ d.done = true ∧ d.control.getLsbD 4 = true) ∧
    (∃ e, d.write 0 0 0xffffffff x = .ok e ∧ e.irq = false ∧
      e = { d with done := false, len := false, reop := false, weop := false }) ∧
    (d.read 0 x).getLsbD 0 = d.done ∧ (d.read 0 x).getLsbD 1 = d.busy ∧ (d.read 0 x).getLsbD 2 = d.reop ∧
    (d.read 0 x).getLsbD 3 = d.weop ∧ (d.read 0 x).getLsbD 4 = d.len

/-- A DMA transaction by words between two places in RAM. An active controller that is not busy sets it up from its registers.
With an empty FIFO and one word to move, or a FIFO of depth 1, the first clock cycle reads and changes no memory; after the second
the word of the read address is at the write address, no other byte of memory changes, the length is four less, and at length
zero with LEEN the transaction is done (R454 to R456; one bus transfer a cycle is the model's choice, log 35). -/
def Obligations.DmaMovesWord : Prop :=
  ∀ (s : State) (i : Nat) (d b : Dma), deviceAt s.devices i = some (.dma d) → d.active = true → b = d.begin s.freeNow →
    (d.busy = false → d.width = some 4 → d.legal = true → b = { d with
      busy := true, readCur := d.readStart, writeCur := d.writeStart, fifo := [], readPart := 0, writePart := 0,
      readEnd := false, writeEnd := false, unit := 4, mode := d.control }) ∧
    ∀ ra wa : Region, b.unit = 4 → 4 ≤ d.length.toNat →
      b.fifo = [] → b.readPart = 0 → b.writePart = 0 → b.readEnd = false → b.writeEnd = false →
      (d.length.toNat = 4 ∧ 0 < d.opts.fifoDepth ∨ d.opts.fifoDepth = 1) →
      findRegion s.cfg (dmaReadPort i) b.readCur = some ra → ra.kind = .ram →
      findRegion s.cfg (dmaWritePort i) b.writeCur = some wa → wa.kind = .ram →
      ∃ r t e, dmaCycle s i = .ok r ∧ r.mem = s.mem ∧ dmaCycle r i = .ok t ∧ deviceAt t.devices i = some (.dma e) ∧
        bytesValue t.mem b.writeCur 4 = bytesValue s.mem b.readCur 4 ∧
        (∀ x, outside b.writeCur 4 x → readByte t.mem x = readByte s.mem x) ∧
        e.length.toNat = d.length.toNat - 4 ∧
        e.readCur = (if b.mode.getLsbD 8 then b.readCur else b.readCur + 4) ∧
        e.writeCur = (if b.mode.getLsbD 9 then b.writeCur else b.writeCur + 4) ∧
        (d.length.toNat = 4 → b.mode.getLsbD 7 = true → e.done = true ∧ e.busy = false ∧ e.len = true)

/-- The edge capture bit of a PIO's input port (in a bidirectional core, one with direction 0) is set in a clock cycle by an
edge of the configured type on its pin since the clock cycle before; a bit that is set stays through pin changes, clock cycles and
writes of every other register, until a write of `edgecapture`, of any value, clears all of them (R424). That the levels at the
two clock cycles alone are compared is the model's choice (log 34). -/
def Obligations.PioEdgeCapture : Prop :=
  ∀ (d : Pio) (u v x : Word) (i : Nat), d.opts.kind ≠ .outputOnly →
    (d.opts.kind = .bidirectional → d.direction.getLsbD i = false) → i < d.opts.width → i < 32 →
    ∀ e f : Pio, (Core.pio (d.setPins u)).cycle x = (.pio e, false) → (Core.pio (e.setPins v)).cycle x = (.pio f, false) →
    (d.opts.capture = some .rising → f.edgecapture.getLsbD i =
      (e.edgecapture.getLsbD i || (!u.getLsbD i && v.getLsbD i))) ∧
    (d.opts.capture = some .falling → f.edgecapture.getLsbD i =
      (e.edgecapture.getLsbD i || (u.getLsbD i && !v.getLsbD i))) ∧
    (d.opts.capture = some .either → f.edgecapture.getLsbD i =
      (e.edgecapture.getLsbD i || (u.getLsbD i != v.getLsbD i))) ∧
    (d.edgecapture.getLsbD i = true → (d.setPins v).edgecapture.getLsbD i = true ∧ e.edgecapture.getLsbD i = true ∧
      ∀ off w m, off ≠ 3 → (d.write off w m).edgecapture.getLsbD i = true) ∧
    (d.opts.capture ≠ none → ∀ w, (d.write 3 w 0xffffffff).edgecapture = 0)

/-- A read of the JTAG UART's `data` takes the oldest character and shows it with RVALID and the number left; with nothing
there RVALID and RAVAIL are 0; a write with the reserved bits zero appends a character unless the write FIFO is full (R481,
R482). -/
def Obligations.JtagUartData : Prop :=
  ∀ (d : JtagUart) (x v : Word) (c : Byte) (rest : List Byte),
    (d.readFifo = c :: rest → rest.length < 2 ^ 16 →
      (d.read 0 x).2 = { d with readFifo := rest } ∧ (d.read 0 x).1.extractLsb' 0 8 = c ∧
      (d.read 0 x).1.getLsbD 15 = true ∧ ((d.read 0 x).1.extractLsb' 16 16).toNat = rest.length) ∧
    (d.readFifo = [] → (d.read 0 x).2 = d ∧ (d.read 0 x).1.getLsbD 15 = false ∧ (d.read 0 x).1.extractLsb' 16 16 = 0) ∧
    (v &&& 0x7f00 = 0 → d.write 0 v 0xffffffff = .ok { d with
      writeFifo :=
        if d.writeFifo.length < d.opts.writeDepth then d.writeFifo ++ [v.extractLsb' 0 8] else d.writeFifo })

/-- A character written to an idle UART, cut to the data bits, is in `txdata` with TRDY 0, one clock cycle later in the shift
register with TRDY 1 and TMT 0, and TMT is 1 again after the cycles of one character and not before (R493, R494; how long a
character takes is log 37's). -/
def Obligations.UartTransmits : Prop :=
  ∀ (d e : Uart) (v x : Word), d.trdy = true → d.txLeft = 0 → d.write 1 v 0xffffffff x = .ok e →
    (∀ i, i < 9 → e.txdata.getLsbD i = (decide (i < d.opts.dataBits) && v.getLsbD i)) ∧
    e.trdy = false ∧ e.cycle.trdy = true ∧ e.cycle.txShift = e.txdata ∧ e.cycle.txLeft = d.charCycles ∧
    (Uart.cycle^[d.charCycles] e.cycle).txLeft = 0 ∧
    ∀ k, k < d.charCycles → (Uart.cycle^[k] e.cycle).txLeft ≠ 0

/-- The UART's interrupt output is high exactly when one of the bits 0 to 8, 10, 12 is set in `status` and in `control`
(R497). -/
def Obligations.UartInterrupt : Prop :=
  ∀ d : Uart, d.irq = true ↔
    ∃ n ∈ [0, 1, 2, 3, 4, 5, 6, 7, 8, 10, 12], d.statusWord.getLsbD n = true ∧ d.control.getLsbD n = true

/-- A word that arrives in an SPI core sets RRDY; with RRDY already set it sets ROE (R512, R514); a read of `rxdata` clears
RRDY and shows the word, a write of any value to `status` clears ROE, TOE and E, and a write of `txdata` while it is full
sets TOE and is ignored (R512 to R514). -/
def Obligations.SpiReceive : Prop :=
  ∀ (d : Spi) (w : BitVec 16) (x v : Word),
    (d.receive w x).rrdy = true ∧ (d.receive w x).roe = (d.roe || d.rrdy) ∧
    (d.rrdy = false → d.opts.width = 16 → (d.receive w x).rxdata = w) ∧
    (d.read 0 x).2 = { d with rrdy := false } ∧
    (∀ i, i < d.opts.width → i < 16 → (d.read 0 x).1.getLsbD i = d.rxdata.getLsbD i) ∧
    d.write 2 v 0xffffffff = .ok { d with roe := false, toe := false } ∧
    (d.trdy = false → d.write 1 v 0xffffffff = .ok { d with toe := true })

end
end

