-- ==== Sys2Proof/Laws/Abi.lean ====
section
/-! SUPPORT. Each section of a frame is aligned to a 32-bit boundary (R283): what the definitions of Abi.lean give is a multiple
of 4 bytes, so that an SP that is aligned stays so. -/

namespace Sys2Proof.Abi

open Sys2Proof Sys2Proof.Machine

theorem dvd_roundUp (n a : Nat) : a ∣ roundUp n a := Dvd.intro_left _ rfl

theorem dvd_frame (f : Function) : 4 ∣ f.frame :=
  Nat.dvd_add (Nat.dvd_add (dvd_roundUp _ _) (dvd_roundUp _ _)) (Nat.dvd_mul_right _ _)

theorem dvd_stackBytes (f : Function) : 4 ∣ f.stackBytes := by
  unfold Function.stackBytes
  refine Nat.dvd_add (dvd_frame f) ?_
  split <;> decide

/-- Every saved register stands in an aligned word of the frame. -/
theorem dvd_saveSlots {f : Function} {p : Reg × Nat} (h : p ∈ saveSlots f.frame f.saved) : 4 ∣ p.2 := by
  obtain ⟨k, hk, rfl⟩ := List.mem_mapIdx.mp h
  exact Nat.dvd_sub (dvd_frame f) (Nat.dvd_mul_right _ _)

/-- `alloca()` leaves an aligned SP aligned, and gives an aligned block. -/
theorem allocaBlock_aligned {sp : Word} {outgoing size : Nat} (h : 4 ∣ sp.toNat) :
    4 ∣ (allocaBlock sp outgoing size).1.toNat ∧ 4 ∣ (allocaBlock sp outgoing size).2.toNat := by
  have hs := dvd_roundUp size 4
  have ho := dvd_roundUp outgoing 4
  simp only [allocaBlock, BitVec.toNat_add, BitVec.toNat_sub, BitVec.toNat_ofNat]
  omega

end Sys2Proof.Abi
end

