-- ==== Sys2Proof/Laws/Memory.lean ====
section
/-! SUPPORT. The laws of lists sorted by key and of memory: read after write, untouched places, the canonical form. -/

namespace Sys2Proof.Machine

/-! ## Lists sorted by key -/

/-- What any key holds after a `keySet`. -/
theorem keyGet_keySet {α : Type} (l : List (Nat × α)) (k j : Nat) (v : α) :
    keyGet (keySet l k v) j = if j = k then some v else keyGet l j := by
  induction l with
  | nil => simp [keySet, keyGet, eq_comm]
  | cons e t ih =>
    obtain ⟨i, u⟩ := e
    simp only [keySet]
    split
    · simp only [keyGet, eq_comm (a := k)]
    · split
      · next h => subst h; simp only [keyGet, eq_comm (a := i)]; split <;> rfl
      · next h =>
        simp only [keyGet, ih]
        split
        · next h' => subst h'; simp [h]
        · rfl

/-- What any key holds after a `keyErase`. -/
theorem keyGet_keyErase {α : Type} (l : List (Nat × α)) (k j : Nat) :
    keyGet (keyErase l k) j = if j = k then none else keyGet l j := by
  induction l with
  | nil => simp [keyErase, keyGet]
  | cons e t ih =>
    obtain ⟨i, u⟩ := e
    simp only [keyErase]
    split
    · next h => subst h; rw [ih]; simp only [keyGet, eq_comm (a := i)]; split <;> simp_all
    · next h =>
      simp only [keyGet, ih]
      split
      · next h' => subst h'; simp [h]
      · rfl

/-- Every entry of a list after a `keySet` is the new one or an old one. -/
theorem mem_keySet {α : Type} {l : List (Nat × α)} {k : Nat} {v : α} {e : Nat × α} (h : e ∈ keySet l k v) :
    e = (k, v) ∨ e ∈ l := by
  induction l with
  | nil => simpa [keySet] using h
  | cons d t ih =>
    obtain ⟨i, u⟩ := d
    simp only [keySet] at h
    split at h
    · simpa using h
    · split at h
      · simp only [List.mem_cons] at h ⊢; tauto
      · simp only [List.mem_cons] at h ⊢
        rcases h with h | h
        · tauto
        · rcases ih h with h | h <;> tauto

/-- Every entry of a list after a `keyErase` is an old one. -/
theorem mem_keyErase {α : Type} {l : List (Nat × α)} {k : Nat} {e : Nat × α} (h : e ∈ keyErase l k) : e ∈ l := by
  induction l with
  | nil => simp [keyErase] at h
  | cons d t ih =>
    obtain ⟨i, u⟩ := d
    simp only [keyErase] at h
    split at h
    · exact List.mem_cons_of_mem _ (ih h)
    · simp only [List.mem_cons] at h ⊢
      exact h.imp_right ih

/-- `keysRising` of a list with a first entry. -/
theorem keysRising_cons {α : Type} (k : Nat) (v : α) (t : List (Nat × α)) :
    keysRising ((k, v) :: t) = true ↔ (∀ e ∈ t, k < e.1) ∧ keysRising t = true := by
  simp [keysRising]

/-- `keySet` keeps the order. -/
theorem keysRising_keySet {α : Type} {l : List (Nat × α)} (h : keysRising l = true) (k : Nat) (v : α) :
    keysRising (keySet l k v) = true := by
  induction l with
  | nil => simp [keySet, keysRising]
  | cons d t ih =>
    obtain ⟨i, u⟩ := d
    rw [keysRising_cons] at h
    simp only [keySet]
    split
    · next hlt =>
      rw [keysRising_cons, keysRising_cons]
      refine ⟨fun e he => ?_, h⟩
      rcases List.mem_cons.mp he with rfl | he
      · exact hlt
      · exact hlt.trans (h.1 e he)
    · split
      · next heq => subst heq; rw [keysRising_cons]; exact h
      · rw [keysRising_cons]
        refine ⟨fun e he => ?_, ih h.2⟩
        rcases mem_keySet he with rfl | he
        · simp only; omega
        · exact h.1 e he

/-- `keyErase` keeps the order. -/
theorem keysRising_keyErase {α : Type} {l : List (Nat × α)} (h : keysRising l = true) (k : Nat) :
    keysRising (keyErase l k) = true := by
  induction l with
  | nil => rfl
  | cons d t ih =>
    obtain ⟨i, u⟩ := d
    rw [keysRising_cons] at h
    simp only [keyErase]
    split
    · exact ih h.2
    · rw [keysRising_cons]
      exact ⟨fun e he => h.1 e (mem_keyErase he), ih h.2⟩

/-! ## One byte -/

/-- What any byte reads after a byte is written. -/
theorem readByte_writeByte (m : List Host.Cell) (a c : Word) (b : Byte) :
    readByte (writeByte m a b) c = if phys c = phys a then b else readByte m c := by
  unfold readByte writeByte
  split
  · next h => rw [keyGet_keyErase]; split <;> simp [h]
  · rw [keyGet_keySet]; split <;> simp

/-- A byte write keeps the canonical form. -/
theorem Memory.wf_writeByte {m : List Host.Cell} (h : Memory.wf m = true) (a : Word) (b : Byte) :
    Memory.wf (writeByte m a b) = true := by
  simp only [Memory.wf, Bool.and_eq_true, List.all_eq_true, decide_eq_true_eq, bne_iff_ne] at h ⊢
  unfold writeByte
  split
  · exact ⟨keysRising_keyErase h.1 _, fun e he => h.2 e (mem_keyErase he)⟩
  · next hb =>
    refine ⟨keysRising_keySet h.1 _ _, fun e he => ?_⟩
    rcases mem_keySet he with rfl | he
    · exact ⟨Nat.mod_lt _ (by decide), hb⟩
    · exact h.2 e he

/-- Memory with nothing listed is in canonical form. -/
theorem Memory.wf_nil : Memory.wf [] = true := rfl

/-! ## Accesses of several bytes -/

/-- A write of any width keeps the canonical form. -/
theorem Memory.wf_writeMem {m : List Host.Cell} (h : Memory.wf m = true) (a : Word) (w : Width) (v : Word) :
    Memory.wf (writeMem m a w v) = true := by
  cases w <;> simp only [writeMem] <;> repeat' apply Memory.wf_writeByte
  all_goals exact h

/-- A byte of a write of any width, at distance `k` from its address. -/
theorem phys_add_inj (a : Word) (i j : Nat) (hi : i < 4) (hj : j < 4) (h : i ≠ j) :
    phys (a + BitVec.ofNat 32 i) ≠ phys (a + BitVec.ofNat 32 j) := by
  simp only [phys, BitVec.toNat_add, BitVec.toNat_ofNat]
  have := a.isLt
  omega

/-- A byte outside a written range reads as before. -/
theorem readByte_writeMem_outside (m : List Host.Cell) (a c : Word) (w : Width) (v : Word)
    (h : ∀ k, k < w.bytes → phys c ≠ phys (a + BitVec.ofNat 32 k)) :
    readByte (writeMem m a w v) c = readByte m c := by
  have h0 : 0 < w.bytes → phys c ≠ phys a := fun hk => by simpa using h 0 hk
  cases w <;> simp only [writeMem, readByte_writeByte, Width.bytes] at *
  · simp [h0]
  · have h1 := h 1 (by omega)
    simp_all
  · have h1 := h 1 (by omega)
    have h2 := h 2 (by omega)
    have h3 := h 3 (by omega)
    simp_all

/-- Byte `k` of a written range reads as byte `k` of the value. -/
theorem readByte_writeMem_inside (m : List Host.Cell) (a : Word) (w : Width) (v : Word) (k : Nat) (hk : k < w.bytes) :
    readByte (writeMem m a w v) (a + BitVec.ofNat 32 k) = v.extractLsb' (8 * k) 8 := by
  have d10 := phys_add_inj a 1 0 (by omega) (by omega) (by omega)
  have d20 := phys_add_inj a 2 0 (by omega) (by omega) (by omega)
  have d21 := phys_add_inj a 2 1 (by omega) (by omega) (by omega)
  have d30 := phys_add_inj a 3 0 (by omega) (by omega) (by omega)
  have d31 := phys_add_inj a 3 1 (by omega) (by omega) (by omega)
  have d32 := phys_add_inj a 3 2 (by omega) (by omega) (by omega)
  simp only [BitVec.add_zero] at d10 d20 d21 d30 d31 d32
  cases w <;> simp only [writeMem, readByte_writeByte, Width.bytes] at hk ⊢ <;> interval_cases k <;>
    simp_all [eq_comm]

/-- A word built from bytes, byte by byte. -/
theorem wordOfBytes_extract (b0 b1 b2 b3 : Byte) :
    (wordOfBytes b0 b1 b2 b3).extractLsb' 0 8 = b0 ∧ (wordOfBytes b0 b1 b2 b3).extractLsb' 8 8 = b1 ∧
      (wordOfBytes b0 b1 b2 b3).extractLsb' 16 8 = b2 ∧ (wordOfBytes b0 b1 b2 b3).extractLsb' 24 8 = b3 := by
  refine ⟨?_, ?_, ?_, ?_⟩ <;> (ext i hi; simp [wordOfBytes]; interval_cases i <;> simp)

/-- The bytes of a word make the word. -/
theorem wordOfBytes_of_extract (v : Word) :
    wordOfBytes (v.extractLsb' 0 8) (v.extractLsb' 8 8) (v.extractLsb' 16 8) (v.extractLsb' 24 8) = v := by
  ext i hi
  simp [wordOfBytes]
  interval_cases i <;> simp

/-- A word read back where it was written. -/
theorem readMem_writeMem_word (m : List Host.Cell) (a : Word) (v : Word) :
    readMem (writeMem m a .word v) a .word = v := by
  have h := readByte_writeMem_inside m a .word v
  have h0 := h 0 (by decide)
  have h1 := h 1 (by decide)
  have h2 := h 2 (by decide)
  have h3 := h 3 (by decide)
  simp only [BitVec.add_zero, Nat.mul_zero, Nat.mul_one, Nat.reduceMul] at h0 h1 h2 h3
  simp only [readMem, BitVec.ofNat_eq_ofNat, h0, h1, h2, h3, wordOfBytes_of_extract]

end Sys2Proof.Machine
end

