-- ==== Sys2Proof/Laws/State.lean ====
section
/-! SUPPORT. What the small updates of the state do to each field. -/

namespace Sys2Proof.Machine

/-! ## setPc -/

@[simp] theorem setPc_pc (s : State) (a : Word) : (s.setPc a).pc = a := rfl
@[simp] theorem setPc_cfg (s : State) (a : Word) : (s.setPc a).cfg = s.cfg := rfl
@[simp] theorem setPc_regs (s : State) (a : Word) : (s.setPc a).regs = s.regs := rfl
@[simp] theorem setPc_status (s : State) (a : Word) : (s.setPc a).status = s.status := rfl
@[simp] theorem setPc_estatus (s : State) (a : Word) : (s.setPc a).estatus = s.estatus := rfl
@[simp] theorem setPc_bstatus (s : State) (a : Word) : (s.setPc a).bstatus = s.bstatus := rfl
@[simp] theorem setPc_ienable (s : State) (a : Word) : (s.setPc a).ienable = s.ienable := rfl
@[simp] theorem setPc_irqLines (s : State) (a : Word) : (s.setPc a).irqLines = s.irqLines := rfl
@[simp] theorem setPc_icache (s : State) (a : Word) : (s.setPc a).icache = s.icache := rfl
@[simp] theorem setPc_dcache (s : State) (a : Word) : (s.setPc a).dcache = s.dcache := rfl
@[simp] theorem setPc_stale (s : State) (a : Word) : (s.setPc a).stale = s.stale := rfl
@[simp] theorem setPc_custom (s : State) (a : Word) : (s.setPc a).custom = s.custom := rfl
@[simp] theorem setPc_mem (s : State) (a : Word) : (s.setPc a).mem = s.mem := rfl
@[simp] theorem setPc_devices (s : State) (a : Word) : (s.setPc a).devices = s.devices := rfl
@[simp] theorem setPc_hwBreak (s : State) (a : Word) : (s.setPc a).hwBreak = s.hwBreak := rfl
@[simp] theorem setPc_execTriggers (s : State) (a : Word) : (s.setPc a).execTriggers = s.execTriggers := rfl
@[simp] theorem setPc_dataTriggers (s : State) (a : Word) : (s.setPc a).dataTriggers = s.dataTriggers := rfl
@[simp] theorem setPc_armed (s : State) (a : Word) : (s.setPc a).armed = s.armed := rfl
@[simp] theorem setPc_triggerOut (s : State) (a : Word) : (s.setPc a).triggerOut = s.triggerOut := rfl
@[simp] theorem setPc_trace (s : State) (a : Word) : (s.setPc a).trace = s.trace := rfl
@[simp] theorem setPc_resetReq (s : State) (a : Word) : (s.setPc a).resetReq = s.resetReq := rfl
@[simp] theorem setPc_env (s : State) (a : Word) : (s.setPc a).env = s.env := rfl
@[simp] theorem setPc_freeCtr (s : State) (a : Word) : (s.setPc a).freeCtr = s.freeCtr := rfl
@[simp] theorem setPc_reg (s : State) (a : Word) (r : Reg) : (s.setPc a).reg r = s.reg r := rfl

/-! ## drawn -/

@[simp] theorem drawn_cfg (s : State) (n : Nat) : (s.drawn n).cfg = s.cfg := rfl
@[simp] theorem drawn_regs (s : State) (n : Nat) : (s.drawn n).regs = s.regs := rfl
@[simp] theorem drawn_pc (s : State) (n : Nat) : (s.drawn n).pc = s.pc := rfl
@[simp] theorem drawn_status (s : State) (n : Nat) : (s.drawn n).status = s.status := rfl
@[simp] theorem drawn_estatus (s : State) (n : Nat) : (s.drawn n).estatus = s.estatus := rfl
@[simp] theorem drawn_bstatus (s : State) (n : Nat) : (s.drawn n).bstatus = s.bstatus := rfl
@[simp] theorem drawn_ienable (s : State) (n : Nat) : (s.drawn n).ienable = s.ienable := rfl
@[simp] theorem drawn_irqLines (s : State) (n : Nat) : (s.drawn n).irqLines = s.irqLines := rfl
@[simp] theorem drawn_icache (s : State) (n : Nat) : (s.drawn n).icache = s.icache := rfl
@[simp] theorem drawn_dcache (s : State) (n : Nat) : (s.drawn n).dcache = s.dcache := rfl
@[simp] theorem drawn_stale (s : State) (n : Nat) : (s.drawn n).stale = s.stale := rfl
@[simp] theorem drawn_custom (s : State) (n : Nat) : (s.drawn n).custom = s.custom := rfl
@[simp] theorem drawn_mem (s : State) (n : Nat) : (s.drawn n).mem = s.mem := rfl
@[simp] theorem drawn_devices (s : State) (n : Nat) : (s.drawn n).devices = s.devices := rfl
@[simp] theorem drawn_hwBreak (s : State) (n : Nat) : (s.drawn n).hwBreak = s.hwBreak := rfl
@[simp] theorem drawn_execTriggers (s : State) (n : Nat) : (s.drawn n).execTriggers = s.execTriggers := rfl
@[simp] theorem drawn_dataTriggers (s : State) (n : Nat) : (s.drawn n).dataTriggers = s.dataTriggers := rfl
@[simp] theorem drawn_armed (s : State) (n : Nat) : (s.drawn n).armed = s.armed := rfl
@[simp] theorem drawn_triggerOut (s : State) (n : Nat) : (s.drawn n).triggerOut = s.triggerOut := rfl
@[simp] theorem drawn_trace (s : State) (n : Nat) : (s.drawn n).trace = s.trace := rfl
@[simp] theorem drawn_resetReq (s : State) (n : Nat) : (s.drawn n).resetReq = s.resetReq := rfl
@[simp] theorem drawn_env (s : State) (n : Nat) : (s.drawn n).env = s.env := rfl
@[simp] theorem drawn_freeCtr (s : State) (n : Nat) : (s.drawn n).freeCtr = s.freeCtr + n := rfl
@[simp] theorem drawn_reg (s : State) (n : Nat) (r : Reg) : (s.drawn n).reg r = s.reg r := rfl

/-! ## setReg -/

@[simp] theorem setReg_cfg (s : State) (r : Reg) (v : Word) : (s.setReg r v).cfg = s.cfg := by
  unfold State.setReg; split <;> rfl
@[simp] theorem setReg_pc (s : State) (r : Reg) (v : Word) : (s.setReg r v).pc = s.pc := by
  unfold State.setReg; split <;> rfl
@[simp] theorem setReg_status (s : State) (r : Reg) (v : Word) : (s.setReg r v).status = s.status := by
  unfold State.setReg; split <;> rfl
@[simp] theorem setReg_estatus (s : State) (r : Reg) (v : Word) : (s.setReg r v).estatus = s.estatus := by
  unfold State.setReg; split <;> rfl
@[simp] theorem setReg_bstatus (s : State) (r : Reg) (v : Word) : (s.setReg r v).bstatus = s.bstatus := by
  unfold State.setReg; split <;> rfl
@[simp] theorem setReg_ienable (s : State) (r : Reg) (v : Word) : (s.setReg r v).ienable = s.ienable := by
  unfold State.setReg; split <;> rfl
@[simp] theorem setReg_irqLines (s : State) (r : Reg) (v : Word) : (s.setReg r v).irqLines = s.irqLines := by
  unfold State.setReg; split <;> rfl
@[simp] theorem setReg_icache (s : State) (r : Reg) (v : Word) : (s.setReg r v).icache = s.icache := by
  unfold State.setReg; split <;> rfl
@[simp] theorem setReg_dcache (s : State) (r : Reg) (v : Word) : (s.setReg r v).dcache = s.dcache := by
  unfold State.setReg; split <;> rfl
@[simp] theorem setReg_stale (s : State) (r : Reg) (v : Word) : (s.setReg r v).stale = s.stale := by
  unfold State.setReg; split <;> rfl
@[simp] theorem setReg_custom (s : State) (r : Reg) (v : Word) : (s.setReg r v).custom = s.custom := by
  unfold State.setReg; split <;> rfl
@[simp] theorem setReg_mem (s : State) (r : Reg) (v : Word) : (s.setReg r v).mem = s.mem := by
  unfold State.setReg; split <;> rfl
@[simp] theorem setReg_devices (s : State) (r : Reg) (v : Word) : (s.setReg r v).devices = s.devices := by
  unfold State.setReg; split <;> rfl
@[simp] theorem setReg_hwBreak (s : State) (r : Reg) (v : Word) : (s.setReg r v).hwBreak = s.hwBreak := by
  unfold State.setReg; split <;> rfl
@[simp] theorem setReg_execTriggers (s : State) (r : Reg) (v : Word) : (s.setReg r v).execTriggers = s.execTriggers := by
  unfold State.setReg; split <;> rfl
@[simp] theorem setReg_dataTriggers (s : State) (r : Reg) (v : Word) : (s.setReg r v).dataTriggers = s.dataTriggers := by
  unfold State.setReg; split <;> rfl
@[simp] theorem setReg_armed (s : State) (r : Reg) (v : Word) : (s.setReg r v).armed = s.armed := by
  unfold State.setReg; split <;> rfl
@[simp] theorem setReg_triggerOut (s : State) (r : Reg) (v : Word) : (s.setReg r v).triggerOut = s.triggerOut := by
  unfold State.setReg; split <;> rfl
@[simp] theorem setReg_trace (s : State) (r : Reg) (v : Word) : (s.setReg r v).trace = s.trace := by
  unfold State.setReg; split <;> rfl
@[simp] theorem setReg_resetReq (s : State) (r : Reg) (v : Word) : (s.setReg r v).resetReq = s.resetReq := by
  unfold State.setReg; split <;> rfl
@[simp] theorem setReg_env (s : State) (r : Reg) (v : Word) : (s.setReg r v).env = s.env := by
  unfold State.setReg; split <;> rfl
@[simp] theorem setReg_freeCtr (s : State) (r : Reg) (v : Word) : (s.setReg r v).freeCtr = s.freeCtr := by
  unfold State.setReg; split <;> rfl

/-- Register 0 reads 0 (R21). -/
@[simp] theorem reg_zero (s : State) : s.reg 0#5 = 0#32 := by simp [State.reg]

/-- A write to register 0 changes nothing (R21). -/
@[simp] theorem setReg_zero (s : State) (v : Word) : s.setReg 0#5 v = s := by simp [State.setReg]

/-- A written register reads the written value. -/
theorem setReg_reg_same (s : State) (r : Reg) (v : Word) (h : r ≠ 0#5) : (s.setReg r v).reg r = v := by
  simp [State.setReg, State.reg, h]

/-- Another register is unchanged. -/
theorem setReg_reg_other (s : State) (r q : Reg) (v : Word) (h : q ≠ r) : (s.setReg r v).reg q = s.reg q := by
  unfold State.setReg
  split
  · rfl
  · have hne : r.toNat ≠ q.toNat := fun e => h (BitVec.eq_of_toNat_eq e.symm)
    simp [State.reg, hne]

/-- What any register reads after a register write. -/
theorem setReg_reg (s : State) (r q : Reg) (v : Word) :
    (s.setReg r v).reg q = if q = r then (if r = 0#5 then 0#32 else v) else s.reg q := by
  split
  · next h =>
    subst h
    split
    · next h0 => rw [h0, reg_zero]
    · next h0 => exact setReg_reg_same s q v h0
  · next h => exact setReg_reg_other s r q v h

/-- The stored register 0 keeps its value under any register write. -/
@[simp] theorem setReg_regs_zero (s : State) (r : Reg) (v : Word) : (s.setReg r v).regs[0] = s.regs[0] := by
  unfold State.setReg
  split
  · rfl
  · next h =>
    have hne : r.toNat ≠ 0 := fun e => h (BitVec.eq_of_toNat_eq (by simpa using e))
    simp [hne]

/-- A register write changes nothing but the registers. -/
theorem setReg_eq (s : State) (r : Reg) (v : Word) : s.setReg r v = { s with regs := (s.setReg r v).regs } := by
  unfold State.setReg; split <;> rfl

/-! ## advance, writeResult -/

@[simp] theorem advance_pc (s : State) : s.advance.pc = s.pc + 4 := rfl
@[simp] theorem advance_cfg (s : State) : s.advance.cfg = s.cfg := rfl
@[simp] theorem advance_regs (s : State) : s.advance.regs = s.regs := rfl
@[simp] theorem advance_status (s : State) : s.advance.status = s.status := rfl
@[simp] theorem advance_estatus (s : State) : s.advance.estatus = s.estatus := rfl
@[simp] theorem advance_bstatus (s : State) : s.advance.bstatus = s.bstatus := rfl
@[simp] theorem advance_ienable (s : State) : s.advance.ienable = s.ienable := rfl
@[simp] theorem advance_irqLines (s : State) : s.advance.irqLines = s.irqLines := rfl
@[simp] theorem advance_icache (s : State) : s.advance.icache = s.icache := rfl
@[simp] theorem advance_dcache (s : State) : s.advance.dcache = s.dcache := rfl
@[simp] theorem advance_stale (s : State) : s.advance.stale = s.stale := rfl
@[simp] theorem advance_custom (s : State) : s.advance.custom = s.custom := rfl
@[simp] theorem advance_mem (s : State) : s.advance.mem = s.mem := rfl
@[simp] theorem advance_devices (s : State) : s.advance.devices = s.devices := rfl
@[simp] theorem advance_hwBreak (s : State) : s.advance.hwBreak = s.hwBreak := rfl
@[simp] theorem advance_execTriggers (s : State) : s.advance.execTriggers = s.execTriggers := rfl
@[simp] theorem advance_dataTriggers (s : State) : s.advance.dataTriggers = s.dataTriggers := rfl
@[simp] theorem advance_armed (s : State) : s.advance.armed = s.armed := rfl
@[simp] theorem advance_triggerOut (s : State) : s.advance.triggerOut = s.triggerOut := rfl
@[simp] theorem advance_trace (s : State) : s.advance.trace = s.trace := rfl
@[simp] theorem advance_resetReq (s : State) : s.advance.resetReq = s.resetReq := rfl
@[simp] theorem advance_env (s : State) : s.advance.env = s.env := rfl
@[simp] theorem advance_freeCtr (s : State) : s.advance.freeCtr = s.freeCtr := rfl
@[simp] theorem advance_reg (s : State) (r : Reg) : s.advance.reg r = s.reg r := rfl
@[simp] theorem writeResult_pc (s : State) (r : Reg) (v : Word) : (writeResult s r v).pc = s.pc + 4 := by
  simp [writeResult]
@[simp] theorem writeResult_cfg (s : State) (r : Reg) (v : Word) : (writeResult s r v).cfg = s.cfg := by
  simp [writeResult]
@[simp] theorem writeResult_status (s : State) (r : Reg) (v : Word) : (writeResult s r v).status = s.status := by
  simp [writeResult]
@[simp] theorem writeResult_estatus (s : State) (r : Reg) (v : Word) : (writeResult s r v).estatus = s.estatus := by
  simp [writeResult]
@[simp] theorem writeResult_bstatus (s : State) (r : Reg) (v : Word) : (writeResult s r v).bstatus = s.bstatus := by
  simp [writeResult]
@[simp] theorem writeResult_ienable (s : State) (r : Reg) (v : Word) : (writeResult s r v).ienable = s.ienable := by
  simp [writeResult]
@[simp] theorem writeResult_irqLines (s : State) (r : Reg) (v : Word) : (writeResult s r v).irqLines = s.irqLines := by
  simp [writeResult]
@[simp] theorem writeResult_icache (s : State) (r : Reg) (v : Word) : (writeResult s r v).icache = s.icache := by
  simp [writeResult]
@[simp] theorem writeResult_dcache (s : State) (r : Reg) (v : Word) : (writeResult s r v).dcache = s.dcache := by
  simp [writeResult]
@[simp] theorem writeResult_stale (s : State) (r : Reg) (v : Word) : (writeResult s r v).stale = s.stale := by
  simp [writeResult]
@[simp] theorem writeResult_custom (s : State) (r : Reg) (v : Word) : (writeResult s r v).custom = s.custom := by
  simp [writeResult]
@[simp] theorem writeResult_mem (s : State) (r : Reg) (v : Word) : (writeResult s r v).mem = s.mem := by
  simp [writeResult]
@[simp] theorem writeResult_devices (s : State) (r : Reg) (v : Word) : (writeResult s r v).devices = s.devices := by
  simp [writeResult]
@[simp] theorem writeResult_hwBreak (s : State) (r : Reg) (v : Word) : (writeResult s r v).hwBreak = s.hwBreak := by
  simp [writeResult]
@[simp] theorem writeResult_execTriggers (s : State) (r : Reg) (v : Word) : (writeResult s r v).execTriggers = s.execTriggers := by
  simp [writeResult]
@[simp] theorem writeResult_dataTriggers (s : State) (r : Reg) (v : Word) : (writeResult s r v).dataTriggers = s.dataTriggers := by
  simp [writeResult]
@[simp] theorem writeResult_armed (s : State) (r : Reg) (v : Word) : (writeResult s r v).armed = s.armed := by
  simp [writeResult]
@[simp] theorem writeResult_triggerOut (s : State) (r : Reg) (v : Word) : (writeResult s r v).triggerOut = s.triggerOut := by
  simp [writeResult]
@[simp] theorem writeResult_trace (s : State) (r : Reg) (v : Word) : (writeResult s r v).trace = s.trace := by
  simp [writeResult]
@[simp] theorem writeResult_resetReq (s : State) (r : Reg) (v : Word) : (writeResult s r v).resetReq = s.resetReq := by
  simp [writeResult]
@[simp] theorem writeResult_env (s : State) (r : Reg) (v : Word) : (writeResult s r v).env = s.env := by
  simp [writeResult]
@[simp] theorem writeResult_freeCtr (s : State) (r : Reg) (v : Word) : (writeResult s r v).freeCtr = s.freeCtr := by
  simp [writeResult]
@[simp] theorem writeResult_regs_zero (s : State) (r : Reg) (v : Word) : (writeResult s r v).regs[0] = s.regs[0] := by
  simp [writeResult]

/-- What any register reads after an instruction that writes one register. -/
theorem writeResult_reg (s : State) (r q : Reg) (v : Word) :
    (writeResult s r v).reg q = if q = r then (if r = 0#5 then 0#32 else v) else s.reg q := by
  simp [writeResult, setReg_reg]

/-- An instruction that writes one register changes nothing but the registers and `pc`. -/
theorem writeResult_eq (s : State) (r : Reg) (v : Word) :
    writeResult s r v = { s with regs := (writeResult s r v).regs, pc := s.pc + 4 } := by
  unfold writeResult State.advance State.setPc State.setReg
  split <;> rfl

/-! ## exceptionEntry, breakEntry -/

@[simp] theorem exceptionEntry_cfg (s : State) (ret : Word) : (exceptionEntry s ret).cfg = s.cfg := by
  simp [exceptionEntry]
@[simp] theorem exceptionEntry_pc (s : State) (ret : Word) : (exceptionEntry s ret).pc = s.cfg.exceptionAddr := by
  simp [exceptionEntry]
@[simp] theorem exceptionEntry_status (s : State) (ret : Word) : (exceptionEntry s ret).status = ⟨false, false⟩ := by
  simp [exceptionEntry]
@[simp] theorem exceptionEntry_estatus (s : State) (ret : Word) : (exceptionEntry s ret).estatus = s.status := by
  simp [exceptionEntry]
@[simp] theorem exceptionEntry_bstatus (s : State) (ret : Word) : (exceptionEntry s ret).bstatus = s.bstatus := by
  simp [exceptionEntry]
@[simp] theorem exceptionEntry_ienable (s : State) (ret : Word) : (exceptionEntry s ret).ienable = s.ienable := by
  simp [exceptionEntry]
@[simp] theorem exceptionEntry_irqLines (s : State) (ret : Word) : (exceptionEntry s ret).irqLines = s.irqLines := by
  simp [exceptionEntry]
@[simp] theorem exceptionEntry_icache (s : State) (ret : Word) : (exceptionEntry s ret).icache = s.icache := by
  simp [exceptionEntry]
@[simp] theorem exceptionEntry_dcache (s : State) (ret : Word) : (exceptionEntry s ret).dcache = s.dcache := by
  simp [exceptionEntry]
@[simp] theorem exceptionEntry_stale (s : State) (ret : Word) : (exceptionEntry s ret).stale = s.stale := by
  simp [exceptionEntry]
@[simp] theorem exceptionEntry_custom (s : State) (ret : Word) : (exceptionEntry s ret).custom = s.custom := by
  simp [exceptionEntry]
@[simp] theorem exceptionEntry_mem (s : State) (ret : Word) : (exceptionEntry s ret).mem = s.mem := by
  simp [exceptionEntry]
@[simp] theorem exceptionEntry_devices (s : State) (ret : Word) : (exceptionEntry s ret).devices = s.devices := by
  simp [exceptionEntry]
@[simp] theorem exceptionEntry_hwBreak (s : State) (ret : Word) : (exceptionEntry s ret).hwBreak = s.hwBreak := by
  simp [exceptionEntry]
@[simp] theorem exceptionEntry_execTriggers (s : State) (ret : Word) : (exceptionEntry s ret).execTriggers = s.execTriggers := by
  simp [exceptionEntry]
@[simp] theorem exceptionEntry_dataTriggers (s : State) (ret : Word) : (exceptionEntry s ret).dataTriggers = s.dataTriggers := by
  simp [exceptionEntry]
@[simp] theorem exceptionEntry_armed (s : State) (ret : Word) : (exceptionEntry s ret).armed = s.armed := by
  simp [exceptionEntry]
@[simp] theorem exceptionEntry_triggerOut (s : State) (ret : Word) : (exceptionEntry s ret).triggerOut = s.triggerOut := by
  simp [exceptionEntry]
@[simp] theorem exceptionEntry_trace (s : State) (ret : Word) : (exceptionEntry s ret).trace = s.trace := by
  simp [exceptionEntry]
@[simp] theorem exceptionEntry_resetReq (s : State) (ret : Word) : (exceptionEntry s ret).resetReq = s.resetReq := by
  simp [exceptionEntry]
@[simp] theorem exceptionEntry_env (s : State) (ret : Word) : (exceptionEntry s ret).env = s.env := by
  simp [exceptionEntry]
@[simp] theorem exceptionEntry_freeCtr (s : State) (ret : Word) : (exceptionEntry s ret).freeCtr = s.freeCtr := by
  simp [exceptionEntry]
@[simp] theorem exceptionEntry_regs_zero (s : State) (ret : Word) : (exceptionEntry s ret).regs[0] = s.regs[0] := by
  simp [exceptionEntry]

/-- What any register reads after the entry. -/
theorem exceptionEntry_reg (s : State) (ret : Word) (q : Reg) :
    (exceptionEntry s ret).reg q = if q = 29#5 then ret else s.reg q := by
  simp only [exceptionEntry, setPc_reg, setReg_reg, show (29#5 = 0#5) = False from by decide, if_false]
  rfl

@[simp] theorem breakEntry_cfg (s : State) (ret : Word) : (breakEntry s ret).cfg = s.cfg := by
  simp [breakEntry]
@[simp] theorem breakEntry_pc (s : State) (ret : Word) : (breakEntry s ret).pc = s.cfg.breakAddr := by
  simp [breakEntry]
@[simp] theorem breakEntry_status (s : State) (ret : Word) : (breakEntry s ret).status = ⟨false, false⟩ := by
  simp [breakEntry]
@[simp] theorem breakEntry_estatus (s : State) (ret : Word) : (breakEntry s ret).estatus = s.estatus := by
  simp [breakEntry]
@[simp] theorem breakEntry_bstatus (s : State) (ret : Word) : (breakEntry s ret).bstatus = s.status := by
  simp [breakEntry]
@[simp] theorem breakEntry_ienable (s : State) (ret : Word) : (breakEntry s ret).ienable = s.ienable := by
  simp [breakEntry]
@[simp] theorem breakEntry_irqLines (s : State) (ret : Word) : (breakEntry s ret).irqLines = s.irqLines := by
  simp [breakEntry]
@[simp] theorem breakEntry_icache (s : State) (ret : Word) : (breakEntry s ret).icache = s.icache := by
  simp [breakEntry]
@[simp] theorem breakEntry_dcache (s : State) (ret : Word) : (breakEntry s ret).dcache = s.dcache := by
  simp [breakEntry]
@[simp] theorem breakEntry_stale (s : State) (ret : Word) : (breakEntry s ret).stale = s.stale := by
  simp [breakEntry]
@[simp] theorem breakEntry_custom (s : State) (ret : Word) : (breakEntry s ret).custom = s.custom := by
  simp [breakEntry]
@[simp] theorem breakEntry_mem (s : State) (ret : Word) : (breakEntry s ret).mem = s.mem := by
  simp [breakEntry]
@[simp] theorem breakEntry_devices (s : State) (ret : Word) : (breakEntry s ret).devices = s.devices := by
  simp [breakEntry]
@[simp] theorem breakEntry_hwBreak (s : State) (ret : Word) : (breakEntry s ret).hwBreak = s.hwBreak := by
  simp [breakEntry]
@[simp] theorem breakEntry_execTriggers (s : State) (ret : Word) : (breakEntry s ret).execTriggers = s.execTriggers := by
  simp [breakEntry]
@[simp] theorem breakEntry_dataTriggers (s : State) (ret : Word) : (breakEntry s ret).dataTriggers = s.dataTriggers := by
  simp [breakEntry]
@[simp] theorem breakEntry_armed (s : State) (ret : Word) : (breakEntry s ret).armed = s.armed := by
  simp [breakEntry]
@[simp] theorem breakEntry_triggerOut (s : State) (ret : Word) : (breakEntry s ret).triggerOut = s.triggerOut := by
  simp [breakEntry]
@[simp] theorem breakEntry_trace (s : State) (ret : Word) : (breakEntry s ret).trace = s.trace := by
  simp [breakEntry]
@[simp] theorem breakEntry_resetReq (s : State) (ret : Word) : (breakEntry s ret).resetReq = s.resetReq := by
  simp [breakEntry]
@[simp] theorem breakEntry_env (s : State) (ret : Word) : (breakEntry s ret).env = s.env := by
  simp [breakEntry]
@[simp] theorem breakEntry_freeCtr (s : State) (ret : Word) : (breakEntry s ret).freeCtr = s.freeCtr := by
  simp [breakEntry]
@[simp] theorem breakEntry_regs_zero (s : State) (ret : Word) : (breakEntry s ret).regs[0] = s.regs[0] := by
  simp [breakEntry]

/-- What any register reads after the entry. -/
theorem breakEntry_reg (s : State) (ret : Word) (q : Reg) :
    (breakEntry s ret).reg q = if q = 30#5 then ret else s.reg q := by
  simp only [breakEntry, setPc_reg, setReg_reg, show (30#5 = 0#5) = False from by decide, if_false]
  rfl


end Sys2Proof.Machine
end

