-- ==== Sys2Proof/Laws/Ops.lean ====
section
/-! SUPPORT. One lemma for each shared operation that says what it can do. -/

namespace Sys2Proof.Machine

/-! ## Results -/

/-- Every outcome `next t` of `finish` comes from a state. -/
theorem finish_next {r : Except Stop State} {t : State} : finish r = .next t ↔ r = .ok t := by
  rcases r with (_ | _) | _ <;> simp [finish]

/-- The bind of two steps that may stop. -/
theorem bind_ok {α β : Type} {x : Except Stop α} {f : α → Except Stop β} {b : β} :
    (x >>= f) = .ok b ↔ ∃ a, x = .ok a ∧ f a = .ok b := by
  cases x <;> simp [bind, Except.bind]

/-- The mapped result of a step that may stop. -/
theorem map_ok {α β : Type} {x : Except Stop α} {f : α → β} {b : β} :
    x.map f = .ok b ↔ ∃ a, x = .ok a ∧ f a = b := by
  cases x <;> simp [Except.map]

/-! ## Operations on the memory side -/

/-- `t` comes from `s` by operations on memory, data cache, peripherals and the store record alone: the processor's registers,
`pc`, control registers, instruction cache, custom logic and inputs are unchanged, and canonical forms are kept. -/
structure Quiet (s t : State) : Prop where
  cfg : t.cfg = s.cfg
  regs : t.regs = s.regs
  pc : t.pc = s.pc
  status : t.status = s.status
  estatus : t.estatus = s.estatus
  bstatus : t.bstatus = s.bstatus
  ienable : t.ienable = s.ienable
  irqLines : t.irqLines = s.irqLines
  icache : t.icache = s.icache
  custom : t.custom = s.custom
  hwBreak : t.hwBreak = s.hwBreak
  execTriggers : t.execTriggers = s.execTriggers
  dataTriggers : t.dataTriggers = s.dataTriggers
  armed : t.armed = s.armed
  triggerOut : t.triggerOut = s.triggerOut
  trace : t.trace = s.trace
  env : t.env = s.env
  mem : Memory.wf s.mem = true → Memory.wf t.mem = true
  dcache : keysRising s.dcache = true → keysRising t.dcache = true
  stale : (hasICache s.cfg || s.stale.isEmpty) = true → (hasICache t.cfg || t.stale.isEmpty) = true

theorem Quiet.refl (s : State) : Quiet s s := by constructor <;> simp

theorem Quiet.trans {s t u : State} (h : Quiet s t) (g : Quiet t u) : Quiet s u where
  cfg := g.cfg.trans h.cfg
  regs := g.regs.trans h.regs
  pc := g.pc.trans h.pc
  status := g.status.trans h.status
  estatus := g.estatus.trans h.estatus
  bstatus := g.bstatus.trans h.bstatus
  ienable := g.ienable.trans h.ienable
  irqLines := g.irqLines.trans h.irqLines
  icache := g.icache.trans h.icache
  custom := g.custom.trans h.custom
  hwBreak := g.hwBreak.trans h.hwBreak
  execTriggers := g.execTriggers.trans h.execTriggers
  dataTriggers := g.dataTriggers.trans h.dataTriggers
  armed := g.armed.trans h.armed
  triggerOut := g.triggerOut.trans h.triggerOut
  trace := g.trace.trans h.trace
  env := g.env.trans h.env
  mem := g.mem ∘ h.mem
  dcache := g.dcache ∘ h.dcache
  stale := g.stale ∘ h.stale

theorem drawn_quiet (s : State) (n : Nat) : Quiet s (s.drawn n) := by constructor <;> simp

/-- Recording a store changes the record, nothing else. -/
theorem noteStore_eq (s : State) (a : Word) (done : Bool) :
    noteStore s a done = { s with stale := (noteStore s a done).stale } := by
  unfold noteStore; split <;> rfl

theorem noteStore_quiet (s : State) (a : Word) (done : Bool) : Quiet s (noteStore s a done) := by
  unfold noteStore
  split
  · next h => constructor <;> simp_all
  · exact .refl s

theorem setDLine_quiet (s : State) (a : Word) (l : DataLine) : Quiet s (setDLine s a l) := by
  constructor <;> simp [setDLine]
  exact fun h => keysRising_keySet h _ _

/-! ## The bus -/

/-- A peripheral read changes the peripherals and draws a free value, nothing else. -/
theorem deviceRead_eq (s : State) (i off : Nat) (a : Word) (w : Width) :
    (deviceRead s i off a w).2 =
      { s with devices := (deviceRead s i off a w).2.devices, freeCtr := (deviceRead s i off a w).2.freeCtr } := by
  unfold deviceRead; split <;> rfl

/-- A bus read changes the peripherals and the count of free values, nothing else. -/
theorem busRead_eq {s t : State} {port : Region → Bool} {a : Word} {w : Width} {v : Option Word}
    (h : busRead s port a w = .ok (v, t)) : t = { s with devices := t.devices, freeCtr := t.freeCtr } := by
  unfold busRead at h
  split at h
  · cases h; rfl
  · split at h
    · cases h; rfl
    · cases h; rfl
    · cases h; rfl
    · next i _ =>
      simp only [Except.ok.injEq] at h
      have e := deviceRead_eq s i (registerOffset ‹_› a) a w
      rw [h] at e
      exact e
    · cases h

theorem busRead_quiet {s t : State} {port : Region → Bool} {a : Word} {w : Width} {v : Option Word}
    (h : busRead s port a w = .ok (v, t)) : Quiet s t := by
  rw [busRead_eq h]; constructor <;> simp

/-- A bus write changes memory, the peripherals and the count of free values, nothing else. -/
theorem busWrite_eq {s t : State} {port : Region → Bool} {a : Word} {w : Width} {v : Word}
    (h : busWrite s port a w v = .ok t) :
    t = { s with mem := t.mem, devices := t.devices, freeCtr := t.freeCtr } ∧
      (t.mem = s.mem ∨ t.mem = writeMem s.mem a w v) := by
  unfold busWrite at h
  split at h
  · cases h
  · split at h
    · cases h; exact ⟨rfl, .inr rfl⟩
    · cases h; exact ⟨rfl, .inl rfl⟩
    · cases h
    · unfold deviceWrite at h
      split at h
      · cases h
      · obtain ⟨c', _, h⟩ := bind_ok.mp h
        cases h; exact ⟨rfl, .inl rfl⟩
    · cases h

theorem busWrite_quiet {s t : State} {port : Region → Bool} {a : Word} {w : Width} {v : Word}
    (h : busWrite s port a w v = .ok t) : Quiet s t := by
  obtain ⟨e, hm⟩ := busWrite_eq h
  have hw : Memory.wf s.mem = true → Memory.wf t.mem = true := fun hs => by
    rcases hm with hm | hm <;> rw [hm]
    · exact hs
    · exact Memory.wf_writeMem hs a w v
  rw [e]
  constructor <;> first | exact hw | simp

/-- A bus read from memory returns its bytes and changes nothing. -/
theorem busRead_memory {s : State} {port : Region → Bool} {a : Word} {w : Width} {r : Region}
    (h : findRegion s.cfg port a = some r) (hk : r.kind = .ram ∨ r.kind = .rom ∨ r.kind = .flash) :
    busRead s port a w = .ok (some (readMem s.mem a w), s) := by
  unfold busRead
  rw [h]
  rcases hk with hk | hk | hk <;> simp [hk]

/-- A bus write to RAM writes its bytes and changes nothing else. -/
theorem busWrite_ram {s : State} {port : Region → Bool} {a : Word} {w : Width} {v : Word} {r : Region}
    (h : findRegion s.cfg port a = some r) (hk : r.kind = .ram) :
    busWrite s port a w v = .ok { s with mem := writeMem s.mem a w v } := by
  unfold busWrite
  simp [h, hk]

/-- A store on the bus changes memory, the peripherals, the store record and the count of free values, nothing else. -/
theorem busStore_eq {s t : State} {port : Region → Bool} {a : Word} {w : Width} {v : Word}
    (h : busStore s port a w v = .ok t) :
    t = { s with mem := t.mem, devices := t.devices, freeCtr := t.freeCtr, stale := t.stale } ∧
      (t.mem = s.mem ∨ t.mem = writeMem s.mem a w v) := by
  unfold busStore noteStore at h
  split at h
  · exact ⟨(busWrite_eq h).1.trans (by rw [(busWrite_eq h).1]), (busWrite_eq h).2⟩
  · exact ⟨(busWrite_eq h).1.trans (by rw [(busWrite_eq h).1]), (busWrite_eq h).2⟩

theorem busStore_quiet {s t : State} {port : Region → Bool} {a : Word} {w : Width} {v : Word}
    (h : busStore s port a w v = .ok t) : Quiet s t :=
  (noteStore_quiet s a _).trans (busWrite_quiet h)

/-- A store on the bus to RAM writes its bytes and may record the store; nothing else changes. -/
theorem busStore_ram {s : State} {port : Region → Bool} {a : Word} {w : Width} {v : Word} {r : Region}
    (h : findRegion s.cfg port a = some r) (hk : r.kind = .ram) :
    busStore s port a w v =
      .ok { s with mem := writeMem s.mem a w v, stale := (noteStore s a (storeSettles s a w)).stale } := by
  unfold busStore
  rw [busWrite_ram (s := noteStore s a (storeSettles s a w)) (by rwa [(noteStore_quiet s a _).cfg]) hk]
  unfold noteStore
  split <;> rfl

/-! ## The data cache -/

/-- After `evict` the line is invalid; all else is memory-side. -/
theorem evict_quiet {s t : State} {i : Nat} (h : evict s i = .ok t) : Quiet s t ∧ keyGet t.dcache i = none := by
  unfold evict at h
  split at h
  · next hn => cases h; exact ⟨.refl s, hn⟩
  · obtain ⟨u, hu, rfl⟩ := map_ok.mp h
    have hq : Quiet s u := by
      unfold writeBack at hu
      split at hu
      · exact busStore_quiet hu
      · cases hu; exact .refl s
    exact ⟨hq.trans (by constructor <;> simp; exact fun h => keysRising_keyErase h _), by simp [keyGet_keyErase]⟩

theorem fillWord_quiet {s t : State} {a v : Word} (h : fillWord s a = .ok (v, t)) : Quiet s t := by
  unfold fillWord at h
  obtain ⟨⟨x, u⟩, hu, h⟩ := bind_ok.mp h
  have hq := busRead_quiet hu
  cases x <;> cases h
  · exact hq.trans (drawn_quiet u 1)
  · exact hq

theorem cachedLoad_quiet {s t : State} {a v : Word} {w : Width} (h : cachedLoad s a w = .ok (v, t)) : Quiet s t := by
  unfold cachedLoad at h
  split at h
  · cases h; exact .refl s
  · obtain ⟨u, hu, h⟩ := bind_ok.mp h
    obtain ⟨⟨x, y⟩, hy, h⟩ := bind_ok.mp h
    cases h
    exact ((evict_quiet hu).1.trans (fillWord_quiet hy)).trans (setDLine_quiet _ _ _)

theorem cachedStore_quiet {s t : State} {a v : Word} {w : Width} (h : cachedStore s a w v = .ok t) : Quiet s t := by
  unfold cachedStore at h
  split at h
  · cases h; exact setDLine_quiet _ _ _
  · obtain ⟨u, hu, h⟩ := bind_ok.mp h
    split at h
    · cases h; exact (evict_quiet hu).1.trans (setDLine_quiet _ _ _)
    · obtain ⟨⟨x, y⟩, hy, h⟩ := bind_ok.mp h
      cases h
      exact ((evict_quiet hu).1.trans (fillWord_quiet hy)).trans (setDLine_quiet _ _ _)

/-! ## Loads and stores -/

theorem dataLoad_quiet {s t : State} {a : Word} {v : Option Word} {w : Width} {io : Bool}
    (h : dataLoad s a w io = .ok (v, t)) : Quiet s t := by
  unfold dataLoad at h
  split at h
  · cases h; exact .refl s
  · split at h
    · exact busRead_quiet h
    · obtain ⟨⟨x, y⟩, hy, h⟩ := bind_ok.mp h
      cases h
      exact cachedLoad_quiet hy

/-- A misaligned load, and one where nothing is mapped, has no defined value and changes nothing (U1, U2). -/
theorem dataLoad_open {s : State} {a : Word} {w : Width} {io : Bool}
    (h : aligned w a = false ∨ mapped s.cfg Region.data a = false) : dataLoad s a w io = .ok (none, s) := by
  unfold dataLoad
  rcases h with h | h <;> simp [h]

/-- A store happens only at an aligned address where something is mapped. -/
theorem dataStore_ok {s t : State} {a v : Word} {w : Width} {io : Bool} (h : dataStore s a w v io = .ok t) :
    aligned w a = true ∧ mapped s.cfg Region.data a = true := by
  unfold dataStore at h
  split at h
  · cases h
  · next h1 =>
    split at h
    · cases h
    · next h2 => exact ⟨by simpa using h1, by simpa using h2⟩

theorem dataStore_quiet {s t : State} {a v : Word} {w : Width} {io : Bool} (h : dataStore s a w v io = .ok t) :
    Quiet s t := by
  unfold dataStore at h
  split at h
  · cases h
  · split at h
    · cases h
    · split at h
      · exact busStore_quiet h
      · exact (noteStore_quiet s a false).trans (cachedStore_quiet h)

/-- What a load can do: memory-side operations, then one register written and on to the next instruction. -/
theorem load_ok {s t : State} {a b : Reg} {imm : BitVec 16} {w : Width} {signed io : Bool}
    (h : load s a b imm w signed io = .ok t) : ∃ u v, Quiet s u ∧ t = writeResult u b v := by
  unfold load at h
  obtain ⟨⟨x, u⟩, hu, h⟩ := bind_ok.mp h
  have hq := dataLoad_quiet hu
  cases x <;> cases h
  · exact ⟨_, _, hq.trans (drawn_quiet u 1), rfl⟩
  · exact ⟨_, _, hq, rfl⟩

/-- What a store can do: memory-side operations, then on to the next instruction. -/
theorem store_ok {s t : State} {a b : Reg} {imm : BitVec 16} {w : Width} {io : Bool}
    (h : store s a b imm w io = .ok t) : ∃ u, Quiet s u ∧ t = u.advance := by
  unfold store at h
  obtain ⟨u, hu, h⟩ := bind_ok.mp h
  cases h
  exact ⟨u, dataStore_quiet hu, rfl⟩

theorem flushDLine_quiet {s t : State} {a : Word} (h : flushDLine s a = .ok t) : Quiet s t := by
  unfold flushDLine at h
  split at h
  · exact (evict_quiet h).1
  · cases h; exact .refl s

theorem dropDLine_quiet (s : State) (a : Word) : Quiet s (dropDLine s a) := by
  unfold dropDLine
  split
  · constructor <;> simp; exact fun h => keysRising_keyErase h _
  · exact .refl s

/-! ## Control transfer -/

/-- A transfer happens exactly to a multiple of 4, and moves only `pc`. -/
theorem jumpTo_ok {s t : State} {a : Word} : jumpTo s a = .ok t ↔ aligned .word a = true ∧ t = s.setPc a := by
  unfold jumpTo
  split
  · next h => simp [h, eq_comm]
  · next h => simp [h]

/-- A transfer to another address is refused. -/
theorem jumpTo_misaligned {s : State} {a : Word} (h : aligned .word a = false) :
    jumpTo s a = .error (.refusal (.misalignedTarget a)) := by
  simp [jumpTo, h]

/-! ## Fetch -/

/-- A fetch changes the instruction cache and the count of free values, nothing else. -/
theorem fetch_eq {s t : State} {w : Word} (h : fetch s = .ok (w, t)) :
    t = { s with icache := t.icache, freeCtr := t.freeCtr } ∧
      (keysRising s.icache = true → keysRising t.icache = true) ∧ aligned .word s.pc = true := by
  unfold fetch at h
  split at h
  · cases h
  · next ha =>
    have ha : aligned .word s.pc = true := by simpa using ha
    split at h
    · have key : ∀ r : Word × State, r = plainFetch s s.pc →
          r.2 = { s with icache := r.2.icache, freeCtr := r.2.freeCtr } ∧
            (keysRising s.icache = true → keysRising r.2.icache = true) := by
        rintro r rfl
        unfold plainFetch cachedFetch
        split
        · split
          · exact ⟨rfl, id⟩
          · exact ⟨rfl, fun hs => keysRising_keySet hs _ _⟩
        · exact ⟨rfl, id⟩
      obtain ⟨k1, k2⟩ := key _ rfl
      simp only [Except.ok.injEq, fetchOf] at h
      split at h
      · obtain ⟨-, rfl⟩ := Prod.mk.inj h
        exact ⟨k1, k2, ha⟩
      · obtain ⟨-, rfl⟩ := Prod.mk.inj h
        refine ⟨?_, k2, ha⟩
        conv_lhs => rw [k1]
        rfl
    · cases h

end Sys2Proof.Machine
end

