-- ==== Sys2Proof/Laws/Events.lean ====
section
/-! SUPPORT. One lemma for each operation of the clock, of the DMA engine and of the debug module. -/

namespace Sys2Proof.Machine

theorem updateDma_quiet (s : State) (i : Nat) (f : Dma → Dma) : Quiet s (updateDma s i f) := by
  unfold updateDma; split <;> constructor <;> simp

theorem dmaRead_quiet {s t : State} {i w : Nat} {a : Word} (h : dmaRead s i w a = .ok t) : Quiet s t := by
  unfold dmaRead at h
  obtain ⟨⟨x, u⟩, hu, h⟩ := bind_ok.mp h
  cases h
  exact ((busRead_quiet hu).trans (drawn_quiet u 1)).trans (updateDma_quiet _ i _)

theorem dmaWrite_quiet {s t : State} {i w : Nat} {a v : Word} (h : dmaWrite s i w a v = .ok t) : Quiet s t := by
  unfold dmaWrite at h
  obtain ⟨u, hu, h⟩ := bind_ok.mp h
  cases h
  exact (busStore_quiet hu).trans (updateDma_quiet u i _)

theorem dmaTransfer_quiet {s t : State} {i w : Nat} {d : Dma} (h : dmaTransfer s i d w = .ok t) : Quiet s t := by
  simp only [dmaTransfer] at h
  split at h
  · exact (drawn_quiet s 1).trans (dmaRead_quiet h)
  · split at h
    · exact (drawn_quiet s 1).trans (dmaWrite_quiet h)
    · cases h; exact .refl s

theorem dmaCycle_quiet {s t : State} {i : Nat} (h : dmaCycle s i = .ok t) : Quiet s t := by
  unfold dmaCycle at h
  split at h
  · split at h
    · exact ((drawn_quiet s 1).trans (updateDma_quiet _ i _)).trans (dmaTransfer_quiet h)
    · cases h; exact .refl s
  · cases h; exact .refl s

theorem dmaCycles_quiet {n : Nat} {l : List Nat} {s t : State} (h : dmaCycles s n l = .ok t) : Quiet s t := by
  induction n generalizing s l with
  | zero => cases h; exact .refl _
  | succ n ih =>
    unfold dmaCycles at h
    split at h
    · contradiction
    · cases h; exact .refl _
    · exact dmaCycle_quiet h
    · obtain ⟨u, hu, h⟩ := bind_ok.mp h
      cases ‹n + 1 = _›
      exact ((drawn_quiet s 1).trans (dmaCycle_quiet hu)).trans (ih h)

theorem dmaMasters_quiet {s t : State} (h : dmaMasters s = .ok t) : Quiet s t := dmaCycles_quiet h

theorem clockCycle_quiet {s t : State} (h : clockCycle s = .ok t) : Quiet s t := by
  unfold clockCycle at h
  exact Quiet.trans (by constructor <;> simp) (dmaMasters_quiet h)

theorem clockCycles_quiet {n : Nat} {s t : State} (h : clockCycles s n = .ok t) : Quiet s t := by
  induction n generalizing s with
  | zero => cases h; exact .refl _
  | succ n ih =>
    unfold clockCycles at h
    obtain ⟨u, hu, h⟩ := bind_ok.mp h
    exact (clockCycle_quiet hu).trans (ih h)

theorem deviceEvent_quiet (s : State) (e : EnvEvent) : Quiet s (deviceEvent s e) := by
  unfold deviceEvent
  split
  · exact .refl s
  · split
    · exact .refl s
    · constructor <;> simp

/-- What a debugger's action can do: it changes general registers, control registers, memory, caches, peripherals, the store
record and the count of free values alone, and keeps canonical forms, register 0 and legal user-mode bits. -/
structure Edited (s t : State) : Prop where
  cfg : t.cfg = s.cfg
  pc : t.pc = s.pc
  irqLines : t.irqLines = s.irqLines
  custom : t.custom = s.custom
  hwBreak : t.hwBreak = s.hwBreak
  env : t.env = s.env
  regs : t.regs[0] = s.regs[0]
  mem : Memory.wf s.mem = true → Memory.wf t.mem = true
  icache : keysRising s.icache = true → keysRising t.icache = true
  dcache : keysRising s.dcache = true → keysRising t.dcache = true
  stale : (hasICache s.cfg || s.stale.isEmpty) = true → (hasICache t.cfg || t.stale.isEmpty) = true
  user : (s.cfg.hasUserMode || (!s.status.u && !s.estatus.u && !s.bstatus.u)) = true →
    (t.cfg.hasUserMode || (!t.status.u && !t.estatus.u && !t.bstatus.u)) = true

theorem Edited.refl (s : State) : Edited s s := by constructor <;> simp

theorem Edited.trans {s t u : State} (h : Edited s t) (g : Edited t u) : Edited s u where
  cfg := g.cfg.trans h.cfg
  pc := g.pc.trans h.pc
  irqLines := g.irqLines.trans h.irqLines
  custom := g.custom.trans h.custom
  hwBreak := g.hwBreak.trans h.hwBreak
  env := g.env.trans h.env
  regs := g.regs.trans h.regs
  mem := g.mem ∘ h.mem
  icache := g.icache ∘ h.icache
  dcache := g.dcache ∘ h.dcache
  stale := g.stale ∘ h.stale
  user := g.user ∘ h.user

/-- Operations on the memory side are within what a debugger can do. -/
theorem Quiet.edited {s t : State} (h : Quiet s t) : Edited s t where
  cfg := h.cfg
  pc := h.pc
  irqLines := h.irqLines
  custom := h.custom
  hwBreak := h.hwBreak
  env := h.env
  regs := by rw [h.regs]
  mem := h.mem
  icache := by rw [h.icache]; exact id
  dcache := h.dcache
  stale := h.stale
  user := by rw [h.cfg, h.status, h.estatus, h.bstatus]; exact id

theorem writeControl_edited {s t : State} {n : Reg} {v : Word} (h : writeControl s n v = .ok t) : Edited s t := by
  unfold writeControl at h
  split at h <;> cases h <;> constructor <;> simp [statusOf] <;>
    cases s.cfg.hasUserMode <;> simp_all

theorem editMemory_edited (s : State) (a : Word) (w : Width) (v : Word) : Edited s (editMemory s a w v) := by
  constructor <;> simp only [editMemory] <;> try first | rfl | exact id
  · exact fun h => Memory.wf_writeMem h a w v
  · exact fun h => keysRising_keyErase h _
  · intro h
    split
    · exact keysRising_keySet h _ _
    · exact h
  · simp only [Bool.or_eq_true, List.isEmpty_iff]
    rintro (h | h)
    · exact .inl h
    · exact .inr (by simp [h])

theorem debugAction_edited {s t : State} {e : DebugAction} (h : debugAction s e = .ok t) : Edited s t := by
  cases e with
  | setReg r v => cases h; constructor <;> simp
  | setControl n v => exact writeControl_edited h
  | read a w =>
    simp only [debugAction] at h
    split at h
    · obtain ⟨⟨x, u⟩, hu, rfl⟩ := map_ok.mp h
      exact (busRead_quiet hu).edited
    · cases h; exact .refl s
  | write a w v =>
    simp only [debugAction] at h
    split at h
    · cases h; exact .refl s
    · split at h
      · cases h; exact editMemory_edited s a w v
      · exact (busWrite_quiet h).edited

theorem debugActions_edited {l : List DebugAction} {s t : State} (h : debugActions s l = .ok t) : Edited s t := by
  induction l generalizing s with
  | nil => cases h; exact .refl _
  | cons e l ih =>
    unfold debugActions at h
    obtain ⟨u, hu, h⟩ := bind_ok.mp h
    exact (debugAction_edited hu).trans (ih h)

/-- A debugger session: the actions, then perhaps another `pc`, a multiple of 4. -/
theorem debugSession_ok {s t : State} {acts : List DebugAction} {pc : Option Word}
    (h : debugSession s acts pc = .ok t) :
    ∃ u a, Edited s u ∧ t = u.setPc a ∧ (aligned .word u.pc = true → aligned .word a = true) := by
  unfold debugSession at h
  split at h
  · cases h; exact ⟨s, s.pc, .refl s, rfl, id⟩
  · obtain ⟨u, hu, rfl⟩ := map_ok.mp h
    refine ⟨u, _, debugActions_edited hu, rfl, fun ha => ?_⟩
    cases pc with
    | none => simpa using ha
    | some p => by_cases hp : aligned .word p = true <;> simp [Option.filter, hp, ha]

/-- Normalised cache lines are in canonical form. -/
theorem keysRising_normalLines {α : Type} (n : Nat) (l : List (Nat × α)) : keysRising (normalLines n l) = true := by
  induction l with
  | nil => rfl
  | cons e t ih => exact keysRising_keySet ih _ _

/-! ## Hardware triggers and trace -/

/-- The debug module changes the break request, the armed flag, the trigger output and the trace unit, nothing else. -/
theorem fireTriggers_eq (s : State) (i : Instr) (t : State) :
    fireTriggers s i t = { t with
      hwBreak := (fireTriggers s i t).hwBreak, armed := (fireTriggers s i t).armed
      triggerOut := (fireTriggers s i t).triggerOut, trace := (fireTriggers s i t).trace } := rfl

/-- Where no trigger activates and the trace unit is off or absent, the debug module does nothing. -/
theorem fireTriggers_quiet {s : State} (i : Instr) (t : State) (he : execHits s = []) (hd : dataHits s i = [])
    (ht : traceCapacity s.cfg t.trace.setup.offChip = none ∨ s.trace.on = false) :
    fireTriggers s i t = { t with triggerOut := false } := by
  have hb : t.trace.after s i = t.trace := by
    unfold Trace.after
    rcases ht with ht | ht
    · rw [ht]
    · split
      · rfl
      · have hc : captured s i = [] := by
          unfold captured
          simp only [ht, hd]
          cases dataCycle s i <;> rfl
        simp [hc, Trace.add, triggers, he, hd]
  simp [fireTriggers, triggers, he, hd, hb]

/-- Without triggers and with the trace unit off it does nothing. -/
theorem fireTriggers_none {s : State} (i : Instr) (t : State) (he : s.execTriggers = []) (hd : s.dataTriggers = [])
    (ht : s.trace.on = false) : fireTriggers s i t = { t with triggerOut := false } := by
  refine fireTriggers_quiet i t (by simp [execHits, he]) ?_ (.inr ht)
  unfold dataHits
  split
  · rfl
  · simp [hd, fittingTriggers]

/-- Nor on a core without a debug module. -/
theorem fireTriggers_noDebug {s : State} (i : Instr) (t : State) (h : s.cfg.debugLevel = .noDebug) :
    fireTriggers s i t = { t with triggerOut := false } := by
  have hc : triggerCapacity s.cfg = 0 := by unfold triggerCapacity; rw [h]; cases s.cfg.core <;> rfl
  have hdc : dataTriggerCapacity s.cfg = 0 := by unfold dataTriggerCapacity; rw [h]
  have hf : ∀ l : List DataTrigger, fittingTriggers l 0 = [] := by
    intro l
    cases l with
    | nil => rfl
    | cons d t =>
      have hd : ¬ d.cost ≤ 0 := by unfold DataTrigger.cost; split <;> omega
      simp [fittingTriggers, hd]
  refine fireTriggers_quiet i t (by simp [execHits, hc]) ?_ (.inl ?_)
  · unfold dataHits
    split
    · rfl
    · simp [hdc, hf]
  · unfold traceCapacity; rw [h]; cases s.cfg.core <;> rfl

/-- Every observed next state comes from a next state. -/
theorem observed_next {i : Instr} {s t : State} {o : Host.Outcome State Fault Refusal} :
    observed i s o = .next t ↔ ∃ x, o = .next x ∧ t = fireTriggers s i x := by
  cases o <;> simp [observed, eq_comm]

/-! ## System reset, field by field -/

@[simp] theorem systemReset_cfg (s : State) : (systemReset s).cfg = s.cfg := by
  unfold systemReset; rfl
@[simp] theorem systemReset_regs (s : State) : (systemReset s).regs = resetRegs s.freeCtr := by
  unfold systemReset; rfl
@[simp] theorem systemReset_pc (s : State) : (systemReset s).pc = s.cfg.resetAddr := by
  unfold systemReset; rfl
@[simp] theorem systemReset_status (s : State) : (systemReset s).status = ⟨false, false⟩ := by
  unfold systemReset; rfl
@[simp] theorem systemReset_stale (s : State) : (systemReset s).stale = [] := by
  unfold systemReset; rfl
@[simp] theorem systemReset_mem (s : State) : (systemReset s).mem = s.mem := by
  unfold systemReset; rfl
@[simp] theorem systemReset_devices (s : State) : (systemReset s).devices = resetCores s.devices (s.freeCtr + 35) := by
  unfold systemReset; rfl
@[simp] theorem systemReset_irqLines (s : State) : (systemReset s).irqLines = s.irqLines := by
  unfold systemReset; rfl
@[simp] theorem systemReset_hwBreak (s : State) : (systemReset s).hwBreak = s.hwBreak := by
  unfold systemReset; rfl
@[simp] theorem systemReset_execTriggers (s : State) : (systemReset s).execTriggers = s.execTriggers := by
  unfold systemReset; rfl
@[simp] theorem systemReset_dataTriggers (s : State) : (systemReset s).dataTriggers = s.dataTriggers := by
  unfold systemReset; rfl
@[simp] theorem systemReset_armed (s : State) : (systemReset s).armed = s.armed := by
  unfold systemReset; rfl
@[simp] theorem systemReset_triggerOut (s : State) : (systemReset s).triggerOut = s.triggerOut := by
  unfold systemReset; rfl
@[simp] theorem systemReset_trace (s : State) : (systemReset s).trace = s.trace := by
  unfold systemReset; rfl
@[simp] theorem systemReset_env (s : State) : (systemReset s).env = s.env := by
  unfold systemReset; rfl
@[simp] theorem systemReset_resetReq (s : State) : (systemReset s).resetReq = false := by
  unfold systemReset; rfl
@[simp] theorem systemReset_custom (s : State) : (systemReset s).custom = Config.freeCustom s.freeCtr := by
  unfold systemReset; rfl
@[simp] theorem systemReset_ienable (s : State) : (systemReset s).ienable = Config.freeWord (s.freeCtr + 34) := by
  unfold systemReset; rfl
@[simp] theorem systemReset_estatus (s : State) : (systemReset s).estatus = statusOf s.cfg (Config.freeWord (s.freeCtr + 32)) := by
  unfold systemReset; rfl
@[simp] theorem systemReset_bstatus (s : State) : (systemReset s).bstatus = statusOf s.cfg (Config.freeWord (s.freeCtr + 33)) := by
  unfold systemReset; rfl
@[simp] theorem systemReset_freeCtr (s : State) : (systemReset s).freeCtr = s.freeCtr + 35 + resetDraws * s.devices.length := by
  unfold systemReset; rfl
theorem systemReset_icache (s : State) : (systemReset s).icache =
    if hasICache s.cfg then keyErase (normalLines (2 ^ s.cfg.icacheLog / 32) (Config.freeInstrLines s.freeCtr))
      (iIndex s.cfg (phys s.cfg.resetAddr)) else [] := by
  unfold systemReset; rfl
theorem systemReset_dcache (s : State) : (systemReset s).dcache =
    if hasDCache s.cfg then normalLines (2 ^ s.cfg.dcacheLog / 4) (Config.freeDataLines s.freeCtr) else [] := by
  unfold systemReset; rfl

/-! ## The configuration and the boundary (D1) -/

/-- The events of a boundary happen in a legal configuration only. -/
theorem takeEvents_ok {s t : State} (h : takeEvents s = .ok t) :
    entriesLegal s.cfg = true ∧ applyEvents { s with env := s.env.tail } (dueEvents s) = .ok t := by
  unfold takeEvents at h
  split at h
  · exact ⟨‹_›, h⟩
  · cases h

theorem takeEvents_illegal {s : State} (h : entriesLegal s.cfg = false) :
    takeEvents s = .error (.refusal .illegalConfiguration) := by
  simp [takeEvents, h]

end Sys2Proof.Machine
end

