-- ==== Sys2Proof/Laws/Pseudo.lean ====
section
/-! SUPPORT. What the assembler macros give back (R116), and that an accepted pseudo-instruction is well formed. -/

namespace Sys2Proof.Asm

/-- `(%hiadj(v) << 16) + sext_16(%lo(v)) == v` (R116). -/
theorem hiadj_lo (v : Word) : ((hiadj v).zeroExtend 32 <<< 16) + (lo v).signExtend 32 = v := by
  have hl : (lo v).toNat = v.toNat % 65536 := by simp [lo]
  have hh : (hiadj v).toNat = (v.toNat / 65536 + v.toNat / 32768 % 2) % 65536 := by
    simp [hiadj, hi, BitVec.toNat_add, Nat.shiftRight_eq_div_pow]
  have hm : (lo v).msb = decide (32768 ≤ v.toNat % 65536) := by rw [BitVec.msb_eq_decide, hl]
  have hv := v.isLt
  apply BitVec.eq_of_toNat_eq
  rw [BitVec.toNat_add, BitVec.toNat_shiftLeft, BitVec.toNat_signExtend, hm]
  simp only [BitVec.toNat_setWidth, hh, hl, Nat.shiftLeft_eq]
  by_cases h : 32768 ≤ v.toNat % 65536 <;> simp [h] <;> omega

/-- `(%hi(v) << 16) | zext_16(%lo(v)) == v` (R116). -/
theorem hi_lo (v : Word) : hi v ++ lo v = v := by
  apply BitVec.eq_of_getLsbD_eq
  intro i hi'
  simp only [BitVec.getLsbD_append, hi, lo, BitVec.getLsbD_extractLsb']
  by_cases h : i < 16
  · simp [h]
  · have : i - 16 < 16 := by omega
    have e : 16 + (i - 16) = i := by omega
    simp [h, this, e]

/-- What the assembler accepts expands to well-formed instructions. -/
theorem expand_wf (p : Pseudo) (h : p.accepted = true) : p.expand.all Instr.wf = true := by
  cases p <;> simp_all [Pseudo.accepted, Pseudo.expand, Instr.wf]

end Sys2Proof.Asm
end

