-- ==== Sys2Proof/Tests/Slice0.lean ====
section
/-! SUPPORT. Tests on fixed values, taken from the tables of the spec, and a witness for the hypotheses of every
statement of Obligations.lean. -/

namespace Sys2Proof.Tests

set_option Elab.async false

open Sys2Proof Sys2Proof.Machine

/-! ## Decoding: the words of the Example lines (95_test_vectors.md 1.1) -/

/-- Every word decodes to the instruction beside it, and the instruction encodes to the word. -/
def decodesAll (l : List (Word × Instr)) : Bool :=
  l.all (fun p => (match decodeWord p.1 with | .ok i => i == p.2 | .error _ => false) && encode p.2 == p.1)

/-- Every word is rejected. -/
def rejectsAll (l : List Word) : Bool :=
  l.all (fun w => match decodeWord w with | .ok _ => false | .error _ => true)

theorem test_decode_arithmetic : decodesAll [
    (0x3a0d883a, .add 7 8 6), (0x39bfe704, .addi 7 6 0xff9c), (0x3a0c703a, .and 7 8 6),
    (0x3980192c, .andhi 7 6 0x64), (0x3980190c, .andi 7 6 0x64), (0x3a0d283a, .div 7 8 6),
    (0x3a0d203a, .divu 7 8 6), (0x3a0d383a, .mul 7 8 6), (0x39bfe724, .muli 7 6 0xff9c),
    (0x3a0cf83a, .mulxss 7 8 6), (0x3a0cb83a, .mulxsu 7 8 6), (0x3a0c383a, .mulxuu 7 8 6),
    (0x3a0c303a, .nor 7 8 6), (0x3a0cb03a, .or 7 8 6), (0x39801934, .orhi 7 6 0x64),
    (0x39801914, .ori 7 6 0x64), (0x3a0dc83a, .sub 7 8 6), (0x3a0cf03a, .xor 7 8 6),
    (0x3980193c, .xorhi 7 6 0x64), (0x3980191c, .xori 7 6 0x64)] = true := by decide +kernel

theorem test_decode_program_control : decodesAll [
    (0x31c00026, .beq 6 7 0x0), (0x31c0000e, .bge 6 7 0x0), (0x31c0002e, .bgeu 6 7 0x0),
    (0x31c00016, .blt 6 7 0x0), (0x31c00036, .bltu 6 7 0x0), (0x31c0001e, .bne 6 7 0x0),
    (0x00000006, .br 0), (0x00000000, .call 0), (0x303ee83a, .callr 6),
    (0x6000683a, .jmp 12), (0x000ce03a, .nextpc 6), (0xf800283a, .ret)] = true := by decide +kernel

theorem test_decode_other_control : decodesAll [
    (0x003da03a, .breakpoint 0), (0xf000483a, .bret), (0xe800083a, .eret),
    (0x303fe73b, .flushd 6 0xff9c), (0x3000603a, .flushi 6), (0x0000203a, .flushp),
    (0x30000033, .initd 6 0x0), (0x3001483a, .initi 6), (0x000737fa, .rdctl 3 31),
    (0x0001b03a, .sync), (0x003b683a, .trap), (0x180171ba, .wrctl 3 6)] = true := by decide +kernel

theorem test_decode_comparison : decodesAll [
    (0x3a0d003a, .cmpeq 7 8 6), (0x39801920, .cmpeqi 7 6 0x64), (0x3a0c403a, .cmpge 7 8 6),
    (0x39801908, .cmpgei 7 6 0x64), (0x3a0d403a, .cmpgeu 7 8 6), (0x39801928, .cmpgeui 7 6 0x64),
    (0x3a0c803a, .cmplt 7 8 6), (0x39801910, .cmplti 7 6 0x64), (0x3a0d803a, .cmpltu 7 8 6),
    (0x39801930, .cmpltui 7 6 0x64), (0x3a0cc03a, .cmpne 7 8 6), (0x39801918, .cmpnei 7 6 0x64)] = true := by decide +kernel

theorem test_decode_custom : decodesAll [
    (0x3a0d8032, .custom 7 8 6 true true false 0)] = true := by decide +kernel

theorem test_decode_data_transfer : decodesAll [
    (0x29801907, .ldb 5 6 0x64), (0x29801927, .ldbio 5 6 0x64), (0x29801903, .ldbu 5 6 0x64),
    (0x29801923, .ldbuio 5 6 0x64), (0x2980190f, .ldh 5 6 0x64), (0x2980192f, .ldhio 5 6 0x64),
    (0x2980190b, .ldhu 5 6 0x64), (0x2980192b, .ldhuio 5 6 0x64), (0x29801917, .ldw 5 6 0x64),
    (0x29801937, .ldwio 5 6 0x64), (0x29801905, .stb 5 6 0x64), (0x29801925, .stbio 5 6 0x64),
    (0x2980190d, .sth 5 6 0x64), (0x2980192d, .sthio 5 6 0x64), (0x29801915, .stw 5 6 0x64),
    (0x29801935, .stwio 5 6 0x64)] = true := by decide +kernel

theorem test_decode_shift : decodesAll [
    (0x3a0c183a, .rol 7 8 6), (0x380c10fa, .roli 7 6 3), (0x3a0c583a, .ror 7 8 6),
    (0x3a0c983a, .sll 7 8 6), (0x380c90fa, .slli 7 6 3), (0x3a0dd83a, .sra 7 8 6),
    (0x380dd0fa, .srai 7 6 3), (0x3a0cd83a, .srl 7 8 6), (0x380cd0fa, .srli 7 6 3)] = true := by decide +kernel

theorem test_decode_custom_writes_r6 : decodesAll [(0x3a0dc032, .custom 7 8 6 true true true 0)] = true := by
  decide +kernel

/-- 95_test_vectors.md 2.8. -/
theorem test_decode_rejects : rejectsAll [0xffffffff, 0x00000001, 0x0000003a, 0x0000503a, 0x003b687a, 0x003a683a, 0xf000283a,
    0x3a0d887a, 0x00400006] = true := by decide +kernel

theorem test_decodeTableWord : decodeTableWord 32 0x3a0d883a = some (.add 7 8 6) ∧ decodeTableWord 32 0xffffffff = none := by
  decide +kernel

/-! ## Pseudo-instructions: the words of their Example lines (95_test_vectors.md 1.1, R223 to R230, R272 to R275) -/

theorem test_pseudo_words : ([
    (.mov 6 7, [0x380d883a]), (.movhi 6 0x8000, [0x01a00034]), (.movi 6 (-30), [0x01bff884]), (.movui 6 100, [0x01801914]),
    (.movia 6 0x12348765, [0x01848d74, 0x31a1d944]), (.subi 8 8 4, [0x423fff04]), (.nop, [0x0001883a]),
    (.cmpgt 6 7 8, [0x41cc803a]), (.cmpgti 6 7 100, [0x39801948]), (.cmplei 6 7 100, [0x39801950]),
    (.cmpgtui 6 7 100, [0x39801968]), (.cmpleui 6 7 100, [0x39801970]), (.bgt 6 7 0x10, [0x39800416]),
    (.ble 6 7 0x10, [0x3980040e]), (.bgtu 6 7 0x10, [0x39800436]), (.bleu 6 7 0x10, [0x3980042e])]
      : List (Asm.Pseudo × List Word)).all (fun p => p.1.accepted && p.1.words == p.2) = true := by decide +kernel

/-- The worked values of R116 and the range of R115. -/
theorem test_pseudo_macros : Asm.hi 0x12348765 = 0x1234 ∧ Asm.lo 0x12348765 = 0x8765 ∧ Asm.hiadj 0x12348765 = 0x1235 ∧
    Asm.hiadj 0xffff8000 = 0 ∧ (Asm.Pseudo.cmpgti 1 2 32767).accepted = false := by decide +kernel

/-- The function of R285's example: a frame of 120 bytes that keeps ra, fp, r16 and r17. -/
def example120 : Abi.Function := ⟨104, 0, fun r => r == 31 || r == 28 || r == 16 || r == 17, true, false, false, 8⟩

/-- Its prolog (R285); the epilog's words are put together from R150 (`ldw`), R185 and R262. -/
theorem test_prolog : (Abi.prolog example120).map encode =
      [0xdeffe204, 0xdfc01d15, 0xdf001c15, 0xdc001b15, 0xdc401a15, 0xd839883a] ∧
    (Abi.epilog example120).map encode = [0xdfc01d17, 0xdf001c17, 0xdc001b17, 0xdc401a17, 0xdec01e04, 0xf800283a] := by
  decide +kernel

/-- The registers r4, r5, r6 of the reset state with arguments passed. -/
def passed (resultSize : Nat) (args : List Abi.Argument) : Option (List Word) :=
  (Abi.passBytes State.reset (Abi.argumentBytes resultSize 0x2000 args)).toOption.map (fun t => [t.reg 4, t.reg 5, t.reg 6])

/-- R284: `int function (int a, int b)` has a in r4 and b in r5; a result larger than 8 bytes moves both up by its pointer. -/
theorem test_arguments : passed 4 [.scalar .int 0x11223344, .scalar .int 7] = some [0x11223344, 7, 0] ∧
    passed 12 [.scalar .int 0x11223344, .scalar .int 7] = some [0x2000, 0x11223344, 7] := by
  decide +kernel

/-- R282, R284: a char, a short and a long long as members of one structure: offsets 0, 2 and 4. -/
theorem test_packed_arguments :
    passed 4 [.scalar .char 0x55, .scalar .short 0x2233, .scalar .longLong 0x0102030405060708] =
      some [0x22330055, 0x05060708, 0x01020304] := by
  decide +kernel

/-- A frame of 40000 bytes: `movia r8, 40000`, `sub sp, sp, r8` (R285). -/
theorem test_prolog_large : Abi.prolog ⟨39997, 0, fun _ => false, false, false, false, 8⟩ =
    [.orhi 0 8 1, .addi 8 8 0x9c40, .sub 27 8 27] := by
  decide +kernel

/-! ## Well-formedness: an ill-formed term for each check -/

theorem test_wf_br : (Instr.br 2).wf = false ∧ (Instr.br 0xfffc).wf = true := by decide
theorem test_wf_branches : (Instr.beq 6 7 2).wf = false ∧ (Instr.bne 6 7 1).wf = false ∧ (Instr.bge 6 7 3).wf = false ∧
    (Instr.blt 6 7 0x7ffe).wf = false ∧ (Instr.bgeu 6 7 5).wf = false ∧ (Instr.bltu 6 7 6).wf = false := by decide
theorem test_wf_jmp : (Instr.jmp 31).wf = false ∧ (Instr.jmp 30).wf = true := by decide
theorem test_wf_rdctl : (Instr.rdctl 3 6).wf = false ∧ (Instr.rdctl 3 5).wf = true := by decide
theorem test_wf_wrctl : (Instr.wrctl 3 6).wf = false ∧ (Instr.wrctl 3 4).wf = false ∧ (Instr.wrctl 3 5).wf = true := by decide

/-! ## Small states -/

/-- The reset state at 0x1000 with two registers set. -/
def st (q : Reg) (x : Word) (r : Reg) (y : Word) : State :=
  (({ State.reset with env := [[]] }.setReg q x).setReg r y).setPc 0x1000

/-- `x[7]`, `x[8]` of the tables. -/
def at78 (x y : Word) : State := st 7 x 8 y

/-- The register `r` after an instruction; `none` where it does not go on. -/
def regAfter (i : Instr) (s : State) (r : Reg) : Option Word :=
  match exec i s with
  | .next t => some (t.reg r)
  | .fault _ => none
  | .refused _ => none

/-- The program counter after an instruction. -/
def pcAfter (i : Instr) (s : State) : Option Word :=
  match exec i s with
  | .next t => some t.pc
  | .fault _ => none
  | .refused _ => none

/-- The memory image of 95_test_vectors.md 2.1 (byte 0x2003 is 0). -/
def image : List Host.Cell :=
  [(0x2000, 0x80), (0x2001, 0xff), (0x2002, 0x7f), (0x2004, 0x78), (0x2005, 0x56), (0x2006, 0x34), (0x2007, 0x92)]

/-- That image with `x[5]` = 0x2000 and `x[6]` = 0xa1b2c3d4. -/
def mem5 : State := { st 5 0x2000 6 0xa1b2c3d4 with mem := image }

/-- The eight bytes from 0x2000 after an instruction. -/
def bytesAfter (i : Instr) (s : State) : List Byte :=
  match exec i s with
  | .next t => [readByte t.mem 0x2000, readByte t.mem 0x2001, readByte t.mem 0x2002, readByte t.mem 0x2003,
      readByte t.mem 0x2004, readByte t.mem 0x2005, readByte t.mem 0x2006, readByte t.mem 0x2007]
  | .fault _ => []
  | .refused _ => []

/-- `s` on a Nios II/f: cached below 0x80000000, past the cache above. -/
def onFast (s : State) : State := { s with cfg := { s.cfg with core := .fast } }

/-- `s` on a Nios II/e. -/
def onEconomy (s : State) : State := { s with cfg := { s.cfg with core := .economy } }

/-- `s` on a core with user mode, in user mode. -/
def inUser (s : State) : State := { s with cfg := { s.cfg with hasUserMode := true }, status := ⟨true, true⟩ }

/-! ## One step: data transfer (95_test_vectors.md 2.1) -/

theorem test_ldw :
    regAfter (.ldw 5 6 4) mem5 6 = some 0x92345678 ∧
    regAfter (.ldw 5 6 4) (onFast mem5) 6 = some 0x92345678 := by
  decide +kernel

theorem test_ldh_ldhu :
    regAfter (.ldh 5 6 6) mem5 6 = some 0xffff9234 ∧
    regAfter (.ldhu 5 6 6) mem5 6 = some 0x00009234 ∧
    regAfter (.ldh 5 6 6) (onFast mem5) 6 = some 0xffff9234 ∧
    regAfter (.ldhu 5 6 6) (onFast mem5) 6 = some 0x00009234 := by
  decide +kernel

theorem test_ldb_ldbu :
    regAfter (.ldb 5 6 7) mem5 6 = some 0xffffff92 ∧
    regAfter (.ldbu 5 6 7) mem5 6 = some 0x00000092 ∧
    regAfter (.ldb 5 6 1) (onFast mem5) 6 = some 0xffffffff ∧
    regAfter (.ldbu 5 6 1) (onFast mem5) 6 = some 0x000000ff := by
  decide +kernel

theorem test_loads_io :
    regAfter (.ldwio 5 6 4) mem5 6 = some 0x92345678 ∧
    regAfter (.ldhio 5 6 6) mem5 6 = some 0xffff9234 ∧
    regAfter (.ldhuio 5 6 6) mem5 6 = some 0x00009234 ∧
    regAfter (.ldbio 5 6 7) mem5 6 = some 0xffffff92 ∧
    regAfter (.ldbuio 5 6 7) mem5 6 = some 0x00000092 := by
  decide +kernel

theorem test_load_address_wraps :
    regAfter (.ldw 5 6 0x7fff) (mem5.setReg 5 0xffffa005) 6 = some 0x92345678 ∧
    regAfter (.ldw 5 6 4) (mem5.setReg 5 0x80002000) 6 = some 0x92345678 := by
  decide +kernel

theorem test_stw :
    bytesAfter (.stw 5 6 0) mem5 = [0xd4, 0xc3, 0xb2, 0xa1, 0x78, 0x56, 0x34, 0x92] ∧
    bytesAfter (.stwio 5 6 0) mem5 = [0xd4, 0xc3, 0xb2, 0xa1, 0x78, 0x56, 0x34, 0x92] := by
  decide +kernel

theorem test_sth :
    bytesAfter (.sth 5 6 2) mem5 = [0x80, 0xff, 0xd4, 0xc3, 0x78, 0x56, 0x34, 0x92] ∧
    bytesAfter (.sthio 5 6 4) mem5 = [0x80, 0xff, 0x7f, 0x00, 0xd4, 0xc3, 0x34, 0x92] := by
  decide +kernel

theorem test_stb :
    bytesAfter (.stb 5 6 3) mem5 = [0x80, 0xff, 0x7f, 0xd4, 0x78, 0x56, 0x34, 0x92] ∧
    bytesAfter (.stbio 5 6 5) mem5 = [0x80, 0xff, 0x7f, 0x00, 0x78, 0xd4, 0x34, 0x92] := by
  decide +kernel

/-- On the Nios II/f a store goes to the cache: memory is unchanged, and a load sees it (R71, R76, R86). -/
theorem test_cached_store :
    bytesAfter (.sth 5 6 2) (onFast mem5) = [0x80, 0xff, 0x7f, 0x00, 0x78, 0x56, 0x34, 0x92] ∧
    (match exec (.sth 5 6 2) (onFast mem5) with | .next u => regAfter (.ldw 5 9 0) u 9 | _ => none) = some 0xc3d4ff80 := by
  decide +kernel

/-! ## One step: arithmetic, comparison, shifts (95_test_vectors.md 2.2, 2.4, 2.5; R233) -/

theorem test_logical :
    regAfter (.and 7 8 6) (at78 0x12345678 0x0f0f0f0f) 6 = some 0x02040608 ∧
    regAfter (.or 7 8 6) (at78 0x12345678 0x0f0f0f0f) 6 = some 0x1f3f5f7f ∧
    regAfter (.xor 7 8 6) (at78 0x12345678 0x0f0f0f0f) 6 = some 0x1d3b5977 ∧
    regAfter (.nor 7 8 6) (at78 0x12345678 0x0f0f0f0f) 6 = some 0xe0c0a080 := by
  decide +kernel

theorem test_add_sub :
    regAfter (.add 7 8 6) (at78 0x7fffffff 0x00000001) 6 = some 0x80000000 ∧
    regAfter (.sub 7 8 6) (at78 0x00000000 0x00000001) 6 = some 0xffffffff := by
  decide +kernel

theorem test_multiply :
    regAfter (.mul 7 8 6) (at78 0x12345678 0x9abcdef0) 6 = some 0x242d2080 ∧
    regAfter (.mulxuu 7 8 6) (at78 0x12345678 0x9abcdef0) 6 = some 0x0b00ea4e ∧
    regAfter (.mulxss 7 8 6) (at78 0x12345678 0x9abcdef0) 6 = some 0xf8cc93d6 ∧
    regAfter (.mulxsu 7 8 6) (at78 0x9abcdef0 0x12345678) 6 = some 0xf8cc93d6 ∧
    regAfter (.mulxsu 7 8 6) (at78 0xffffffff 0x00000001) 6 = some 0xffffffff := by
  decide +kernel

theorem test_divide :
    regAfter (.div 7 8 6) (at78 0xfffffff9 0x00000002) 6 = some 0xfffffffd ∧
    regAfter (.divu 7 8 6) (at78 0xfffffff9 0x00000002) 6 = some 0x7ffffffc ∧
    regAfter (.div 7 8 6) (at78 0x80000000 0x00000001) 6 = some 0x80000000 := by
  decide +kernel

theorem test_arithmetic_immediate :
    regAfter (.addi 7 6 0x8000) (at78 0x00000000 0) 6 = some 0xffff8000 ∧
    regAfter (.muli 7 6 0x8000) (at78 0xffffffff 0) 6 = some 0x00008000 ∧
    regAfter (.andi 7 6 0x8000) (at78 0xffffffff 0) 6 = some 0x00008000 ∧
    regAfter (.ori 7 6 0x8000) (at78 0x12340000 0) 6 = some 0x12348000 ∧
    regAfter (.xori 7 6 0xffff) (at78 0xffffffff 0) 6 = some 0xffff0000 := by
  decide +kernel

theorem test_high_immediate :
    regAfter (.andhi 7 6 0x8000) (at78 0xffffffff 0) 6 = some 0x80000000 ∧
    regAfter (.orhi 7 6 0x8000) (at78 0x00001234 0) 6 = some 0x80001234 ∧
    regAfter (.xorhi 7 6 0xffff) (at78 0xffffffff 0) 6 = some 0x0000ffff := by
  decide +kernel

/-- R192, R342: on the Nios II/e `mul` raises the exception and leaves its destination alone. -/
theorem test_unimplemented :
    regAfter (.mul 7 8 6) (onEconomy (at78 3 5)) 6 = some 0 ∧ regAfter (.mul 7 8 6) (onEconomy (at78 3 5)) 29 = some 0x1004 ∧
    pcAfter (.divu 7 8 6) (onEconomy (at78 3 5)) = some 0x20 := by
  decide +kernel

theorem test_compare :
    regAfter (.cmpeq 7 8 6) (at78 0xffffffff 0x00000001) 6 = some 0 ∧
    regAfter (.cmpne 7 8 6) (at78 0xffffffff 0x00000001) 6 = some 1 ∧
    regAfter (.cmpge 7 8 6) (at78 0xffffffff 0x00000001) 6 = some 0 ∧
    regAfter (.cmpgeu 7 8 6) (at78 0xffffffff 0x00000001) 6 = some 1 ∧
    regAfter (.cmplt 7 8 6) (at78 0xffffffff 0x00000001) 6 = some 1 ∧
    regAfter (.cmpltu 7 8 6) (at78 0xffffffff 0x00000001) 6 = some 0 := by
  decide +kernel

theorem test_compare_immediate :
    regAfter (.cmpeqi 7 6 0x8000) (at78 0xffff8000 0) 6 = some 1 ∧
    regAfter (.cmpnei 7 6 0) (at78 0x00000000 0) 6 = some 0 ∧
    regAfter (.cmpgei 7 6 0x8000) (at78 0xffff7fff 0) 6 = some 0 ∧
    regAfter (.cmplti 7 6 0x7fff) (at78 0x00007ffe 0) 6 = some 1 ∧
    regAfter (.cmpgeui 7 6 0x8000) (at78 0x00007fff 0) 6 = some 0 ∧
    regAfter (.cmpltui 7 6 0) (at78 0x00000000 0) 6 = some 0 ∧
    regAfter (.cmpgeui 7 6 0x8000) (at78 0xffff8000 0) 6 = some 1 := by
  decide +kernel

theorem test_shift_by_register :
    regAfter (.rol 7 8 6) (at78 0x80000001 0x00000104) 6 = some 0x00000018 ∧
    regAfter (.ror 7 8 6) (at78 0x80000001 0x00000104) 6 = some 0x18000000 ∧
    regAfter (.sll 7 8 6) (at78 0x80000001 0x00000104) 6 = some 0x00000010 ∧
    regAfter (.srl 7 8 6) (at78 0x80000001 0x00000104) 6 = some 0x08000000 ∧
    regAfter (.sra 7 8 6) (at78 0x80000001 0x00000104) 6 = some 0xf8000000 := by
  decide +kernel

theorem test_shift_by_32 :
    regAfter (.rol 7 8 6) (at78 0x80000001 0x00000020) 6 = some 0x80000001 ∧
    regAfter (.ror 7 8 6) (at78 0x80000001 0x00000020) 6 = some 0x80000001 ∧
    regAfter (.sll 7 8 6) (at78 0x80000001 0x00000020) 6 = some 0x80000001 ∧
    regAfter (.srl 7 8 6) (at78 0x80000001 0x00000020) 6 = some 0x80000001 ∧
    regAfter (.sra 7 8 6) (at78 0x80000001 0x00000020) 6 = some 0x80000001 := by
  decide +kernel

theorem test_shift_by_constant :
    regAfter (.roli 7 6 3) (at78 0x80000001 0) 6 = some 0x0000000c ∧
    regAfter (.slli 7 6 3) (at78 0x80000001 0) 6 = some 0x00000008 ∧
    regAfter (.srli 7 6 3) (at78 0x80000001 0) 6 = some 0x10000000 ∧
    regAfter (.srai 7 6 3) (at78 0x80000001 0) 6 = some 0xf0000000 := by
  decide +kernel

/-! ## One step: program control (R279, 95_test_vectors.md 2.6) -/

theorem test_branches :
    pcAfter (.beq 6 7 0x10) (st 6 0x80000000 7 0x7fffffff) = some 0x1004 ∧
    pcAfter (.bne 6 7 0x10) (st 6 0x80000000 7 0x7fffffff) = some 0x1014 ∧
    pcAfter (.bge 6 7 0x10) (st 6 0x80000000 7 0x7fffffff) = some 0x1004 ∧
    pcAfter (.bgeu 6 7 0x10) (st 6 0x80000000 7 0x7fffffff) = some 0x1014 ∧
    pcAfter (.blt 6 7 0x10) (st 6 0x80000000 7 0x7fffffff) = some 0x1014 ∧
    pcAfter (.bltu 6 7 0x10) (st 6 0x80000000 7 0x7fffffff) = some 0x1004 := by
  decide +kernel

theorem test_branches_exchanged :
    pcAfter (.beq 6 7 0x10) (st 6 0x7fffffff 7 0x80000000) = some 0x1004 ∧
    pcAfter (.bne 6 7 0x10) (st 6 0x7fffffff 7 0x80000000) = some 0x1014 ∧
    pcAfter (.bge 6 7 0x10) (st 6 0x7fffffff 7 0x80000000) = some 0x1014 ∧
    pcAfter (.bgeu 6 7 0x10) (st 6 0x7fffffff 7 0x80000000) = some 0x1004 ∧
    pcAfter (.blt 6 7 0x10) (st 6 0x7fffffff 7 0x80000000) = some 0x1004 ∧
    pcAfter (.bltu 6 7 0x10) (st 6 0x7fffffff 7 0x80000000) = some 0x1014 := by
  decide +kernel

theorem test_br :
    pcAfter (.br 0x7ffc) (at78 0 0) = some 0x9000 ∧
    pcAfter (.br 0x8000) (at78 0 0) = some 0xffff9004 := by
  decide +kernel

theorem test_call :
    pcAfter (.call 0x3ffffff) ((at78 0 0).setPc 0x10001000) = some 0x1ffffffc ∧
    regAfter (.call 0) ((at78 0 0).setPc 0x1ffffffc) 31 = some 0x20000000 ∧
    pcAfter (.call 0) ((at78 0 0).setPc 0x1ffffffc) = some 0x10000000 := by
  decide +kernel

theorem test_callr_reads_first :
    pcAfter (.callr 31) (st 31 0x2000 8 0) = some 0x2000 ∧
    regAfter (.callr 31) (st 31 0x2000 8 0) 31 = some 0x1004 := by
  decide +kernel

theorem test_ret_jmp_nextpc :
    pcAfter .ret (st 31 0x1004 8 0) = some 0x1004 ∧
    pcAfter (.jmp 8) (at78 0 0x80002000) = some 0x80002000 ∧
    regAfter (.nextpc 6) ((at78 0 0).setPc 0xfffffffc) 6 = some 0 := by
  decide +kernel

/-! ## One step: the other instructions (R305, 95_test_vectors.md 2.7) -/

/-- The control registers `status`, `estatus`, `bstatus`, `ienable` and `pc` after an instruction. -/
def controlAfter (i : Instr) (s : State) : List Word :=
  match exec i s with
  | .next t => [statusWord t.cfg t.status, statusWord t.cfg t.estatus, statusWord t.cfg t.bstatus, t.ienable, t.pc]
  | .fault _ => []
  | .refused _ => []

/-- `x[3]` = v, and interrupts enabled. -/
def on3 (v : Word) : State := { st 3 v 4 0 with status := ⟨false, true⟩ }

theorem test_trap :
    controlAfter .trap (on3 0) = [0, 1, 0, 0, 0x20] ∧
    regAfter .trap (on3 0) 29 = some 0x1004 := by
  decide +kernel

theorem test_break :
    controlAfter (.breakpoint 31) (on3 0) = [0, 0, 1, 0, 0x100] ∧
    regAfter (.breakpoint 0) (on3 0) 30 = some 0x1004 := by
  decide +kernel

theorem test_eret :
    controlAfter .eret { st 29 0x3000 4 0 with estatus := ⟨false, true⟩ } = [1, 1, 0, 0, 0x3000] := by
  decide +kernel

theorem test_bret :
    controlAfter .bret { st 30 0x3000 4 0 with bstatus := ⟨false, true⟩ } = [1, 0, 1, 0, 0x3000] := by
  decide +kernel

theorem test_eret_in_user_mode :
    controlAfter .eret (inUser (st 29 0x3000 4 0)) = [0, 3, 0, 0, 0x20] ∧
    regAfter .eret (inUser (st 29 0x3000 4 0)) 29 = some 0x1004 := by
  decide +kernel

theorem test_wrctl_status :
    controlAfter (.wrctl 3 0) (on3 0xfffffffe) = [0, 0, 0, 0, 0x1004] ∧
    controlAfter (.wrctl 3 1) (on3 0xffffffff) = [1, 1, 0, 0, 0x1004] ∧
    controlAfter (.wrctl 3 2) (on3 1) = [1, 0, 1, 0, 0x1004] := by
  decide +kernel

theorem test_wrctl_ienable :
    controlAfter (.wrctl 3 3) (on3 0xffffffff) = [1, 0, 0, 0xffffffff, 0x1004] := by
  decide +kernel

theorem test_rdctl :
    regAfter (.rdctl 4 4) { on3 0 with ienable := 0x0000ff00, irqLines := 0x00010180 } 4 = some 0x00000100 ∧
    regAfter (.rdctl 4 3) { on3 0 with ienable := 0x0000ff00 } 4 = some 0x0000ff00 ∧
    regAfter (.rdctl 4 5) (on3 0) 4 = some 1 := by
  decide +kernel

theorem test_sync_flushp :
    pcAfter .sync (on3 0) = some 0x1004 ∧
    pcAfter .flushp (on3 0) = some 0x1004 := by
  decide +kernel

/-- R87, R88: a dirty line for 0x2000 is written back by `flushd`, dropped by `initd`. -/
theorem test_flushd_initd :
    bytesAfter (.flushd 5 0) { onFast mem5 with dcache := [(0, ⟨2, true, 0x44332211⟩)] } =
      [0x11, 0x22, 0x33, 0x44, 0x78, 0x56, 0x34, 0x92] ∧
    bytesAfter (.initd 5 0) { onFast mem5 with dcache := [(0, ⟨2, true, 0x44332211⟩)] } =
      [0x80, 0xff, 0x7f, 0x00, 0x78, 0x56, 0x34, 0x92] := by
  decide +kernel

/-- R90: the line of the address becomes invalid. -/
theorem test_flushi_initi :
    (match exec (.flushi 5) { mem5 with icache := [(0, ⟨2, Vector.replicate 8 0⟩)] } with
      | .next t => t.icache | _ => [(9, ⟨9, Vector.replicate 8 0⟩)]) = [] ∧
    (match exec (.initi 5) { mem5 with icache := [(0, ⟨2, Vector.replicate 8 0⟩)] } with
      | .next t => t.icache | _ => [(9, ⟨9, Vector.replicate 8 0⟩)]) = [] := by
  decide +kernel

/-- R320: without `writerc` no register of the core changes. -/
theorem test_custom : regAfter (.custom 7 8 6 true true false 0) (at78 3 5) 6 = some 0 ∧
    pcAfter (.custom 7 8 6 true true false 0) (at78 3 5) = some 0x1004 := by
  decide +kernel

/-! ## The machine -/

/-- The first step after reset runs the placed word (log 41). -/
theorem test_first_step :
    (match Sys2Proof.core.step (State.reset.withFetchWord 32 0x39bfe704) with
      | .next t => some (State.reg t 6, State.pc t) | _ => none) = some (0xffffff9c, 4) := by
  decide +kernel

/-- R336, R337: an enabled interrupt is taken instead of the instruction at `pc`; `ea` is four bytes after it. -/
theorem test_interrupt :
    (match step { on3 0 with irqLines := 0x80, ienable := 0x80 } with
      | .next t => some (t.reg 29, t.pc, t.estatus.pie, t.status.pie) | _ => none) = some (0x1004, 0x20, true, false) := by
  decide +kernel

/-- R407, R410: period 0: the timer times out in every cycle and holds its interrupt output. -/
theorem test_timer :
    ((Timer.cycle ⟨⟨0, true, true, true, false⟩, false, true, true, true, 0, 0, 0⟩).1).irq = true := by
  decide

/-- R338: an input that is connected to nothing is never asserted. -/
theorem test_unconnected_irq : irq { on3 0 with irqLines := 0x000000ff } = 0x000000c0 := by
  decide +kernel

/-- R442: the mutex refuses a writer whose OWNER does not match. -/
theorem test_mutex :
    (match Mutex.write ⟨0, 0, 0x00010001, false⟩ 0 0x00020001 0xffffffff with
      | .ok d => d.mutex | .error _ => 0) = 0x00010001 := by
  decide


/-! ## Witnesses: states and operands that meet the hypotheses of each statement -/

/-- The outcome is a next state. -/
def goesOn (o : Host.Outcome State Fault Refusal) : Bool :=
  match o with
  | .next _ => true
  | .fault _ => false
  | .refused _ => false

/-- What a port of a core finds at an address. -/
def kindAt (s : State) (port : Region → Bool) (a : Word) : Option RegionKind := (findRegion s.cfg port a).map Region.kind

theorem witness_EncodeOfDecode : decodeWord 0x3a0d883a = .ok (.add 7 8 6) ∧ decodeWord 0 = .ok (.call 0) := by
  exact ⟨rfl, rfl⟩

theorem witness_ReservedOpcodesRejected :
    (∃ w : Word, fieldOp w ∈ Laws.reservedOps) ∧ (∃ w : Word, fieldOp w = 0x3a ∧ fieldOpx w ∈ Laws.reservedOpxs) :=
  ⟨⟨0xffffffff, by decide⟩, ⟨0x0000003a, by decide⟩⟩

/-- For LogicalRegister, LogicalImmediate, AddAndSubtract, CompareRegister, CompareImmediate. -/
theorem witness_anyCore : anyCore State.reset.cfg = true := rfl

theorem witness_MultiplyLow : mulImplemented State.reset.cfg = true := rfl

theorem witness_MultiplyHigh : mulxImplemented State.reset.cfg = true := rfl

/-- A defined quotient at the edge: -2^31 by 1; 0xffffffff by 1; and both undefined cases. -/
theorem witness_Divide : divImplemented State.reset.cfg = true ∧
    ((at78 0x80000000 1).reg 8).toInt ≠ 0 ∧
    ¬ (((at78 0x80000000 1).reg 7).toInt = -2 ^ 31 ∧ ((at78 0x80000000 1).reg 8).toInt = -1) ∧
    ((at78 0xffffffff 1).reg 8).toNat ≠ 0 := by
  decide +kernel

theorem witness_UnimplementedInstruction : mulImplemented (onEconomy State.reset).cfg = false ∧
    mulxImplemented (onEconomy State.reset).cfg = false ∧ divImplemented (onEconomy State.reset).cfg = false := by
  decide

/-- The first and the last word of RAM, flash and ROM, the last halfword and byte of RAM, with and without `io`, and past the
cache of a Nios II/f by bit 31. -/
theorem witness_LoadsFromMemory :
    [0x00000000, 0x7ffdfffc, 0x7ffdfffe, 0x7ffdffff, 0x7ffe0000, 0x7ffefffc, 0x7fff0000, 0x7fff03fc].all (fun a =>
      bypasses State.reset.cfg a false && bypasses State.reset.cfg a true &&
        kindAt State.reset Region.data a ∈ [some .ram, some .rom, some .flash]) = true ∧
    bypasses (onFast State.reset).cfg 0x80000000 false = true ∧
    kindAt (onFast State.reset) Region.data 0x80000000 = some .ram := by
  decide +kernel

theorem witness_StoresToRam :
    [0x00000000, 0x7ffdfffc, 0x7ffdfffe, 0x7ffdffff].all (fun a =>
      bypasses State.reset.cfg a false && bypasses (onFast State.reset).cfg a true &&
        kindAt State.reset Region.data a == some .ram) = true := by
  decide +kernel

/-- A hit, a miss on an empty line, a miss that evicts a clean line and one that evicts a dirty line to RAM. -/
theorem witness_CachedAccesses : bypasses (onFast mem5).cfg 0x2000 false = false ∧
    (keyGet { onFast mem5 with dcache := [(0, ⟨2, false, 5⟩)] }.dcache (dIndex (onFast mem5).cfg 0x2000) = some ⟨2, false, 5⟩ ∧
      dTag (onFast mem5).cfg 0x2000 = 2) ∧
    keyGet (onFast mem5).dcache (dIndex (onFast mem5).cfg 0x2000) = none ∧
    kindAt (onFast mem5) Region.data (wordAddr 0x2003) = some .ram ∧
    mapped (onFast mem5).cfg Region.data 0x2000 = true ∧ mapped (onFast mem5).cfg Region.data 0x2003 = true ∧
    kindAt (onFast mem5) Region.data (dLineAddr (onFast mem5).cfg 1 0) = some .ram := by
  decide +kernel

theorem witness_UndefinedLoadsComplete : (0x2001 : Word).toNat % 4 ≠ 0 ∧ (0x2003 : Word).toNat % 2 ≠ 0 ∧
    findRegion State.reset.cfg Region.data 0x7fff2000 = none ∧ findRegion State.reset.cfg Region.data 0xffffffff = none ∧
    findRegion (onFast State.reset).cfg Region.data 0x7fff2000 = none ∧
    bypasses (onFast State.reset).cfg 0x7fff2000 false = false ∧ bypasses (onFast State.reset).cfg 0xffffffff false = true := by
  decide +kernel

theorem witness_StoreStops : (0x2002 : Word).toNat % 4 ≠ 0 ∧ (0x2001 : Word).toNat % 2 ≠ 0 ∧
    findRegion State.reset.cfg Region.data 0x7fff2000 = none ∧ findRegion (onFast State.reset).cfg Region.data 0x7fff2000 = none ∧
    kindAt State.reset Region.data 0x7ffe0000 = some .flash ∧
    kindAt State.reset Region.data 0x7ffeffff = some .flash := by
  decide +kernel

theorem witness_StoreThenLoad : goesOn (exec (.stw 5 6 0) mem5) = true ∧
    bypasses mem5.cfg (effAddr mem5 5 0) false = true ∧ kindAt mem5 Region.data (effAddr mem5 5 0) = some .ram ∧
    goesOn (exec (.stw 5 6 0) (onFast mem5)) = true ∧ bypasses (onFast mem5).cfg (effAddr mem5 5 0) false = false := by
  decide +kernel

/-- The first and the last register of the timer at 0x7fff1000, and the mutex. -/
theorem witness_PeripheralAccess : kindAt State.reset Region.data 0x7fff1000 = some (.device 0) ∧
    kindAt State.reset Region.data 0x7fff1014 = some (.device 0) ∧ bypasses State.reset.cfg 0x7fff1000 false = true ∧
    (deviceAt State.reset.devices 0).isSome = true ∧ (deviceAt State.reset.devices 4).isSome = true ∧
    kindAt State.reset Region.data 0x7fff1084 = some (.device 4) ∧
    (match (Core.mutex ⟨0, 0, 0, true⟩).write 1 1 0xffffffff 0 with | .ok _ => true | .error _ => false) = true := by
  decide +kernel

theorem witness_Branches : branchOffsetOk 0 = true ∧ branchOffsetOk 0xfffc = true ∧ branchOffsetOk 0x8000 = true ∧
    aligned .word 0 = true ∧ aligned .word 0xfffffffc = true ∧ (0 : Word) = 0 ∧ (0 : Word).toInt ≤ (0 : Word).toInt ∧
    (0xffffffff : Word).toInt < (0 : Word).toInt ∧ (0 : Word).toNat < (0xffffffff : Word).toNat := by
  decide

/-- For CallsAndNextpc, JumpAndReturn, TransferStops: aligned and misaligned targets in r8 and r31. -/
theorem witness_transfers : aligned .word ((st 8 0xfffffffc 31 0).reg 8) = true ∧ (8 : Reg) ≠ 31 ∧
    aligned .word ((st 8 0xfffffffc 31 0).reg 31) = true ∧ aligned .word ((st 8 1 31 3).reg 8) = false ∧
    aligned .word ((st 8 1 31 3).reg 31) = false ∧ aligned .word (branchTarget (at78 0 0) 2) = false ∧
    (at78 0 0).reg 7 = (at78 0 0).reg 8 ∧ (at78 0 1).reg 7 ≠ (at78 0 1).reg 8 ∧
    ((at78 0 1).reg 7).toInt < ((at78 0 1).reg 8).toInt ∧ aligned .word (branchTarget (at78 0 1) 2) = false ∧
    (st 29 1 30 2).status.u = false ∧ aligned .word ((st 29 1 30 2).reg 29) = false ∧
    aligned .word ((st 29 1 30 2).reg 30) = false := by
  decide +kernel

theorem witness_ExceptionAndBreakReturn : (st 29 0x3000 30 0).status.u = false ∧
    aligned .word ((st 29 0x3000 30 0).reg 29) = true ∧ aligned .word ((st 29 0x3000 30 0).reg 30) = true := by
  decide +kernel

theorem witness_TrapThenReturn : userBitsLegal State.reset = true ∧ aligned .word State.reset.pc = true ∧
    userBitsLegal (inUser State.reset) = true ∧ goesOn (exec .trap State.reset) = true ∧
    goesOn (exec (.breakpoint 31) (inUser State.reset)) = true := by
  decide +kernel

theorem witness_AccessViolation : (inUser State.reset).status.u = true ∧ (inUser State.reset).cfg.hasUserMode = true ∧
    Instr.rdctl 3 0 ∈ [Instr.rdctl 3 0, .wrctl 3 0, .bret, .eret, .initd 3 0, .initi 3] := by
  decide

/-- An instruction that stays in user mode, one that enters the exception handler, one that enters the break handler. -/
theorem witness_UserModeConfined : goesOn (exec (.add 7 8 6) (inUser (at78 0 0))) = true ∧
    goesOn (exec (.wrctl 7 0) (inUser (at78 0 0))) = true ∧ goesOn (exec (.breakpoint 0) (inUser (at78 0 0))) = true := by
  decide +kernel

/-- For ReadControl, WriteControl, AbsentControlRegisters, InitDataLine: supervisor mode; the first and the last absent
control register. -/
theorem witness_supervisor : State.reset.status.u = false ∧ 6 ≤ (6 : Reg).toNat ∧ 6 ≤ (31 : Reg).toNat := by
  decide

theorem witness_FlushDataLine : hasDCache State.reset.cfg = false ∧ hasDCache (onFast mem5).cfg = true ∧
    keyGet (onFast mem5).dcache 0 = none ∧ dIndex (onFast mem5).cfg 0x2000 = 0 ∧
    keyGet { onFast mem5 with dcache := [(0, ⟨2, true, 5⟩)] }.dcache 0 = some ⟨2, true, 5⟩ ∧
    kindAt (onFast mem5) Region.data (dLineAddr (onFast mem5).cfg 2 0) = some .ram := by
  decide +kernel

theorem witness_InvalidateInstructionLine :
    Instr.initi 5 = .flushi 5 ∨ (Instr.initi 5 = .initi 5 ∧ State.reset.status.u = false) := by
  decide

/-- The whole sequence of R84, with `x[5]` = 0x2000. -/
theorem witness_NewInstructionFetched : staleLegal mem5 = true ∧ kindAt mem5 Region.data (effAddr mem5 5 0) = some .ram ∧
    (findRegion mem5.cfg Region.instr (effAddr mem5 5 0)).isSome = true ∧
    (match exec (.stwio 5 6 0) mem5 with
      | .next t => t.reg 5 == effAddr mem5 5 0 &&
        (match exec (.flushi 5) t with | .next u => goesOn (exec .flushp u) | _ => false)
      | _ => false) = true := by
  decide +kernel

theorem witness_CustomInstruction : (0 : BitVec 8).toNat ∈ State.reset.cfg.customPresent ∧
    (255 : BitVec 8).toNat ∈ State.reset.cfg.customPresent ∧
    (0 : BitVec 8).toNat ∉ { Config.initial with customPresent := [] }.customPresent := by
  decide +kernel

theorem witness_ZeroRegister : (1 : Reg) ≠ 0 ∧ (31 : Reg) ≠ 0 ∧ (0 : Reg) ≠ 31 := by
  decide

/-- A boundary with no event: the word at 0x2000 is `add r6, r7, r8`, the word at 0x2004 is reserved. -/
def boundary (a : Word) : State :=
  { State.reset with
    pc := a
    env := [[]]
    mem := [(0x2000, 0x3a), (0x2001, 0x88), (0x2002, 0x0d), (0x2003, 0x3a), (0x2004, 0xff), (0x2005, 0xff), (0x2006, 0xff),
      (0x2007, 0xff)] }

theorem witness_StepRunsInstruction : ∃ t u v, takeEvents (boundary 0x2000) = .ok t ∧ nextAction t = .instruction ∧
    fetch t = .ok (0x3a0d883a, u) ∧ decodeWord 0x3a0d883a = .ok (.add 7 8 6) ∧
    (u.execTriggers = [] ∧ u.dataTriggers = [] ∧ u.trace.on = false) ∧
    takeEvents (boundary 0x2004) = .ok v ∧ nextAction v = .instruction ∧
    (∃ x, fetch v = .ok (0xffffffff, x)) ∧ decodeWord 0xffffffff = .error (.reservedOp 0x3f) :=
  ⟨_, _, _, rfl, by decide +kernel, rfl, rfl, ⟨rfl, rfl, rfl⟩, rfl, by decide +kernel, ⟨_, rfl⟩, rfl⟩

/-- Steps of a store where nothing is mapped and of `jmp r31`, which stop, and of an `add` on a core without debug module. -/
theorem witness_StepRunsInstruction_outcomes :
    (match step (placeWord ((boundary 0x2000).setReg 5 0x7fffff00) (encode (.stw 5 0 0))) with
      | .fault f => some f | _ => none) = some (.unmappedStore 0x7fffff00) ∧
    (match step (placeWord (boundary 0x2000) (encode (.jmp 31))) with
      | .refused q => some q | _ => none) = some .jumpThroughRa ∧
    goesOn (step (placeWord { boundary 0x2000 with cfg := { State.reset.cfg with debugLevel := .noDebug } }
      (encode (.add 7 8 6)))) = true := by
  decide +kernel

/-- The first and the last word of RAM, with and without an instruction cache, and after a miss on another tag. -/
theorem witness_FetchReadsMemory : aligned .word State.reset.pc = true ∧ kindAt State.reset Region.instr 0 = some .ram ∧
    kindAt State.reset Region.instr 0x7ffdfffc = some .ram ∧ kindAt State.reset Region.instr 0x7fff0000 = some .rom ∧
    State.reset.stale = [] ∧ hasICache State.reset.cfg = true ∧ State.reset.icache = [] ∧
    hasICache (onEconomy State.reset).cfg = false ∧ iTag State.reset.cfg (phys 0) ≠ 1 := by
  decide +kernel

theorem witness_InterruptInputs : (0 : Nat) < 32 ∧ (31 : Nat) < 32 := by
  decide

/-- One state for each action of the boundary. -/
theorem witness_BoundaryOrder :
    ((takeEvents { boundary 0x2000 with resetReq := true, hwBreak := true, irqLines := 0x40, ienable := 0x40, status := ⟨false, true⟩ }).toOption.map
      nextAction) = some .reset ∧
    ((takeEvents { boundary 0x2000 with hwBreak := true, irqLines := 0x40, ienable := 0x40, status := ⟨false, true⟩ }).toOption.map
      nextAction) = some .hardwareBreak ∧
    ((takeEvents { boundary 0x2000 with irqLines := 0x40, ienable := 0x40, status := ⟨false, true⟩ }).toOption.map
      nextAction) = some .interrupt ∧
    ((takeEvents { boundary 0x2000 with irqLines := 0x40, ienable := 0x40 }).toOption.map nextAction) = some .instruction := by
  decide +kernel

/-- A machine with other entry addresses. -/
def withEntries (r e b : Word) : State :=
  { State.reset with cfg := { Config.initial with resetAddr := r, exceptionAddr := e, breakAddr := b } }

/-- An address that is no multiple of 4, one in a peripheral, one past the end of all regions; each is refused as the reset, the
exception or the break address, while the last word of the boot ROM is allowed. -/
theorem witness_BoundaryOrder_refused : (0x22 : Word).toNat % 4 ≠ 0 ∧
    kindAt State.reset Region.instr 0x7fff1000 = none ∧ kindAt State.reset Region.instr 0x7fff2000 = none ∧
    takeEvents (withEntries 0x22 0x20 0x100) = .error (.refusal .illegalConfiguration) ∧
    takeEvents (withEntries 0 0x7fff1000 0x100) = .error (.refusal .illegalConfiguration) ∧
    takeEvents (withEntries 0 0x20 0x7fff2000) = .error (.refusal .illegalConfiguration) ∧
    entriesLegal (withEntries 0x7fff03fc 0x20 0x100).cfg = true := by
  decide +kernel

/-- The machine with a timer of other options under number 0. -/
def withTimer (o : TimerOpts) : State :=
  { State.reset with devices := setDevice State.reset.devices 0 (.timer ⟨o, true, false, false, false, 0, 0, 0⟩) }

/-- A timer, a PIO, a mutex, a UART and an SPI core stand in the machine after a reset; so does, in another configuration, a
watchdog, and a timer without Start/Stop. -/
theorem witness_SystemReset : (∃ d, deviceAt (systemReset State.reset).devices 0 = some (.timer d)) ∧
    (∃ d, deviceAt (systemReset (withTimer ⟨9, false, false, false, true⟩)).devices 0 = some (.timer d) ∧
      d.opts.watchdog = true) ∧
    (∃ d, deviceAt (systemReset (withTimer ⟨9, false, false, false, false⟩)).devices 0 = some (.timer d) ∧
      d.opts.watchdog = false ∧ d.opts.startStop = false) ∧
    (∃ d, deviceAt (systemReset State.reset).devices 2 = some (.pio d)) ∧
    (∃ d, deviceAt (systemReset State.reset).devices 4 = some (.mutex d)) ∧
    (∃ d, deviceAt (systemReset State.reset).devices 7 = some (.uart d)) ∧
    (∃ d, deviceAt (systemReset State.reset).devices 8 = some (.spi d)) :=
  ⟨⟨_, rfl⟩, ⟨_, rfl, rfl⟩, ⟨_, rfl, rfl, rfl⟩, ⟨_, rfl⟩, ⟨_, rfl⟩, ⟨_, rfl⟩, ⟨_, rfl⟩⟩

theorem witness_InvKept : Inv (boundary 0x2000) ∧ goesOn (step (boundary 0x2000)) = true := by
  unfold Machine.Inv
  decide +kernel

/-- A level-2 core about to execute at 0x2000 with `x[5]` = 0x1000, and a trigger on writes to 0x1000 to 0x1003. -/
def watching (e : List ExecTrigger) (a : TriggerAction) : State :=
  { (boundary 0x2000).setReg 5 0x1000 with
    cfg := { State.reset.cfg with debugLevel := .level2 }
    execTriggers := e
    dataTriggers := [⟨some (0x1000, 0x1003), none, some .write, false, a⟩] }

/-- A watchpoint on a store (R367): a byte store inside the range requests a break, one beside it, and a load, do not. -/
theorem test_data_trigger :
    (fireTriggers (watching [] .takeBreak) (.stb 5 0 3) (watching [] .takeBreak)).hwBreak = true ∧
    (fireTriggers (watching [] .takeBreak) (.stb 5 0 4) (watching [] .takeBreak)).hwBreak = false ∧
    (fireTriggers (watching [] .takeBreak) (.ldb 5 0 3) (watching [] .takeBreak)).hwBreak = false ∧
    (fireTriggers (watching [] .arm) (.stb 5 0 3) (watching [] .arm)).armed = true := by
  decide +kernel

/-- An execution breakpoint breaks at its address (R351), an armed one only when armed (R367). -/
theorem test_execution_breakpoint : breakRequested (watching [⟨0x2000, false, .takeBreak⟩] .arm) = true ∧
    breakRequested (watching [⟨0x2004, false, .takeBreak⟩] .arm) = false ∧
    breakRequested (watching [⟨0x2000, true, .takeBreak⟩] .arm) = false ∧
    breakRequested { watching [⟨0x2000, true, .takeBreak⟩] .arm with armed := true } = true := by
  decide +kernel

/-- A timer with `n` in its counter. -/
def timerAt (n : Word) : Timer := ⟨⟨999, true, true, true, false⟩, false, true, true, true, 999, n, 0⟩

theorem witness_TimerPeriod : (timerAt 0).running = true ∧ (timerAt 0).timeout = false ∧ (timerAt 0).counter.toNat = 0 ∧
    (timerAt 0xffffffff).counter.toNat = 2 ^ 32 - 1 := by
  decide

theorem witness_TimerInterrupt : (timerAt 0).running = true ∧ (timerAt 0).counter = 0 ∧ (timerAt 0).ito = true ∧
    (2 : Word).getLsbD 0 = false ∧
    (match (timerAt 0).write 1 2 0xffffffff with | .ok _ => true | .error _ => false) = true := by
  decide

/-- The DMA controller of the reset state, in a transaction of one word from 0x2000 to 0x2004, with GO, LEEN and WORD. -/
def dmaBusy : Dma := ⟨⟨31, 31, 2, 32, [1, 2, 4, 8, 16]⟩, false, true, false, false, false, 0x2000, 0x2004, 4, 0x08c,
  0x2000, 0x2004, [], 0, 0, false, false, false, 4, 0x08c⟩

/-- R456: of a unit of 8 bytes no word is written before both are read; once one is written the other follows. -/
theorem test_dma_whole_units : ({ dmaBusy with fifo := [1] }).canWrite 8 = false ∧
    ({ dmaBusy with fifo := [1, 2] }).canWrite 8 = true ∧
    ({ dmaBusy with fifo := [2], writePart := 1 }).canWrite 8 = true := by
  decide

/-- The machine with it. -/
def dmaState : State := { mem5 with devices := setDevice mem5.devices 5 (.dma dmaBusy) }

/-- The same controller with its registers set and nothing begun. -/
def dmaSet : Dma := { dmaBusy with busy := false, readCur := 0, writeCur := 0, unit := 0, mode := 0 }

theorem witness_DmaMovesWord : deviceAt dmaState.devices 5 = some (.dma dmaBusy) ∧ dmaBusy.active = true ∧
    dmaBusy.begin dmaState.freeNow = dmaBusy ∧ dmaBusy.unit = 4 ∧ dmaBusy.length.toNat = 4 ∧ dmaBusy.mode.getLsbD 7 = true ∧
    dmaBusy.fifo = [] ∧ dmaBusy.readPart = 0 ∧ dmaBusy.writePart = 0 ∧ dmaBusy.readEnd = false ∧ dmaBusy.writeEnd = false ∧
    0 < dmaBusy.opts.fifoDepth ∧ kindAt dmaState (dmaReadPort 5) dmaBusy.readCur = some .ram ∧
    kindAt dmaState (dmaWritePort 5) dmaBusy.writeCur = some .ram ∧
    dmaSet.busy = false ∧ dmaSet.active = true ∧ dmaSet.width = some 4 ∧ dmaSet.legal = true := by
  refine ⟨rfl, rfl, rfl, ?_⟩
  decide +kernel

/-- R455, R456: GO with no width selected is accepted, with two refused; a busy controller takes a new `length`, and refuses to
lose GO (P9, P11). -/
theorem test_dma_writes :
    ({ dmaSet with control := 0 }.write 6 0x88 0xffffffff 0).isOk = true ∧
    ({ dmaSet with control := 0 }.write 6 0x8e 0xffffffff 0).isOk = false ∧
    (dmaBusy.write 3 8 0xffffffff 1).toOption.map Dma.length = some 8 ∧
    (dmaBusy.write 3 8 0xffffffff 0).toOption.map Dma.length = some 4 ∧
    (dmaBusy.write 6 0x84 0xffffffff 0).isOk = false := by
  decide +kernel

/-- A PIO core of 32 pins, the highest one captured already. -/
def pioOf (kind : PioKind) (e : EdgeKind) : Pio := ⟨⟨32, kind, some e, some .edge⟩, 0, 0, 0, 0, 0x80000000, 0⟩

/-- R424, per clock: a rising edge that a clock cycle sees is captured, a pulse between two clock cycles is not. -/
theorem test_pio_edge_per_clock :
    ((pioOf .inputOnly .rising).setPins 4).cycle.edgecapture = 0x80000004 ∧
    (((pioOf .inputOnly .rising).setPins 4).setPins 0).cycle.edgecapture = 0x80000000 := by
  decide +kernel

theorem witness_PioEdgeCapture : (pioOf .inputOnly .rising).opts.kind ≠ .outputOnly ∧
    (pioOf .inputOnly .rising).opts.kind ≠ .bidirectional ∧ (pioOf .inputOutput .falling).opts.kind ≠ .outputOnly ∧
    (pioOf .bidirectional .either).opts.kind = .bidirectional ∧
    (pioOf .bidirectional .either).direction.getLsbD 31 = false ∧ 31 < (pioOf .bidirectional .either).opts.width ∧
    (pioOf .inputOnly .rising).opts.capture = some .rising ∧ (pioOf .inputOnly .falling).opts.capture = some .falling ∧
    (pioOf .inputOnly .either).opts.capture = some .either ∧
    (pioOf .inputOnly .either).edgecapture.getLsbD 31 = true ∧
    ((Core.pio ((pioOf .inputOnly .either).setPins 1)).cycle 0).2 = false := by
  decide +kernel

/-- The JTAG UART of the reset state with the characters `l` from the host. -/
def jtagWith (l : List Byte) : JtagUart := ⟨⟨64, 64, 8, 8⟩, [], l, false, false, false, true⟩

theorem witness_JtagUartData : (jtagWith [0x41]).readFifo = 0x41 :: [] ∧ ([] : List Byte).length < 2 ^ 16 ∧
    (jtagWith []).readFifo = [] ∧ (0xffff80ff : Word) &&& 0x7f00 = 0 := by
  decide

/-- R494: DCTS is set by a change of CTS_N that a clock cycle sees, not by a pulse between two; CTS follows the pin at once. -/
theorem test_uart_cts : ∃ d, deviceAt State.reset.devices 7 = some (.uart d) ∧ (d.setCts false).cts = true ∧
    (d.setCts false).dcts = false ∧ (d.setCts false).cycle.dcts = true ∧ ((d.setCts false).setCts true).cycle.dcts = false ∧
    (d.setCts false).cycle.cycle = (d.setCts false).cycle :=
  ⟨_, rfl, by decide +kernel⟩

theorem witness_UartTransmits : ∃ d e, deviceAt State.reset.devices 7 = some (.uart d) ∧ d.trdy = true ∧ d.txLeft = 0 ∧
    d.write 1 0x41 0xffffffff 0 = .ok e :=
  ⟨_, _, rfl, rfl, rfl, rfl⟩

/-- An SPI master of 16 bits with a free or a full transmitter. -/
def spiWith (trdy : Bool) : Spi := ⟨⟨true, 16, 1, 4, 0⟩, 0, 0, trdy, 0, 0, false, false, false, 0, 1, 0⟩

theorem witness_SpiReceive : (spiWith true).rrdy = false ∧ (spiWith true).opts.width = 16 ∧ 15 < (spiWith true).opts.width ∧
    (spiWith false).trdy = false := by
  decide

/-- R481, R491: ones in the reserved bits of a `data`, `txdata` or `endofpacket` register are refused. -/
theorem test_reserved_bits :
    ((jtagWith []).write 0 0x4041 0xffffffff).toOption = none ∧
    ((jtagWith []).write 0 0x0041 0xffffffff).toOption.map JtagUart.writeFifo = some [0x41] := by
  decide

/-- R483: a character of the host is JTAG activity. -/
theorem test_jtag_activity :
    (jtagWith []).hostSend 0x41 = { jtagWith [0x41] with ac := true } := by
  decide

/-- R10, R366: a Nios II/e has the data triggers of its debug level, and no hardware breakpoints (R8). -/
theorem test_economy_triggers :
    triggerCapacity { State.reset.cfg with core := .economy, debugLevel := .level4 } = 0 ∧
    dataTriggerCapacity { State.reset.cfg with core := .economy, debugLevel := .level4 } = 4 := by
  decide

/-- R84: a word stored past the cache under a dirty line for it, then `flushi`, `flushp`: the fetch returns the word. -/
theorem test_store_under_dirty_line :
    (match exec (.stwio 5 6 0) { onFast (st 5 0x2000 6 0x0001883a) with dcache := [(0, ⟨2, true, 5⟩)] } with
      | .next t => match exec (.flushi 5) t with
        | .next u => match exec .flushp u with
          | .next v => some (fetchOf v 0x2000).1
          | _ => none
        | _ => none
      | _ => none) = some 0x0001883a := by
  decide +kernel

/-- R68, U1: a cached store where nothing is mapped stops, on a Nios II/f. -/
theorem test_unmapped_cached_store :
    (match exec (.stw 5 6 0) (onFast (st 5 0x7fff2000 6 1)) with | .fault f => some f | _ => none) =
      some (.unmappedStore 0x7fff2000) := by
  decide +kernel

end Sys2Proof.Tests
end

section
/-! SUPPORT. What an executed instruction can do to the processor: one inversion lemma over all instructions, and user-mode
confinement (R294, R340, R360, R361). -/

namespace Sys2Proof.Machine

/-- `t` comes from `s` by operations that leave the general registers, `pc` and the control registers alone and keep the
canonical forms: `Quiet` without what it says of the instruction cache, the custom logic and the debug module. -/
structure Aside (s t : State) : Prop where
  cfg : t.cfg = s.cfg
  regs : t.regs = s.regs
  pc : t.pc = s.pc
  status : t.status = s.status
  estatus : t.estatus = s.estatus
  bstatus : t.bstatus = s.bstatus
  ienable : t.ienable = s.ienable
  mem : Memory.wf s.mem = true → Memory.wf t.mem = true
  icache : keysRising s.icache = true → keysRising t.icache = true
  dcache : keysRising s.dcache = true → keysRising t.dcache = true
  stale : staleLegal s = true → staleLegal t = true

theorem Aside.refl (s : State) : Aside s s := by constructor <;> simp

/-- Operations on the memory side are beside the processor. -/
theorem Quiet.aside {s t : State} (h : Quiet s t) : Aside s t where
  cfg := h.cfg
  regs := h.regs
  pc := h.pc
  status := h.status
  estatus := h.estatus
  bstatus := h.bstatus
  ienable := h.ienable
  mem := h.mem
  icache := by rw [h.icache]; exact id
  dcache := h.dcache
  stale := h.stale

/-- The custom logic moved on (R320). -/
theorem custom_aside (s : State) (x : CustomState) : Aside s { s with custom := x } := by
  constructor <;> simp [staleLegal]

theorem invalidateILine_aside (s : State) (a : Word) : Aside s (invalidateILine s a) := by
  unfold invalidateILine
  split
  · next hc =>
    constructor <;> simp [staleLegal, hc]
    exact fun h => keysRising_keyErase h _
  · exact .refl s

theorem discardPrefetched_aside (s : State) : Aside s (discardPrefetched s) := by
  constructor <;> simp [discardPrefetched, staleLegal]
  rintro (h | h)
  · exact .inl h
  · exact .inr (by simp [h])

/-- What an instruction that answers a next state can have done. -/
inductive Effect (s : State) : State → Prop
  /-- Writes a general register and goes on. -/
  | writes {u : State} (h : Aside s u) (r : Reg) (v : Word) : Effect s (writeResult u r v)
  /-- Writes no register and goes on. -/
  | advances {u : State} (h : Aside s u) : Effect s u.advance
  /-- Goes to a legal target. -/
  | jumps {a : Word} (ha : aligned .word a = true) : Effect s (s.setPc a)
  /-- Links a register and goes to a legal target. -/
  | calls {a : Word} (ha : aligned .word a = true) (r : Reg) (v : Word) : Effect s ((s.setReg r v).setPc a)
  /-- Enters the exception handler. -/
  | entersException : Effect s (exceptionEntry s (s.pc + 4))
  /-- Enters the break handler. -/
  | entersBreak : Effect s (breakEntry s (s.pc + 4))
  /-- In supervisor mode: returns with a saved status to a legal target. -/
  | returns (hu : userMode s = false) (st : Status) {a : Word} (ha : aligned .word a = true) :
      Effect s ({ s with status := restoredStatus s.cfg st }.setPc a)
  /-- In supervisor mode: writes a control register and goes on. -/
  | setsControl (hu : userMode s = false) {u : State} {n : Reg} {v : Word} (h : writeControl s n v = .ok u) :
      Effect s u.advance

/-! ## The shared shapes of instructions -/

theorem jumpTo_effect {s t : State} {a : Word} (h : jumpTo s a = .ok t) : Effect s t := by
  obtain ⟨ha, rfl⟩ := jumpTo_ok.mp h
  exact .jumps ha

theorem callTo_effect {s t : State} {a : Word} (h : callTo s a = .ok t) : Effect s t := by
  obtain ⟨ha, rfl⟩ := jumpTo_ok.mp h
  exact .calls ha _ _

theorem branch_effect {s t : State} {r : Rel} {a b : Reg} {imm : BitVec 16} (h : branch s r a b imm = .ok t) :
    Effect s t := by
  unfold branch at h
  split at h
  · exact jumpTo_effect h
  · cases h; exact .advances (.refl s)

theorem load_effect {s t : State} {a b : Reg} {imm : BitVec 16} {w : Width} {signed io : Bool}
    (h : load s a b imm w signed io = .ok t) : Effect s t := by
  obtain ⟨u, v, hu, rfl⟩ := load_ok h
  exact .writes hu.aside b v

theorem store_effect {s t : State} {a b : Reg} {imm : BitVec 16} {w : Width} {io : Bool}
    (h : store s a b imm w io = .ok t) : Effect s t := by
  obtain ⟨u, hu, rfl⟩ := store_ok h
  exact .advances hu.aside

/-- An instruction of the multiply and divide group does what it does, or enters the exception handler (R342). -/
theorem ifImplemented_effect {s t : State} (b : Bool) (h : Effect s t) : Effect s (ifImplemented b s t) := by
  cases b
  · exact .entersException
  · exact h

/-- A restricted instruction enters the exception handler, or does what it does in supervisor mode (R340). -/
theorem restricted_effect {s t : State} {r : Except Stop State} (h : restricted s r = .ok t)
    (hr : userMode s = false → r = .ok t → Effect s t) : Effect s t := by
  unfold restricted at h
  split at h
  · cases h; exact .entersException
  · next hu => exact hr (by simpa using hu) h

theorem readControlInto_effect (s : State) (c n : Reg) : Effect s (readControlInto s c n) := by
  unfold readControlInto
  split
  · exact .writes (.refl s) c _
  · exact .writes (drawn_quiet s 1).aside c _

theorem execCustom_effect {s t : State} {a b c : Reg} {ra rb wc : Bool} {n : BitVec 8}
    (h : execCustom a b c ra rb wc n s = .next t) : Effect s t := by
  unfold execCustom at h
  split at h
  · cases h
    cases wc
    · exact .advances (custom_aside s _)
    · exact .writes (custom_aside s _) c _
  · cases h

/-! ## Every instruction -/

/-- What any instruction can do, by the shape of its meaning. -/
theorem exec_effect {i : Instr} {s t : State} (h : exec i s = .next t) : Effect s t := by
  cases i with
  | addi | andi | andhi | ori | orhi | xori | xorhi | cmpeqi | cmpnei | cmpgei | cmplti | cmpgeui | cmpltui | add | sub | and
  | or | xor | nor | cmpeq | cmpne | cmpge | cmplt | cmpgeu | cmpltu | sll | slli | srl | srli | sra | srai | rol | roli | ror
  | nextpc => cases h; exact .writes (.refl s) _ _
  | mul | muli | mulxss | mulxsu | mulxuu => cases h; exact ifImplemented_effect _ (.writes (.refl s) _ _)
  | div | divu => cases h; exact ifImplemented_effect _ (.writes (drawn_quiet s 1).aside _ _)
  | ldb | ldbu | ldh | ldhu | ldw | ldbio | ldbuio | ldhio | ldhuio | ldwio => exact load_effect (finish_next.mp h)
  | stb | sth | stw | stbio | sthio | stwio => exact store_effect (finish_next.mp h)
  | beq | bne | bge | blt | bgeu | bltu => exact branch_effect (finish_next.mp h)
  | br | ret => exact jumpTo_effect (finish_next.mp h)
  | call | callr => exact callTo_effect (finish_next.mp h)
  | jmp a =>
    have h := finish_next.mp h
    split at h
    · cases h
    · exact jumpTo_effect h
  | trap => cases h; exact .entersException
  | breakpoint => cases h; exact .entersBreak
  | eret | bret =>
    refine restricted_effect (finish_next.mp h) fun hu h => ?_
    obtain ⟨ha, rfl⟩ := jumpTo_ok.mp h
    exact .returns hu _ ha
  | rdctl c n =>
    refine restricted_effect (finish_next.mp h) fun _ h => ?_
    cases h
    exact readControlInto_effect s c n
  | wrctl a n =>
    refine restricted_effect (finish_next.mp h) fun hu h => ?_
    obtain ⟨u, hw, rfl⟩ := map_ok.mp h
    exact .setsControl hu hw
  | flushd a imm =>
    obtain ⟨u, hf, rfl⟩ := map_ok.mp (finish_next.mp h)
    exact .advances (flushDLine_quiet hf).aside
  | initd a imm =>
    refine restricted_effect (finish_next.mp h) fun _ h => ?_
    cases h
    exact .advances (dropDLine_quiet s _).aside
  | flushi a => cases h; exact .advances (invalidateILine_aside s _)
  | initi a =>
    refine restricted_effect (finish_next.mp h) fun _ h => ?_
    cases h
    exact .advances (invalidateILine_aside s _)
  | flushp => cases h; exact .advances (discardPrefetched_aside s)
  | sync => cases h; exact .advances (.refl s)
  | custom => exact execCustom_effect h

end Sys2Proof.Machine

namespace Sys2Proof.Settled

open Sys2Proof.Machine

/-- Settles O31: of what an instruction can do, returns and writes of control registers need supervisor mode. -/
theorem userModeConfined : Obligations.UserModeConfined := by
  intro i s t hu hm h
  have user : userMode s = true := by simp [userMode, hu, hm]
  cases exec_effect h with
  | writes ha | advances ha => simp [ha.cfg, ha.ienable, ha.status, ha.estatus, ha.bstatus]
  | jumps | calls | entersException | entersBreak => simp
  | returns hs | setsControl hs => simp [user] at hs

end Sys2Proof.Settled
end

section
/-! SUPPORT. The invariant of Safety.lean: what keeps it, operation by operation, up to one step (R21, R27, R30, R86, R89,
R363). -/

namespace Sys2Proof.Machine

/-- The configuration of `s` stands in `t`, and so does the invariant if it holds in `s`. -/
def Keeps (s t : State) : Prop := t.cfg = s.cfg ∧ (Inv s → Inv t)

theorem Keeps.refl (s : State) : Keeps s s := ⟨rfl, id⟩

theorem Keeps.trans {s t u : State} (h : Keeps s t) (g : Keeps t u) : Keeps s u := ⟨g.1.trans h.1, g.2 ∘ h.2⟩

/-- The entry addresses of a sound state are multiples of 4 (D1). -/
theorem Inv.entries_aligned {s : State} (h : Inv s) : aligned .word s.cfg.resetAddr = true ∧
    aligned .word s.cfg.exceptionAddr = true ∧ aligned .word s.cfg.breakAddr = true := by
  obtain ⟨hcfg, -⟩ := h
  simp only [configLegal, entriesLegal, entryLegal, Bool.and_eq_true] at hcfg
  tauto

theorem Inv.pc_aligned {s : State} (h : Inv s) : aligned .word s.pc = true := by
  obtain ⟨-, -, -, -, -, hpc, -⟩ := h
  exact hpc

/-- The address of the following instruction is a multiple of 4 where `pc` is (R27). -/
theorem aligned_add_four {a : Word} (h : aligned .word a = true) : aligned .word (a + 4) = true := by
  simp only [aligned, Width.bytes, beq_iff_eq] at h ⊢
  bv_omega

/-! ## The processor's own updates -/

theorem setPc_keeps {s : State} {a : Word} (ha : Inv s → aligned .word a = true) : Keeps s (s.setPc a) := by
  refine ⟨rfl, fun hs => ?_⟩
  have ha := ha hs
  obtain ⟨hcfg, hmem, hic, hdc, hr0, -, huser, hstale⟩ := hs
  exact ⟨hcfg, hmem, hic, hdc, hr0, ha, huser, hstale⟩

theorem advance_keeps (s : State) : Keeps s s.advance := setPc_keeps fun hs => aligned_add_four hs.pc_aligned

theorem setReg_keeps (s : State) (r : Reg) (v : Word) : Keeps s (s.setReg r v) := by
  simp [Keeps, Inv, userBitsLegal, staleLegal]

theorem writeResult_keeps (s : State) (r : Reg) (v : Word) : Keeps s (writeResult s r v) :=
  (setReg_keeps s r v).trans (advance_keeps _)

/-- New status registers, with no user-mode bit set where there is no user mode. -/
theorem withStatus_keeps (s : State) {st es bs : Status}
    (h : userBitsLegal s = true → userBitsLegal { s with status := st, estatus := es, bstatus := bs } = true) :
    Keeps s { s with status := st, estatus := es, bstatus := bs } := by
  refine ⟨rfl, fun hs => ?_⟩
  obtain ⟨hcfg, hmem, hic, hdc, hr0, hpc, huser, hstale⟩ := hs
  exact ⟨hcfg, hmem, hic, hdc, hr0, hpc, h huser, hstale⟩

theorem exceptionEntry_keeps (s : State) (ret : Word) : Keeps s (exceptionEntry s ret) := by
  have hstatus : Keeps s { s with estatus := s.status, status := ⟨false, false⟩ } :=
    withStatus_keeps s (by simp only [userBitsLegal]; cases s.cfg.hasUserMode <;> simp_all)
  refine (hstatus.trans (setReg_keeps _ 29#5 ret)).trans (setPc_keeps fun hs => ?_)
  simpa using hs.entries_aligned.2.1

theorem breakEntry_keeps (s : State) (ret : Word) : Keeps s (breakEntry s ret) := by
  have hstatus : Keeps s { s with bstatus := s.status, status := ⟨false, false⟩ } :=
    withStatus_keeps s (by simp only [userBitsLegal]; cases s.cfg.hasUserMode <;> simp_all)
  refine (hstatus.trans (setReg_keeps _ 30#5 ret)).trans (setPc_keeps fun hs => ?_)
  simpa using hs.entries_aligned.2.2

/-- The status a return restores holds no user-mode bit without user mode (R30). -/
theorem restoredStatus_keeps (s : State) (st : Status) : Keeps s { s with status := restoredStatus s.cfg st } :=
  withStatus_keeps s (by simp only [userBitsLegal, restoredStatus]; cases s.cfg.hasUserMode <;> simp_all)

/-! ## Operations beside the processor, and the debugger's -/

theorem Aside.keeps {s t : State} (h : Aside s t) : Keeps s t := by
  refine ⟨h.cfg, fun hs => ?_⟩
  obtain ⟨hcfg, hmem, hic, hdc, hr0, hpc, huser, hstale⟩ := hs
  refine ⟨by rwa [h.cfg], h.mem hmem, h.icache hic, h.dcache hdc, by rwa [h.regs], by rwa [h.pc], ?_, h.stale hstale⟩
  rwa [userBitsLegal, h.cfg, h.status, h.estatus, h.bstatus]

theorem Quiet.keeps {s t : State} (h : Quiet s t) : Keeps s t := h.aside.keeps

theorem Edited.keeps {s t : State} (h : Edited s t) : Keeps s t := by
  refine ⟨h.cfg, fun hs => ?_⟩
  obtain ⟨hcfg, hmem, hic, hdc, hr0, hpc, huser, hstale⟩ := hs
  exact ⟨by rwa [h.cfg], h.mem hmem, h.icache hic, h.dcache hdc, by rwa [h.regs], by rwa [h.pc], h.user huser,
    h.stale hstale⟩

/-! ## One instruction -/

theorem Effect.keeps {s t : State} (h : Effect s t) : Keeps s t := by
  cases h with
  | writes ha => exact ha.keeps.trans (writeResult_keeps _ _ _)
  | advances ha => exact ha.keeps.trans (advance_keeps _)
  | jumps ha => exact setPc_keeps fun _ => ha
  | calls ha r v => exact (setReg_keeps s r v).trans (setPc_keeps fun _ => ha)
  | entersException => exact exceptionEntry_keeps s _
  | entersBreak => exact breakEntry_keeps s _
  | returns _ st ha => exact (restoredStatus_keeps s st).trans (setPc_keeps fun _ => ha)
  | setsControl _ hw => exact (writeControl_edited hw).keeps.trans (advance_keeps _)

theorem fetch_keeps {s t : State} {w : Word} (h : fetch s = .ok (w, t)) : Keeps s t := by
  obtain ⟨ht, hic, -⟩ := fetch_eq h
  exact Aside.keeps (by rw [ht]; constructor <;> simp [staleLegal]; exact hic)

/-- The debug module changes nothing the invariant speaks of. -/
theorem fireTriggers_keeps (s : State) (i : Instr) (t : State) : Keeps t (fireTriggers s i t) := ⟨rfl, id⟩

theorem runInstruction_keeps {s t : State} (h : runInstruction s = .next t) : Keeps s t := by
  unfold runInstruction at h
  split at h
  · simp [finish_next] at h
  · next r hf =>
    split at h
    · cases h
    · next i _ =>
      obtain ⟨x, hx, rfl⟩ := observed_next.mp h
      exact ((fetch_keeps hf).trans (exec_effect hx).keeps).trans (fireTriggers_keeps r.2 i x)

/-! ## The boundary -/

theorem debugSession_keeps {s t : State} {acts : List DebugAction} {pc : Option Word}
    (h : debugSession s acts pc = .ok t) : Keeps s t := by
  obtain ⟨u, a, hu, rfl, ha⟩ := debugSession_ok h
  exact hu.keeps.trans (setPc_keeps fun hs => ha hs.pc_aligned)

/-- An aligned write of another master is a store on the bus, a misaligned one is not made (log 24). -/
theorem applyEvent_otherWrite (s : State) (a : Word) (w : Width) (v : Word) :
    applyEvent s (.otherWrite a w v) = if aligned w a then busStore s Region.other a w v else .ok s := rfl

/-- An aligned read of another master keeps its side effects alone (log 24). -/
theorem applyEvent_otherRead (s : State) (a : Word) (w : Width) :
    applyEvent s (.otherRead a w) = if aligned w a then (busRead s Region.other a w).map Prod.snd else .ok s := rfl

/-- What the outside world does between two instructions keeps the invariant. -/
theorem applyEvent_keeps {s t : State} {e : EnvEvent} (h : applyEvent s e = .ok t) : Keeps s t := by
  cases e with
  | clock n => exact (clockCycles_quiet h).keeps
  | irqLines | hwBreak | triggers | traceSetup | traceRun | systemReset => cases h; exact ⟨rfl, id⟩
  | otherWrite a w v =>
    rw [applyEvent_otherWrite] at h
    split at h
    · exact (busStore_quiet h).keeps
    · cases h; exact .refl s
  | otherRead a w =>
    rw [applyEvent_otherRead] at h
    split at h
    · obtain ⟨⟨x, u⟩, hu, rfl⟩ := map_ok.mp h
      exact (busRead_quiet hu).keeps
    · cases h; exact .refl s
  | debugSession acts pc => exact debugSession_keeps h
  | pioInput | uartReceive | uartBreak | uartCts | jtagSend | jtagTake | jtagIdle | jtagPoll | spiMiso | spiSelect
  | spiTransfer => cases h; exact (deviceEvent_quiet s _).keeps

theorem applyEvents_keeps {l : List EnvEvent} {s t : State} (h : applyEvents s l = .ok t) : Keeps s t := by
  induction l generalizing s with
  | nil => cases h; exact .refl _
  | cons e l ih =>
    unfold applyEvents at h
    obtain ⟨u, hu, h⟩ := bind_ok.mp h
    exact (applyEvent_keeps hu).trans (ih h)

theorem takeEvents_keeps {s t : State} (h : takeEvents s = .ok t) : Keeps s t :=
  have henv : Keeps s { s with env := s.env.tail } := ⟨rfl, id⟩
  henv.trans (applyEvents_keeps (takeEvents_ok h).2)

/-- A system reset leaves a sound state of the same configuration. -/
theorem systemReset_keeps (s : State) : Keeps s (systemReset s) := by
  refine ⟨systemReset_cfg s, fun hs => ?_⟩
  have hpc := hs.entries_aligned.1
  obtain ⟨hcfg, hmem, -⟩ := hs
  refine ⟨by simpa, by simpa, ?_, ?_, by simp [resetRegs], by simpa, ?_, by simp [staleLegal]⟩
  · rw [systemReset_icache]
    split
    · exact keysRising_keyErase (keysRising_normalLines _ _) _
    · rfl
  · rw [systemReset_dcache]
    split
    · exact keysRising_normalLines _ _
    · rfl
  · cases hu : s.cfg.hasUserMode <;> simp [userBitsLegal, statusOf, hu]

/-! ## One step -/

theorem step_keeps {s t : State} (h : step s = .next t) : Keeps s t := by
  unfold step at h
  split at h
  · simp [finish_next] at h
  · next u hu =>
    refine (takeEvents_keeps hu).trans ?_
    split at h
    · cases h; exact systemReset_keeps u
    · cases h
      have hreq : Keeps u { u with hwBreak := false } := ⟨rfl, id⟩
      exact hreq.trans (breakEntry_keeps _ _)
    · cases h; exact exceptionEntry_keeps u _
    · exact runInstruction_keeps h

end Sys2Proof.Machine

namespace Sys2Proof.Settled

open Sys2Proof.Machine

/-- Settles O50: the events of the boundary, the entries, the reset and every instruction keep the invariant. -/
theorem invKept : Obligations.InvKept := by
  intro s t hs h
  obtain ⟨hcfg, hinv⟩ := step_keeps h
  exact ⟨hinv hs, hcfg⟩

/-- Settles O49: each clause is evaluated at the reset state. -/
theorem invAtReset : Obligations.InvAtReset :=
  ⟨by decide, Memory.wf_nil, rfl, rfl, rfl, rfl, rfl, rfl⟩

end Sys2Proof.Settled
end

section
/-! SUPPORT. The general registers, the custom instructions, the control registers and the transfers that stop (R20, R21, R27,
R29 to R37, R263, R296, R297, R320). -/

namespace Sys2Proof.Machine

/-- An instruction that writes one register meets the frame of `Writes`. -/
theorem writeResult_writes (s : State) (r : Reg) (v : Word) : Writes (.next (writeResult s r v)) s r v := by
  refine ⟨_, rfl, by simp [writeResult_reg], by simp, fun q hq => by simp [writeResult_reg, hq], fun a => by simp, ?_⟩
  rw [OnlyRegs, writeResult_pc]
  exact writeResult_eq s r v

/-! ## Custom instructions -/

/-- A `custom` number with logic: the logic moves on, its result goes to `x[C]` where `writerc` is set (R320). -/
theorem exec_custom_present {s : State} {n : BitVec 8} (h : n.toNat ∈ s.cfg.customPresent) (a b c : Reg)
    (ra rb wc : Bool) {r : Word × CustomState} (hr : r = Config.customFn (customCall s a b c ra rb wc n) s.custom) :
    exec (.custom a b c ra rb wc n) s =
      .next (if wc then writeResult { s with custom := r.2 } c r.1 else { s with custom := r.2 }.advance) := by
  subst hr
  exact if_pos (by simpa using h)

/-- A `custom` number without logic is refused (U8, D19). -/
theorem exec_custom_absent {s : State} {n : BitVec 8} (h : n.toNat ∉ s.cfg.customPresent) (a b c : Reg)
    (ra rb wc : Bool) : exec (.custom a b c ra rb wc n) s = .refused (.noSuchCustom n) :=
  if_neg (by simpa using h)

/-! ## Restricted instructions in supervisor mode -/

/-- In supervisor mode a restricted instruction does what it does (R340). -/
theorem restricted_supervisor {s : State} (h : s.status.u = false) (r : Except Stop State) : restricted s r = r := by
  simp [restricted, userMode, h]

theorem exec_rdctl_supervisor {s : State} (h : s.status.u = false) (c n : Reg) :
    exec (.rdctl c n) s = .next (readControlInto s c n) :=
  congrArg finish (restricted_supervisor h _)

theorem exec_wrctl_supervisor {s : State} (h : s.status.u = false) (a n : Reg) :
    exec (.wrctl a n) s = finish ((writeControl s n (s.reg a)).map State.advance) :=
  congrArg finish (restricted_supervisor h _)

/-- `rdctl` of a register that exists writes its value and nothing else (R296). -/
theorem exec_rdctl_writes {s : State} {n : Reg} {v : Word} (h : s.status.u = false) (hv : readControl s n = some v)
    (c : Reg) : Writes (exec (.rdctl c n) s) s c v := by
  rw [exec_rdctl_supervisor h, readControlInto, hv]
  exact writeResult_writes s c v

/-! ## Bits of the control registers -/

theorem bitAt_getLsbD (n i : Nat) (b : Bool) : (bitAt n b).getLsbD i = (decide (i = n) && decide (i < 32) && b) := by
  unfold bitAt
  by_cases hi : i = n
  · subst hi; cases b <;> simp
  · have hs : i < 32 → n ≤ i → i - n ≠ 0 := by omega
    cases b <;> simp [hi]
    exact hs

/-- Bits 0 and 1 of a status register hold its two fields, the others read 0 (R30, R36; D8). -/
theorem statusWord_getLsbD (c : Config) (st : Status) (i : Nat) : (statusWord c st).getLsbD i =
    (decide (i = 0) && st.pie || decide (i = 1) && (st.u && c.hasUserMode)) := by
  simp only [statusWord, BitVec.getLsbD_or, bitAt_getLsbD]
  rcases i with _ | _ | i <;> simp

/-- Control registers 6 to 31 read as no value (U4, log 42). -/
theorem readControl_absent {n : Reg} (h : 6 ≤ n.toNat) (s : State) : readControl s n = none := by
  unfold readControl
  split
  case h_7 => rfl
  all_goals omega

/-- Control registers 6 to 31 refuse writes (U4, log 42). -/
theorem writeControl_absent {n : Reg} (h : 6 ≤ n.toNat) (s : State) (v : Word) :
    writeControl s n v = .error (.refusal (.noSuchControlRegister n)) := by
  unfold writeControl
  split
  case h_7 => rfl
  all_goals omega

/-! ## Transfers that stop -/

/-! Each relation as equality or order of the two's-complement or unsigned values (R28, R210). -/

theorem Rel.holds_eq {a b : Word} : Rel.eq.holds a b = true ↔ a = b := by simp [Rel.holds]
theorem Rel.holds_ne {a b : Word} : Rel.ne.holds a b = true ↔ a ≠ b := by simp [Rel.holds]
theorem Rel.holds_ge {a b : Word} : Rel.ge.holds a b = true ↔ b.toInt ≤ a.toInt := by simp [Rel.holds, BitVec.sle]
theorem Rel.holds_lt {a b : Word} : Rel.lt.holds a b = true ↔ a.toInt < b.toInt := by simp [Rel.holds, BitVec.slt]
theorem Rel.holds_geu {a b : Word} : Rel.geu.holds a b = true ↔ b.toNat ≤ a.toNat := by simp [Rel.holds, BitVec.ule]
theorem Rel.holds_ltu {a b : Word} : Rel.ltu.holds a b = true ↔ a.toNat < b.toNat := by simp [Rel.holds, BitVec.ult]

/-- The outcome of a transfer to a misaligned target (R27, U9). -/
theorem finish_jumpTo_misaligned {s : State} {a : Word} (h : aligned .word a = false) :
    finish (jumpTo s a) = .refused (.misalignedTarget a) :=
  congrArg finish (jumpTo_misaligned h)

/-- A restricted transfer to a misaligned target, in supervisor mode (R291, R293). -/
theorem finish_restricted_misaligned {s t : State} {a : Word} (hu : s.status.u = false) (h : aligned .word a = false) :
    finish (restricted s (jumpTo t a)) = .refused (.misalignedTarget a) := by
  rw [restricted_supervisor hu, finish_jumpTo_misaligned h]

/-- A jump through a register other than r31 is a plain transfer (R263). -/
theorem exec_jmp {a : Reg} (h : a ≠ 31#5) (s : State) : exec (.jmp a) s = finish (jumpTo s (s.reg a)) :=
  congrArg finish (if_neg h)

/-- A conditional branch whose relation is `cond` stops where `cond` holds and the target is misaligned. -/
theorem branch_stops {r : Rel} {cond : Word → Word → Prop} {mk : Reg → Reg → BitVec 16 → Instr}
    (hmk : ∀ a b imm s, exec (mk a b imm) s = finish (branch s r a b imm))
    (hr : ∀ {x y : Word}, r.holds x y = true ↔ cond x y) : BranchStops mk cond := by
  intro s a b imm hc ht
  rw [hmk, branch, if_pos (hr.mpr hc), finish_jumpTo_misaligned ht]

end Sys2Proof.Machine

namespace Sys2Proof.Settled

open Sys2Proof.Machine

/-- Settles O41: the register laws of Laws/State.lean. -/
theorem zeroRegister : Obligations.ZeroRegister := fun s r q v =>
  ⟨reg_zero s, setReg_zero s v, setReg_reg_same s r v, setReg_reg_other s r q v⟩

/-- Settles O40: with logic, by the value of `writerc`; without, by refusal. -/
theorem customInstruction : Obligations.CustomInstruction := by
  intro s a b c ra rb wc n
  refine ⟨fun hn => ⟨_, _, _, rfl, rfl, rfl, fun hw => ?_, fun hw => ?_⟩, fun hn => exec_custom_absent hn a b c ra rb wc⟩
  · subst hw
    rw [exec_custom_present hn a b c ra rb true rfl]
    exact writeResult_writes _ c _
  · subst hw
    exact exec_custom_present hn a b c ra rb false rfl

/-- Settles O32: each register's value, then the bits of the four that have fields. -/
theorem readControl : Obligations.ReadControl := by
  intro s c h
  refine ⟨⟨_, exec_rdctl_writes h rfl c, fun i => ?_⟩, ⟨_, exec_rdctl_writes h rfl c, statusWord_getLsbD _ _⟩,
    ⟨_, exec_rdctl_writes h rfl c, statusWord_getLsbD _ _⟩, exec_rdctl_writes h rfl c,
    ⟨_, exec_rdctl_writes h rfl c, fun i => ?_⟩, exec_rdctl_writes h rfl c⟩
  · simp [statusWord_getLsbD, h]
  · simp [ipending]

/-- Settles O33: in supervisor mode `wrctl` is the register's own write. -/
theorem writeControl : Obligations.WriteControl := by
  intro s a h
  have write := exec_wrctl_supervisor h a
  exact ⟨⟨statusOf s.cfg (s.reg a), rfl, rfl, write 0, write 1, write 2⟩, write 3, write 5⟩

/-- Settles O34: the value that `rdctl` writes is the next free one. -/
theorem absentControlRegisters : Obligations.AbsentControlRegisters := by
  intro s a c n h
  refine ⟨exec_wrctl_supervisor h a 4, fun hn => ⟨?_, s.drawn 1, s.freeNow, _, rfl, ?_⟩⟩
  · rw [exec_wrctl_supervisor h, writeControl_absent hn]
    rfl
  · rw [exec_rdctl_supervisor h, readControlInto, readControl_absent hn]
    exact writeResult_writes _ c _

/-- Settles O26: every transfer of the list ends in one `jumpTo`. -/
theorem transferStops : Obligations.TransferStops := by
  intro s a imm
  exact ⟨rfl,
    fun ha => ⟨finish_jumpTo_misaligned ha, fun hne => (exec_jmp hne s).trans (finish_jumpTo_misaligned ha)⟩,
    finish_jumpTo_misaligned, finish_jumpTo_misaligned,
    branch_stops (fun _ _ _ _ => rfl) Rel.holds_eq, branch_stops (fun _ _ _ _ => rfl) Rel.holds_ne,
    branch_stops (fun _ _ _ _ => rfl) Rel.holds_ge, branch_stops (fun _ _ _ _ => rfl) Rel.holds_geu,
    branch_stops (fun _ _ _ _ => rfl) Rel.holds_lt, branch_stops (fun _ _ _ _ => rfl) Rel.holds_ltu,
    fun hu => ⟨finish_restricted_misaligned hu, finish_restricted_misaligned hu⟩⟩

end Sys2Proof.Settled
end

section
/-! SUPPORT. The interrupt inputs (R39, R338, R400), and the reset of the machine and of its peripherals (R45, R409, R426, R446,
R497, R517, R560). -/

namespace Sys2Proof.Machine

/-! ## Interrupt inputs -/

/-- A device drives the one input it is wired to, by its interrupt output. -/
theorem irqWord_getLsbD (d : Device) {n : Nat} (hn : n < 32) :
    d.irqWord.getLsbD n = true ↔ d.irqN = some n ∧ d.core.irq = true := by
  unfold Device.irqWord
  split
  · next h => simp [h]
  · next k h =>
    rw [h, bitAt_getLsbD]
    simp [hn, eq_comm (a := n)]

/-- Input `n` is asserted by the peripherals exactly where one of them drives it. -/
theorem deviceIrqs_getLsbD (l : List Device) {n : Nat} (hn : n < 32) :
    (deviceIrqs l).getLsbD n = true ↔ ∃ d ∈ l, d.irqN = some n ∧ d.core.irq = true := by
  induction l with
  | nil => simp [deviceIrqs]
  | cons d l ih =>
    have hcons : deviceIrqs (d :: l) = d.irqWord ||| deviceIrqs l := rfl
    rw [hcons, BitVec.getLsbD_or, Bool.or_eq_true, irqWord_getLsbD d hn, ih, List.exists_mem_cons_iff]

/-! ## Reset -/

/-- The reset values that R409, R426, R446, R496, R497 and R517 state of a core. -/
def Core.HasResetValues : Core → Prop
  | .timer d => d.period = d.opts.fixedPeriod ∧ (d.opts.watchdog = true → d.running = false) ∧
      (d.opts.watchdog = false → d.opts.startStop = false → d.running = true)
  | .pio d => d.direction = 0 ∧ d.interruptmask = 0
  | .mutex d => mutexOwner d.mutex = d.initialOwner ∧ mutexValue d.mutex = d.initialValue ∧ d.reset = true
  | .uart d => d.control &&& 0x15ff = 0 ∧ d.endofpacket = 0 ∧ d.divisor = d.opts.defaultDivisor
  | .spi d => d.control = 0 ∧ d.slaveselect = 1
  | .sysId _ | .dma _ | .jtagUart _ => True

/-- The two halves of a mutex word. -/
theorem mutex_halves (o v : BitVec 16) : mutexOwner (o.setWidth 32 <<< 16 ||| v.setWidth 32) = o ∧
    mutexValue (o.setWidth 32 <<< 16 ||| v.setWidth 32) = v := by
  constructor <;> ext i hi
  all_goals
    have hw : i < 32 ∧ 16 + i < 32 := by omega
    simp [mutexOwner, mutexValue, hi, hw]

theorem Uart.reset_control (d : Uart) (n : Nat) : (d.reset n).control &&& 0x15ff = 0 := by
  calc (d.reset n).control &&& 0x15ff
      = (Config.freeWord n).setWidth 16 &&& d.controlMask &&& (0x0a00 &&& 0x15ff) := by
        simp only [Uart.reset]; ac_rfl
    _ = 0 := by simp

theorem Core.reset_hasResetValues (c : Core) (n : Nat) : (c.reset n).HasResetValues := by
  cases c with
  | timer d =>
    exact ⟨rfl, fun hw => if_pos hw, fun (hw : d.opts.watchdog = false) (hs : d.opts.startStop = false) => by
      simp [Timer.reset, hw, hs]⟩
  | pio d => exact ⟨rfl, rfl⟩
  | mutex d =>
    obtain ⟨howner, hvalue⟩ := mutex_halves d.initialOwner d.initialValue
    exact ⟨howner, hvalue, rfl⟩
  | uart d => exact ⟨d.reset_control n, rfl, rfl⟩
  | spi d => exact ⟨rfl, rfl⟩
  | sysId | dma | jtagUart => trivial

/-- After the reset of the cores each of them is a core after its reset. -/
theorem deviceAt_resetCores {l : List Device} {n i : Nat} {c : Core} (h : deviceAt (resetCores l n) i = some c) :
    ∃ b k, deviceAt l i = some b ∧ c = b.reset k := by
  induction l generalizing n i with
  | nil => simp [deviceAt, resetCores] at h
  | cons d l ih =>
    cases i with
    | zero =>
      cases h
      exact ⟨d.core, n, rfl, rfl⟩
    | succ i => exact ih h

theorem systemReset_hasResetValues {s : State} {i : Nat} {c : Core}
    (h : deviceAt (systemReset s).devices i = some c) : c.HasResetValues := by
  rw [systemReset_devices] at h
  obtain ⟨b, k, -, rfl⟩ := deviceAt_resetCores h
  exact b.reset_hasResetValues k

/-- Register 0 is 0 after a reset (R45). -/
theorem systemReset_reg_zero (s : State) : (systemReset s).reg 0 = 0 := reg_zero _

/-- The instruction-cache line of the reset address is invalid after a reset (R560). -/
theorem systemReset_resetLine (s : State) :
    keyGet (systemReset s).icache (iIndex s.cfg (phys s.cfg.resetAddr)) = none := by
  rw [systemReset_icache]
  split
  · simp [keyGet_keyErase]
  · rfl

end Sys2Proof.Machine

namespace Sys2Proof.Settled

open Sys2Proof.Machine

/-- Settles O45: bit by bit, the lines from outside and the peripherals. -/
theorem interruptInputs : Obligations.InterruptInputs := by
  intro s n hn
  simp only [irq, BitVec.getLsbD_or, BitVec.getLsbD_and, Bool.or_eq_true, Bool.and_eq_true, deviceIrqs_getLsbD _ hn]

/-- Settles O48: the fields of the processor, then the reset values of each kind of core. -/
theorem systemReset : Obligations.SystemReset := by
  rintro s _ rfl
  have cores {i c} (h : deviceAt (Machine.systemReset s).devices i = some c) := systemReset_hasResetValues h
  exact ⟨systemReset_status s, systemReset_pc s, systemReset_reg_zero s, systemReset_cfg s, systemReset_stale s,
    systemReset_resetLine s, systemReset_mem s, fun _ _ => cores, fun _ _ => cores, fun _ _ => cores, fun _ _ => cores,
    fun _ _ => cores⟩

/-- Settles O47: the fields of the reset state. -/
theorem resetState : Obligations.ResetState := ⟨rfl, rfl, reg_zero _, rfl, rfl⟩

end Sys2Proof.Settled
end

section
/-! SUPPORT. Effective addresses, the values of accesses, and byte lanes (R60 to R62, R69, R70, R141 to R150). -/

namespace Sys2Proof.Machine

/-! ## Addresses -/

/-- The effective address as a sum of signed integers modulo 2^32 (R69). -/
theorem effAddr_eq_ofInt (s : State) (a : Reg) (imm : BitVec 16) :
    effAddr s a imm = BitVec.ofInt 32 ((s.reg a).toInt + imm.toInt) := by
  rw [BitVec.ofInt_add, BitVec.ofInt_toInt]
  rfl

theorem aligned_iff {w : Width} {a : Word} : aligned w a = true ↔ a.toNat % w.bytes = 0 := by simp [aligned]

theorem aligned_eq_false_iff {w : Width} {a : Word} : aligned w a = false ↔ a.toNat % w.bytes ≠ 0 := by
  rw [Bool.eq_false_iff, ne_eq, aligned_iff]

/-- Clearing the `k` low bits of an address rounds it down to a multiple of `2 ^ k`. -/
theorem toNat_shiftRight_shiftLeft (a : Word) (k : Nat) : (a >>> k <<< k).toNat = a.toNat / 2 ^ k * 2 ^ k := by
  rw [BitVec.toNat_shiftLeft, BitVec.toNat_ushiftRight, Nat.shiftRight_eq_div_pow, Nat.shiftLeft_eq,
    Nat.mod_eq_of_lt (lt_of_le_of_lt (Nat.div_mul_le_self _ _) a.isLt)]

theorem wordAddr_toNat (a : Word) : (wordAddr a).toNat = a.toNat / 4 * 4 := by
  have h : wordAddr a = a >>> 2 <<< 2 := by
    ext i hi
    interval_cases i <;> simp [wordAddr]
  rw [h, toNat_shiftRight_shiftLeft]
  rfl

theorem wordAddr_of_aligned {a : Word} (h : a.toNat % 4 = 0) : wordAddr a = a := by
  apply BitVec.eq_of_toNat_eq
  rw [wordAddr_toNat]
  omega

/-! ## Values of bytes -/

/-- A word as the sum of its bytes. -/
theorem toNat_eq_sum_bytes (v : Word) : v.toNat = (v.extractLsb' 0 8).toNat +
    256 * ((v.extractLsb' 8 8).toNat + 256 * ((v.extractLsb' 16 8).toNat + 256 * (v.extractLsb' 24 8).toNat)) := by
  simp only [BitVec.extractLsb'_toNat, Nat.shiftRight_eq_div_pow]
  omega

theorem wordOfBytes_toNat (b0 b1 b2 b3 : Byte) : (wordOfBytes b0 b1 b2 b3).toNat =
    b0.toNat + 256 * (b1.toNat + 256 * (b2.toNat + 256 * b3.toNat)) := by
  obtain ⟨h0, h1, h2, h3⟩ := wordOfBytes_extract b0 b1 b2 b3
  rw [toNat_eq_sum_bytes, h0, h1, h2, h3]

/-- A read of memory has the little-endian value of its bytes (R60, R62). -/
theorem readMem_toNat (m : List Host.Cell) (a : Word) (w : Width) :
    (readMem m a w).toNat = bytesValue m a w.bytes := by
  have h2 : a + 1 + 1 = a + 2 := by rw [BitVec.add_assoc]; rfl
  have h3 : a + 2 + 1 = a + 3 := by rw [BitVec.add_assoc]; rfl
  cases w
  · simp [readMem, bytesValue, Width.bytes]
    omega
  · simp [readMem, bytesValue, Width.bytes, wordOfBytes_toNat]
  · simp only [readMem, bytesValue, Width.bytes, wordOfBytes_toNat, h2, h3, Nat.mul_zero, Nat.add_zero]

/-- A value of `n` bytes fits in `8 * n` bits. -/
theorem bytesValue_lt (m : List Host.Cell) (a : Word) (n : Nat) : bytesValue m a n < 2 ^ (8 * n) := by
  induction n generalizing a with
  | zero => simp [bytesValue]
  | succ n ih =>
    have hb := (readByte m a).isLt
    have ht := ih (a + 1)
    rw [bytesValue, Nat.mul_succ, Nat.pow_add]
    omega

theorem readMem_lt (m : List Host.Cell) (a : Word) (w : Width) : (readMem m a w).toNat < 2 ^ w.bits :=
  readMem_toNat m a w ▸ bytesValue_lt m a w.bytes

/-! ## Extension to 32 bits -/

/-- Loads of width `w` bring a value to 32 bits as `ext` says (R141 to R150). -/
def Extends (w : Width) (signed : Bool) (ext : Nat → Int) : Prop :=
  ∀ v : Word, v.toNat < 2 ^ w.bits → extend w signed v = BitVec.ofInt 32 (ext v.toNat)

theorem extends_word : Extends .word false (fun x => x) := fun v _ => by simp [extend]

theorem extends_half_signed : Extends .half true (signedValue 16) := by
  intro v hv
  have hv : v.toNat < 65536 := hv
  have h : (v.setWidth 16).toInt = signedValue 16 v.toNat := by
    simp only [BitVec.toInt_eq_toNat_cond, BitVec.toNat_setWidth, signedValue]
    split <;> split <;> omega
  simp [extend, BitVec.signExtend, h]

theorem extends_half_unsigned : Extends .half false (fun x => x) := by
  intro v hv
  have hv : v.toNat < 65536 := hv
  apply BitVec.eq_of_toNat_eq
  simp [extend]
  omega

theorem extends_byte_signed : Extends .byte true (signedValue 8) := by
  intro v hv
  have hv : v.toNat < 256 := hv
  have h : (v.setWidth 8).toInt = signedValue 8 v.toNat := by
    simp only [BitVec.toInt_eq_toNat_cond, BitVec.toNat_setWidth, signedValue]
    split <;> split <;> omega
  simp [extend, BitVec.signExtend, h]

theorem extends_byte_unsigned : Extends .byte false (fun x => x) := by
  intro v hv
  have hv : v.toNat < 256 := hv
  apply BitVec.eq_of_toNat_eq
  simp [extend]
  omega

/-! ## Byte lanes -/

theorem lowMask_toNat {n : Nat} (h : n ≤ 32) : (lowMask n).toNat = 2 ^ n - 1 := by
  have := Nat.pow_le_pow_right (n := 2) (by decide) h
  have := Nat.two_pow_pos n
  simp only [lowMask, BitVec.toNat_ofNat]
  omega

theorem lowMask_getLsbD {n : Nat} (h : n ≤ 32) (i : Nat) : (lowMask n).getLsbD i = decide (i < n) := by
  rw [BitVec.getLsbD, lowMask_toNat h, Nat.testBit_two_pow_sub_one]

theorem Width.bytes_eq_four (w : Width) : w.bytes = 4 ↔ w = .word := by cases w <;> decide

theorem Width.bits_le (w : Width) : w.bits ≤ 32 := by cases w <;> decide

/-- The selected lanes of a word as a number. -/
theorem selectLanes_toNat (a : Word) (w : Width) (v : Word) :
    (selectLanes a w v).toNat = lanesValue v a w.bytes := by
  rw [selectLanes, BitVec.toNat_and, lowMask_toNat w.bits_le, Nat.and_two_pow_sub_one_eq_mod,
    BitVec.toNat_ushiftRight, Nat.shiftRight_eq_div_pow]
  rfl

theorem lanesValue_lt (v a : Word) (w : Width) : lanesValue v a w.bytes < 2 ^ w.bits :=
  Nat.mod_lt _ (Nat.two_pow_pos _)

/-- A whole word is all its lanes. -/
theorem selectLanes_word {a : Word} (h : a.toNat % 4 = 0) (v : Word) : selectLanes a .word v = v := by
  apply BitVec.eq_of_toNat_eq
  have := v.isLt
  simp only [selectLanes_toNat, lanesValue, h, Width.bytes]
  omega

theorem laneMask_word {a : Word} (h : a.toNat % 4 = 0) : laneMask a .word = 0xffffffff := by
  simp [laneMask, laneShift, h, Width.bits, Width.bytes, lowMask]

theorem shiftLeft_laneShift_word {a : Word} (h : a.toNat % 4 = 0) (v : Word) : v <<< laneShift a = v := by
  simp [laneShift, h]

/-- Bit `i` of a merged word: from the value inside the lanes of the access, from the old word elsewhere. -/
theorem mergeLanes_getLsbD (a : Word) (w : Width) (v old : Word) {i : Nat} (hi : i < 32) :
    (mergeLanes a w v old).getLsbD i =
      if laneShift a ≤ i ∧ i < laneShift a + w.bits then v.getLsbD (i - laneShift a) else old.getLsbD i := by
  simp only [mergeLanes, merge, laneMask, BitVec.getLsbD_or, BitVec.getLsbD_and, BitVec.getLsbD_not,
    BitVec.getLsbD_shiftLeft, lowMask_getLsbD w.bits_le, hi]
  split
  · next h =>
    have h1 : ¬ i < laneShift a := by omega
    have h2 : i - laneShift a < w.bits := by omega
    simp [h1, h2]
  · next h =>
    by_cases h1 : i < laneShift a
    · simp [h1]
    · have h2 : ¬ i - laneShift a < w.bits := by omega
      simp [h1, h2]

/-- The merged word has the bytes of the access replaced. -/
theorem mergeLanes_lanesReplaced (a : Word) (w : Width) (v old : Word) :
    lanesReplaced a w.bytes v old (mergeLanes a w v old) := by
  intro j hj
  ext i hi
  simp only [BitVec.getElem_extractLsb', mergeLanes_getLsbD a w v old (show 8 * j + i < 32 by omega), laneShift,
    Width.bits]
  have inside : (8 * (a.toNat % 4) ≤ 8 * j + i ∧ 8 * j + i < 8 * (a.toNat % 4) + 8 * w.bytes) ↔
      (a.toNat % 4 ≤ j ∧ j < a.toNat % 4 + w.bytes) := by omega
  simp only [inside]
  split
  · next h =>
    rw [BitVec.getElem_extractLsb']
    congr 1
    omega
  · rw [BitVec.getElem_extractLsb']

/-- A whole word merged is the word. -/
theorem mergeLanes_word {a : Word} (h : a.toNat % 4 = 0) (v old : Word) : mergeLanes a .word v old = v := by
  apply BitVec.eq_of_getLsbD_eq
  intro i hi
  rw [mergeLanes_getLsbD a .word v old hi, laneShift, h, if_pos ⟨by omega, by simpa [Width.bits, Width.bytes] using hi⟩]
  rfl

/-- A word stored whole replaces every byte. -/
theorem lanesReplaced_word {a : Word} (h : a.toNat % 4 = 0) (v old : Word) : lanesReplaced a 4 v old v := by
  intro j hj
  simp [h, hj]

end Sys2Proof.Machine
end

section
/-! SUPPORT. The ten loads and six stores, and what they do past the data cache: memory, peripherals, undefined accesses (R68,
R70, R73, R140 to R158; U1, U2). -/

namespace Sys2Proof.Machine

/-! ## The table of loads and stores -/

/-- `mk` is the load of width `w`, sign-extending and `io` as told. -/
def IsLoad (mk : Reg → Reg → BitVec 16 → Instr) (w : Width) (signed io : Bool) : Prop :=
  ∀ s a b imm, exec (mk a b imm) s = finish (load s a b imm w signed io)

/-- `mk` is the store of width `w`, `io` as told. -/
def IsStore (mk : Reg → Reg → BitVec 16 → Instr) (w : Width) (io : Bool) : Prop :=
  ∀ s a b imm, exec (mk a b imm) s = finish (store s a b imm w io)

theorem ldw_isLoad : IsLoad .ldw .word false false := fun _ _ _ _ => rfl
theorem ldwio_isLoad : IsLoad .ldwio .word false true := fun _ _ _ _ => rfl
theorem ldh_isLoad : IsLoad .ldh .half true false := fun _ _ _ _ => rfl
theorem ldhio_isLoad : IsLoad .ldhio .half true true := fun _ _ _ _ => rfl
theorem ldhu_isLoad : IsLoad .ldhu .half false false := fun _ _ _ _ => rfl
theorem ldhuio_isLoad : IsLoad .ldhuio .half false true := fun _ _ _ _ => rfl
theorem ldb_isLoad : IsLoad .ldb .byte true false := fun _ _ _ _ => rfl
theorem ldbio_isLoad : IsLoad .ldbio .byte true true := fun _ _ _ _ => rfl
theorem ldbu_isLoad : IsLoad .ldbu .byte false false := fun _ _ _ _ => rfl
theorem ldbuio_isLoad : IsLoad .ldbuio .byte false true := fun _ _ _ _ => rfl
theorem stw_isStore : IsStore .stw .word false := fun _ _ _ _ => rfl
theorem stwio_isStore : IsStore .stwio .word true := fun _ _ _ _ => rfl
theorem sth_isStore : IsStore .sth .half false := fun _ _ _ _ => rfl
theorem sthio_isStore : IsStore .sthio .half true := fun _ _ _ _ => rfl
theorem stb_isStore : IsStore .stb .byte false := fun _ _ _ _ => rfl
theorem stbio_isStore : IsStore .stbio .byte true := fun _ _ _ _ => rfl

section

variable {mk : Reg → Reg → BitVec 16 → Instr} {w : Width} {signed io : Bool} {s t : State} {a b : Reg} {imm : BitVec 16}

/-- A load whose access has a value writes it, extended. -/
theorem IsLoad.exec_value (hmk : IsLoad mk w signed io) {v : Word}
    (h : dataLoad s (effAddr s a imm) w io = .ok (some v, t)) :
    exec (mk a b imm) s = .next (writeResult t b (extend w signed v)) := by
  rw [hmk, load, h]
  rfl

/-- A load whose access has no value writes a free one (U1, U2). -/
theorem IsLoad.exec_open (hmk : IsLoad mk w signed io) (h : dataLoad s (effAddr s a imm) w io = .ok (none, t)) :
    exec (mk a b imm) s = .next (writeResult (t.drawn 1) b t.freeNow) := by
  rw [hmk, load, h]
  rfl

theorem IsStore.exec_ok (hmk : IsStore mk w io) (h : dataStore s (effAddr s a imm) w (s.reg b) io = .ok t) :
    exec (mk a b imm) s = .next t.advance := by
  rw [hmk, store, h]
  rfl

theorem IsStore.exec_next (hmk : IsStore mk w io) (h : exec (mk a b imm) s = .next t) :
    ∃ u, dataStore s (effAddr s a imm) w (s.reg b) io = .ok u ∧ t = u.advance := by
  rw [hmk, finish_next] at h
  obtain ⟨u, hu, h⟩ := bind_ok.mp h
  cases h
  exact ⟨u, hu, rfl⟩

theorem IsStore.exec_error (hmk : IsStore mk w io) {e : Stop}
    (h : dataStore s (effAddr s a imm) w (s.reg b) io = .error e) : exec (mk a b imm) s = finish (.error e) := by
  rw [hmk, store, h]
  rfl

end

/-! ## The two routes of an access -/

section

variable {s : State} {a v : Word} {w : Width} {io : Bool}

theorem mapped_of_findRegion {c : Config} {port : Region → Bool} {r : Region} (h : findRegion c port a = some r) :
    mapped c port a = true := by
  simp [mapped, h]

theorem mapped_of_nothingAt (h : nothingAt s a) : mapped s.cfg Region.data a = false := congrArg Option.isSome h

theorem dataLoad_bypass (ha : aligned w a = true) (hm : mapped s.cfg Region.data a = true)
    (hb : bypasses s.cfg a io = true) : dataLoad s a w io = busRead s Region.data a w := by
  simp [dataLoad, ha, hm, hb]

theorem dataLoad_cached (ha : aligned w a = true) (hm : mapped s.cfg Region.data a = true)
    (hb : bypasses s.cfg a io = false) :
    dataLoad s a w io = (do let r ← cachedLoad s a w; return (some r.1, r.2)) := by
  simp [dataLoad, ha, hm, hb]

theorem dataStore_bypass (ha : aligned w a = true) (hm : mapped s.cfg Region.data a = true)
    (hb : bypasses s.cfg a io = true) : dataStore s a w v io = busStore s Region.data a w v := by
  simp [dataStore, ha, hm, hb]

theorem dataStore_cached (ha : aligned w a = true) (hm : mapped s.cfg Region.data a = true)
    (hb : bypasses s.cfg a io = false) : dataStore s a w v io = cachedStore (noteStore s a false) a w v := by
  simp [dataStore, ha, hm, hb]

theorem dataStore_misaligned (ha : aligned w a = false) :
    dataStore s a w v io = .error (.refusal (.misalignedStore a)) := by
  simp [dataStore, ha]

theorem dataStore_unmapped (ha : aligned w a = true) (hm : mapped s.cfg Region.data a = false) :
    dataStore s a w v io = .error (.fault (.unmappedStore a)) := by
  simp [dataStore, ha, hm]

/-- A bus store into a CFI flash is refused (P22). -/
theorem busStore_flash {port : Region → Bool} {r : Region} (h : findRegion s.cfg port a = some r) (hk : r.kind = .flash) :
    busStore s port a w v = .error (.refusal (.flashCommand a)) := by
  simp [busStore, busWrite, (noteStore_quiet s a _).cfg, h, hk]

end

/-! ## Loads and stores past the data cache -/

section

variable {mk : Reg → Reg → BitVec 16 → Instr} {w : Width} {signed io : Bool}

/-- A load past the data cache from memory writes the extended value of its bytes (R60, R141 to R150). -/
theorem IsLoad.loadsBytes (hmk : IsLoad mk w signed io) {ext : Nat → Int} (hext : Extends w signed ext) :
    LoadsBytes mk w.bytes io ext := by
  intro s a b imm ea hea ha hb ⟨r, hr, hk⟩
  rw [← effAddr_eq_ofInt] at hea
  subst hea
  rw [hmk.exec_value ((dataLoad_bypass (aligned_iff.mpr ha) (mapped_of_findRegion hr) hb).trans (busRead_memory hr hk)),
    hext _ (readMem_lt _ _ _), readMem_toNat]
  exact writeResult_writes s b _

/-- A load at a misaligned address or where nothing is mapped writes a free value (U1, U2; logs 11, 12). -/
theorem IsLoad.loadsOpen (hmk : IsLoad mk w signed io) : LoadsOpen mk w.bytes := by
  intro s a b imm ea hea h
  rw [← effAddr_eq_ofInt] at hea
  subst hea
  have hopen := dataLoad_open (io := io) (h.imp aligned_eq_false_iff.mpr mapped_of_nothingAt)
  exact ⟨s.drawn 1, s.freeNow, s.freeCtr + 1, rfl, hmk.exec_open hopen ▸ writeResult_writes (s.drawn 1) b _⟩

/-- A store past the data cache to RAM writes exactly its bytes (R60, R151 to R156). -/
theorem IsStore.storesBytes (hmk : IsStore mk w io) : StoresBytes mk w.bytes io := by
  intro s a b imm ea hea ha hb ⟨r, hr, hk⟩
  rw [← effAddr_eq_ofInt] at hea
  subst hea
  refine ⟨_, hmk.exec_ok ((dataStore_bypass (aligned_iff.mpr ha) (mapped_of_findRegion hr) hb).trans (busStore_ram hr hk)),
    ?_, ?_, rfl⟩
  · exact fun k hk => readByte_writeMem_inside s.mem _ w _ k hk
  · exact fun c hc => readByte_writeMem_outside s.mem _ c w _ hc

/-- Where a store stops (U1, U2, P22; logs 11, 12, 39). -/
theorem IsStore.storesStop (hmk : IsStore mk w io) : StoresStop mk w.bytes io := by
  intro s a b imm ea hea
  rw [← effAddr_eq_ofInt] at hea
  subst hea
  refine ⟨fun ha => ?misaligned, fun ha hn => ?unmapped, fun ha hb ⟨r, hr, hk⟩ => ?flash⟩
  case misaligned =>
    exact hmk.exec_error (dataStore_misaligned (aligned_eq_false_iff.mpr ha))
  case unmapped =>
    exact hmk.exec_error (dataStore_unmapped (aligned_iff.mpr ha) (mapped_of_nothingAt hn))
  case flash =>
    exact hmk.exec_error ((dataStore_bypass (aligned_iff.mpr ha) (mapped_of_findRegion hr) hb).trans (busStore_flash hr hk))

end

/-! ## Peripheral registers -/

section

variable {s : State} {a : Word} {port : Region → Bool} {r : Region} {i : Nat} {c : Core}

/-- A word read on the bus from a peripheral's region is one register read (R400, log 30). -/
theorem busRead_device (ha : a.toNat % 4 = 0) (hr : findRegion s.cfg port a = some r) (hk : r.kind = .device i)
    (hc : deviceAt s.devices i = some c) :
    busRead s port a .word = .ok (some (c.read (registerOffset r a) s.freeNow).1,
      { s with devices := setDevice s.devices i (c.read (registerOffset r a) s.freeNow).2, freeCtr := s.freeCtr + 1 }) := by
  simp [busRead, deviceRead, hr, hk, hc, selectLanes_word ha, State.drawn]

/-- A word write on the bus to a peripheral's region is one register write with all byte lanes (R400, log 30). -/
theorem busWrite_device (ha : a.toNat % 4 = 0) (hr : findRegion s.cfg port a = some r) (hk : r.kind = .device i)
    (hc : deviceAt s.devices i = some c) {v : Word} {c' : Core}
    (hw : c.write (registerOffset r a) v 0xffffffff s.freeNow = .ok c') :
    busWrite s port a .word v = .ok { s with devices := setDevice s.devices i c', freeCtr := s.freeCtr + 1 } := by
  simp only [busWrite, hr, hk, deviceWrite, hc, shiftLeft_laneShift_word ha, laneMask_word ha, hw]
  rfl

/-- A store to a peripheral's register may be recorded besides (log 22). -/
theorem busStore_device (ha : a.toNat % 4 = 0) (hr : findRegion s.cfg port a = some r) (hk : r.kind = .device i)
    (hc : deviceAt s.devices i = some c) {v : Word} {c' : Core}
    (hw : c.write (registerOffset r a) v 0xffffffff s.freeNow = .ok c') :
    ∃ u, busStore s port a .word v = .ok u ∧
      u = { s with devices := setDevice s.devices i c', freeCtr := u.freeCtr, stale := u.stale } := by
  rw [busStore, noteStore_eq]
  exact ⟨_, busWrite_device (s := { s with stale := (noteStore s a (storeSettles s a .word)).stale }) ha hr hk hc hw, rfl⟩

theorem deviceAt_setDevice {l : List Device} (h : deviceAt l i = some c) (c' : Core) :
    deviceAt (setDevice l i c') i = some c' := by
  simp only [deviceAt, setDevice, Option.map_eq_some_iff, List.getElem?_modify_eq] at h ⊢
  obtain ⟨d, hd, -⟩ := h
  exact ⟨{ d with core := c' }, by simp [hd], rfl⟩

end

end Sys2Proof.Machine

namespace Sys2Proof.Settled

open Sys2Proof.Machine

/-- Settles O16: every load reads the bytes at its address past the data cache. -/
theorem loadsFromMemory : Obligations.LoadsFromMemory :=
  ⟨⟨ldw_isLoad.loadsBytes extends_word, ldwio_isLoad.loadsBytes extends_word⟩,
    ⟨ldh_isLoad.loadsBytes extends_half_signed, ldhio_isLoad.loadsBytes extends_half_signed⟩,
    ⟨ldhu_isLoad.loadsBytes extends_half_unsigned, ldhuio_isLoad.loadsBytes extends_half_unsigned⟩,
    ⟨ldb_isLoad.loadsBytes extends_byte_signed, ldbio_isLoad.loadsBytes extends_byte_signed⟩,
    ⟨ldbu_isLoad.loadsBytes extends_byte_unsigned, ldbuio_isLoad.loadsBytes extends_byte_unsigned⟩⟩

/-- Settles O17: every store writes its bytes past the data cache. -/
theorem storesToRam : Obligations.StoresToRam :=
  ⟨⟨stw_isStore.storesBytes, stwio_isStore.storesBytes⟩, ⟨sth_isStore.storesBytes, sthio_isStore.storesBytes⟩,
    ⟨stb_isStore.storesBytes, stbio_isStore.storesBytes⟩⟩

/-- Settles O18: every load without a defined value completes with a free one. -/
theorem undefinedLoadsComplete : Obligations.UndefinedLoadsComplete :=
  ⟨⟨ldw_isLoad.loadsOpen, ldwio_isLoad.loadsOpen⟩, ⟨ldh_isLoad.loadsOpen, ldhio_isLoad.loadsOpen⟩,
    ⟨ldhu_isLoad.loadsOpen, ldhuio_isLoad.loadsOpen⟩, ⟨ldb_isLoad.loadsOpen, ldbio_isLoad.loadsOpen⟩,
    ⟨ldbu_isLoad.loadsOpen, ldbuio_isLoad.loadsOpen⟩⟩

/-- Settles O19: every store stops in the three cases. -/
theorem storeStops : Obligations.StoreStops :=
  ⟨⟨stw_isStore.storesStop, stwio_isStore.storesStop⟩, ⟨sth_isStore.storesStop, sthio_isStore.storesStop⟩,
    ⟨stb_isStore.storesStop, stbio_isStore.storesStop⟩⟩

/-- Settles O22: the one bus access of a word load or store, read and written with all lanes. -/
theorem peripheralAccess : Obligations.PeripheralAccess := by
  rintro s a b imm io _ r i _ c _ rfl ha hb hr hk hc rfl rfl
  have hal : aligned .word (effAddr s a imm) = true := aligned_iff.mpr ha
  have hm := mapped_of_findRegion hr
  have hload : IsLoad (fun a b imm => if io then .ldwio a b imm else .ldw a b imm) .word false io := by
    cases io
    · exact ldw_isLoad
    · exact ldwio_isLoad
  have hstore : IsStore (fun a b imm => if io then .stwio a b imm else .stw a b imm) .word io := by
    cases io
    · exact stw_isStore
    · exact stwio_isStore
  constructor
  · have h := (dataLoad_bypass hal hm hb).trans (busRead_device ha hr hk hc)
    refine ⟨_, rfl, ?_⟩
    rw [hload.exec_value h]
    exact writeResult_writes _ b _
  · intro c' hw
    obtain ⟨u, hu, he⟩ := busStore_device ha hr hk hc hw
    have h := (dataStore_bypass hal hm hb).trans hu
    refine ⟨u.advance, hstore.exec_ok h, ?_⟩
    rw [he]
    exact ⟨deviceAt_setDevice hc c', fun _ => rfl, rfl⟩

end Sys2Proof.Settled
end

section
/-! SUPPORT. The data cache: hits, evictions, misses of loads and stores, `flushd` and `initd` (R71, R86 to R88, R298, R300; D18,
log 22). -/

namespace Sys2Proof.Machine

/-! ## Hit or miss -/

section

variable {s : State} {a : Word} {l : DataLine}

theorem dHit_eq_some (h : keyGet s.dcache (dIndex s.cfg a) = some l) (ht : l.tag = dTag s.cfg a) : dHit s a = some l := by
  simp [dHit, h, ht]

theorem dHit_eq_none (h : ∀ l, keyGet s.dcache (dIndex s.cfg a) = some l → l.tag ≠ dTag s.cfg a) : dHit s a = none := by
  simpa [dHit, Option.filter_eq_none_iff] using h

theorem dHit_tag (h : dHit s a = some l) : l.tag = dTag s.cfg a := by
  simpa using (Option.filter_eq_some_iff.mp h).2

/-- Storing a line under the index of an address changes that line of the data cache only. -/
theorem setDLine_onlyLine (s : State) (a : Word) (l : DataLine) :
    OnlyLine s (setDLine s a l) (dIndex s.cfg a) l :=
  ⟨by simp [setDLine, keyGet_keySet], fun j hj => by simp [setDLine, keyGet_keySet, hj]⟩

/-- A line stored with the tag of its address hits. -/
theorem dHit_setDLine (h : l.tag = dTag s.cfg a) : dHit (setDLine s a l) a = some l :=
  dHit_eq_some (s := setDLine s a l) (setDLine_onlyLine s a l).1 h

end

/-! ## Eviction -/

/-- The lines `d` are the lines `c` without line `k`. -/
def LineGone (c d : List (Nat × DataLine)) (k : Nat) : Prop := ∀ j, keyGet d j = if j = k then none else keyGet c j

section

variable {s : State} {k : Nat} {l : DataLine}

/-- The eviction of a line that is not dirty, or of none, changes only the data cache. -/
theorem evict_clean (h : ∀ l, keyGet s.dcache k = some l → l.dirty = false) :
    ∃ d, evict s k = .ok { s with dcache := d } ∧ LineGone s.dcache d k := by
  unfold evict
  cases hl : keyGet s.dcache k with
  | none =>
    refine ⟨s.dcache, rfl, fun j => ?_⟩
    split
    · next hj => rw [hj, hl]
    · rfl
  | some l => exact ⟨_, by simp [writeBack, h l hl, Except.map], keyGet_keyErase s.dcache k⟩

/-- The eviction of a dirty line that belongs to RAM writes its word there, and may record the store (R86, log 22). -/
theorem evict_dirty (hl : keyGet s.dcache k = some l) (hd : l.dirty = true) (hr : ramAt s (dLineAddr s.cfg l.tag k)) :
    ∃ d st, evict s k =
        .ok { s with mem := writeMem s.mem (dLineAddr s.cfg l.tag k) .word l.data, dcache := d, stale := st } ∧
      LineGone s.dcache d k := by
  obtain ⟨r, hr, hk⟩ := hr
  simp only [evict, hl, writeBack, hd, if_true, busStore_ram hr hk]
  exact ⟨_, _, rfl, keyGet_keyErase s.dcache k⟩

/-- An eviction that takes no more than RAM goes through; what it does to memory and to the data cache. -/
theorem evict_evictable (h : evictable s k) :
    ∃ m d st, evict s k = .ok { s with mem := m, dcache := d, stale := st } ∧ evictedMem s k m ∧
      LineGone s.dcache d k := by
  by_cases hd : ∃ l, keyGet s.dcache k = some l ∧ l.dirty = true
  · obtain ⟨l, hl, hd⟩ := hd
    have hr := h l hl hd
    obtain ⟨d, st, ht, hg⟩ := evict_dirty hl hd hr
    refine ⟨_, d, st, ht, ?_, hg⟩
    simp only [evictedMem, hl, hd, if_true]
    exact ⟨hr, fun j hj => readByte_writeMem_inside s.mem _ .word _ j hj,
      fun x hx => readByte_writeMem_outside s.mem _ x .word _ hx⟩
  · have hclean : ∀ l, keyGet s.dcache k = some l → l.dirty = false := by simpa using hd
    obtain ⟨d, ht, hg⟩ := evict_clean hclean
    refine ⟨s.mem, d, s.stale, ht, ?_, hg⟩
    unfold evictedMem
    split
    · exact fun _ => rfl
    · next l hl => simp [hclean l hl]

end

/-! ## A miss -/

/-- `t` is `s` after a miss that evicts line `k` and puts `l` in its place: memory as the eviction leaves it, no other line
changed, and besides only the store record. -/
def Replaces (s t : State) (k : Nat) (l : DataLine) : Prop :=
  evictedMem s k t.mem ∧ OnlyLine s t k l ∧ t = { s with mem := t.mem, dcache := t.dcache, stale := t.stale }

section

variable {s : State} {a v : Word} {w : Width}

/-- The eviction for an address, and any line put in the place of the victim. -/
theorem evict_then_setDLine (h : evictable s (dIndex s.cfg a)) :
    ∃ u, evict s (dIndex s.cfg a) = .ok u ∧ u.cfg = s.cfg ∧ ∀ l, Replaces s (setDLine u a l) (dIndex s.cfg a) l := by
  obtain ⟨m, d, st, hu, hm, hg⟩ := evict_evictable h
  refine ⟨_, hu, rfl, fun l => ⟨hm, ?_, rfl⟩⟩
  obtain ⟨hset, hothers⟩ := setDLine_onlyLine { s with mem := m, dcache := d, stale := st } a l
  exact ⟨hset, fun j hj => by rw [hothers j hj, hg j, if_neg hj]⟩

/-- A line fill from memory reads its word and changes nothing. -/
theorem fillWord_memory (h : dataMemoryAt s (wordAddr a)) :
    fillWord s a = .ok (readMem s.mem (wordAddr a) .word, s) := by
  obtain ⟨r, hr, hk⟩ := h
  rw [fillWord, busRead_memory hr hk]
  rfl

theorem cachedLoad_hit {l : DataLine} (h : dHit s a = some l) : cachedLoad s a w = .ok (selectLanes a w l.data, s) := by
  simp [cachedLoad, h]

theorem cachedStore_hit {l : DataLine} (h : dHit s a = some l) :
    cachedStore s a w v = .ok (setDLine s a ⟨l.tag, true, mergeLanes a w v l.data⟩) := by
  simp [cachedStore, h]

/-- A cached load that misses fills the line from memory after the eviction (R86). -/
theorem cachedLoad_miss (hmiss : dHit s a = none) (hev : evictable s (dIndex s.cfg a))
    (hmem : dataMemoryAt s (wordAddr a)) :
    ∃ t l, cachedLoad s a w = .ok (selectLanes a w l.data, t) ∧ l.tag = dTag s.cfg a ∧ l.dirty = false ∧
      l.data = readMem t.mem (wordAddr a) .word ∧ Replaces s t (dIndex s.cfg a) l := by
  obtain ⟨u, hu, hc, hr⟩ := evict_then_setDLine hev
  have hfill : fillWord u a = .ok (readMem u.mem (wordAddr a) .word, u) :=
    fillWord_memory (by rwa [dataMemoryAt, hc])
  simp only [cachedLoad, hmiss, hu]
  exact ⟨_, ⟨dTag s.cfg a, false, readMem u.mem (wordAddr a) .word⟩, bind_ok.mpr ⟨_, rfl, bind_ok.mpr ⟨_, hfill, rfl⟩⟩, rfl,
    rfl, rfl, hr _⟩

/-- A cached store that misses allocates the line after the eviction: a word without a read, else filled from memory (R86,
D18). -/
theorem cachedStore_miss (hmiss : dHit s a = none) (ha : aligned w a = true) (hev : evictable s (dIndex s.cfg a))
    (hmem : w = .word ∨ dataMemoryAt s (wordAddr a)) :
    ∃ t d old, cachedStore s a w v = .ok t ∧ (w ≠ .word → old = readMem t.mem (wordAddr a) .word) ∧
      lanesReplaced a w.bytes v old d ∧ Replaces s t (dIndex s.cfg a) ⟨dTag s.cfg a, true, d⟩ := by
  obtain ⟨u, hu, hc, hr⟩ := evict_then_setDLine hev
  simp only [cachedStore, hmiss, hu]
  by_cases hw : w = .word
  · subst hw
    exact ⟨setDLine u a ⟨dTag s.cfg a, true, v⟩, v, 0, rfl, fun h => absurd rfl h,
      lanesReplaced_word (aligned_iff.mp ha) v 0, hr _⟩
  · have hfill : fillWord u a = .ok (readMem u.mem (wordAddr a) .word, u) :=
      fillWord_memory (by rw [dataMemoryAt, hc]; exact hmem.resolve_left hw)
    simp only [if_neg hw]
    exact ⟨_, _, _, bind_ok.mpr ⟨_, rfl, bind_ok.mpr ⟨_, hfill, rfl⟩⟩, fun _ => rfl, mergeLanes_lanesReplaced a w v _, hr _⟩

/-- A cached store leaves a line that holds the stored word, when a word is stored (R86). -/
theorem cachedStore_word_dHit {t : State} (ha : a.toNat % 4 = 0) (h : cachedStore s a .word v = .ok t) :
    ∃ l, dHit t a = some l ∧ l.data = v := by
  unfold cachedStore at h
  split at h
  · next l hl =>
    cases h
    have ht := dHit_tag hl
    exact ⟨_, dHit_setDLine ht, mergeLanes_word ha v l.data⟩
  · obtain ⟨u, hu, h⟩ := bind_ok.mp h
    cases h
    refine ⟨_, dHit_setDLine ?_, rfl⟩
    rw [(evict_quiet hu).1.cfg]

end

/-! ## The cached loads and stores -/

section

variable {mk : Reg → Reg → BitVec 16 → Instr} {w : Width} {signed : Bool}

theorem IsLoad.cachedLoads (hmk : IsLoad mk w signed false) {ext : Nat → Int} (hext : Extends w signed ext) :
    CachedLoads mk w.bytes ext := by
  rintro s a b imm ea k hea rfl ha hb hm
  rw [← effAddr_eq_ofInt] at hea
  subst hea
  have hload := dataLoad_cached (io := false) (aligned_iff.mpr ha) hm hb
  have hlanes (d : Word) : extend w signed (selectLanes (effAddr s a imm) w d) =
      BitVec.ofInt 32 (ext (lanesValue d (effAddr s a imm) w.bytes)) := by
    rw [hext _ (selectLanes_toNat _ w d ▸ lanesValue_lt d _ w), selectLanes_toNat]
  refine ⟨fun l hl ht => ?hit, fun hmiss hev hmem => ?miss⟩
  case hit =>
    rw [cachedLoad_hit (dHit_eq_some hl ht)] at hload
    rw [hmk.exec_value hload, hlanes]
    exact writeResult_writes s b _
  case miss =>
    obtain ⟨t, l, hc, htag, hd, hdata, hmem', hline, ht⟩ := cachedLoad_miss (w := w) (dHit_eq_none hmiss) hev hmem
    rw [hc] at hload
    rw [hmk.exec_value hload, hlanes]
    refine ⟨_, l, rfl, ?_⟩
    simp only [writeResult_mem, writeResult_dcache, writeResult_stale, OnlyLine]
    rw [← ht]
    exact ⟨hmem', htag, hd, by rw [hdata, readMem_toNat]; rfl, hline, writeResult_writes t b _⟩

theorem IsStore.cachedStores (hmk : IsStore mk w false) : CachedStores mk w.bytes := by
  rintro s a b imm ea k hea rfl ha hb hm
  rw [← effAddr_eq_ofInt] at hea
  subst hea
  have hal := aligned_iff.mpr ha
  have hstore := dataStore_cached (v := s.reg b) (io := false) hal hm hb
  rw [noteStore_eq] at hstore
  generalize (noteStore s (effAddr s a imm) false).stale = st at hstore
  refine ⟨fun l hl ht => ?hit, fun hmiss hev hmem => ?miss⟩
  case hit =>
    rw [cachedStore_hit (dHit_eq_some (s := { s with stale := st }) hl ht)] at hstore
    exact ⟨_, _, hmk.exec_ok hstore, mergeLanes_lanesReplaced _ w _ _, setDLine_onlyLine _ _ _, fun _ => rfl, rfl⟩
  case miss =>
    obtain ⟨t, d, old, hc, hold, hd, hmem', hline, ht⟩ := cachedStore_miss (s := { s with stale := st }) (v := s.reg b)
      (dHit_eq_none hmiss) hal hev (hmem.imp_left w.bytes_eq_four.mp)
    rw [hc] at hstore
    refine ⟨t.advance, d, old, hmk.exec_ok hstore, hmem', fun hw => ?_, hd, hline, ?_⟩
    · rw [hold (mt w.bytes_eq_four.mpr hw), readMem_toNat]
      rfl
    · conv_lhs => rw [ht]
      rfl

end

/-- A word stored is the word that a load of its address returns next, through the cache or past it alike (R76). -/
theorem dataLoad_of_dataStore_word {s u : State} {a v : Word} {io : Bool} (h : dataStore s a .word v io = .ok u)
    (hram : bypasses s.cfg a io = true → ramAt s a) : ∃ t, dataLoad u.advance a .word io = .ok (some v, t) := by
  obtain ⟨ha, hm⟩ := dataStore_ok h
  have hcfg : u.advance.cfg = s.cfg := (dataStore_quiet h).cfg
  rw [← hcfg] at hm
  cases hb : bypasses s.cfg a io with
  | true =>
    obtain ⟨r, hr, hk⟩ := hram hb
    rw [dataStore_bypass ha (hcfg ▸ hm) hb, busStore_ram hr hk] at h
    have hu : readMem u.advance.mem a .word = v := by cases h; exact readMem_writeMem_word s.mem a v
    rw [dataLoad_bypass ha hm (hcfg ▸ hb), busRead_memory (hcfg ▸ hr) (.inl hk), hu]
    exact ⟨_, rfl⟩
  | false =>
    rw [dataStore_cached ha (hcfg ▸ hm) hb] at h
    obtain ⟨l, hl, hd⟩ := cachedStore_word_dHit (aligned_iff.mp ha) h
    rw [dataLoad_cached ha hm (hcfg ▸ hb), cachedLoad_hit (s := u.advance) hl, selectLanes_word (aligned_iff.mp ha), hd]
    exact ⟨_, rfl⟩

/-! ## Flushing and initialising a line -/

/-- Without a data cache `flushd` only goes on (R298). -/
theorem exec_flushd_uncached {s : State} (h : hasDCache s.cfg = false) (a : Reg) (imm : BitVec 16) :
    exec (.flushd a imm) s = .next s.advance := by
  have hf : flushDLine s (effAddr s a imm) = .ok s := by simp [flushDLine, h]
  exact congrArg (fun r => finish (r.map State.advance)) hf

/-- With a data cache `flushd` evicts the line of its address and goes on (R87, R298). -/
theorem exec_flushd_cached {s t : State} (h : hasDCache s.cfg = true) {a : Reg} {imm : BitVec 16}
    (ht : evict s (dIndex s.cfg (effAddr s a imm)) = .ok t) : exec (.flushd a imm) s = .next t.advance := by
  have hf : flushDLine s (effAddr s a imm) = .ok t := by rw [flushDLine, if_pos h, ht]
  exact congrArg (fun r => finish (r.map State.advance)) hf

/-- In supervisor mode `initd` drops the line of its address and goes on (R88, R300). -/
theorem exec_initd_supervisor {s : State} (h : s.status.u = false) (a : Reg) (imm : BitVec 16) :
    exec (.initd a imm) s = .next (dropDLine s (effAddr s a imm)).advance :=
  congrArg finish (restricted_supervisor h _)

/-- A dropped line is gone, without a write-back (R88). -/
theorem dropDLine_eq (s : State) (a : Word) : ∃ d, dropDLine s a = { s with dcache := d } ∧
    ∀ j, keyGet d j = if hasDCache s.cfg = true ∧ j = dIndex s.cfg a then none else keyGet s.dcache j := by
  unfold dropDLine
  split
  · next h => exact ⟨_, rfl, fun j => by simp [keyGet_keyErase, h]⟩
  · next h => exact ⟨s.dcache, rfl, fun j => by simp [h]⟩

end Sys2Proof.Machine

namespace Sys2Proof.Settled

open Sys2Proof.Machine

/-- Settles O20: the next load of the stored word, and the bytes of `StoresBytes` where the store bypasses the cache. -/
theorem storeThenLoad : Obligations.StoreThenLoad := by
  intro s t a b c imm hram h
  obtain ⟨u, hu, rfl⟩ := stw_isStore.exec_next h
  constructor
  · have hea : effAddr u.advance a imm = effAddr s a imm := by
      simp [effAddr, State.advance, State.reg, (dataStore_quiet hu).regs]
    obtain ⟨x, hx⟩ := dataLoad_of_dataStore_word hu hram
    exact ⟨_, ldw_isLoad.exec_value (hea ▸ hx), by rw [writeResult_reg, if_pos rfl]; rfl⟩
  · intro hb
    have ha := aligned_iff.mp (dataStore_ok hu).1
    obtain ⟨t, ht, hbytes, -⟩ := stw_isStore.storesBytes s a b imm _ (effAddr_eq_ofInt s a imm) ha hb (hram hb)
    rw [h] at ht
    cases ht
    exact hbytes

/-- Settles O21: each width of load and of store, hit and miss. -/
theorem cachedAccesses : Obligations.CachedAccesses :=
  ⟨ldw_isLoad.cachedLoads extends_word, ldh_isLoad.cachedLoads extends_half_signed,
    ldhu_isLoad.cachedLoads extends_half_unsigned, ldb_isLoad.cachedLoads extends_byte_signed,
    ldbu_isLoad.cachedLoads extends_byte_unsigned, stw_isStore.cachedStores, sth_isStore.cachedStores,
    stb_isStore.cachedStores⟩

/-- Settles O35: no data cache, the eviction of a clean line, the eviction of a dirty one. -/
theorem flushDataLine : Obligations.FlushDataLine := by
  rintro s a imm _ rfl
  refine ⟨fun hc => exec_flushd_uncached hc a imm, fun hc hclean => ?clean, ?dirty⟩
  case clean =>
    obtain ⟨d, ht, hg⟩ := evict_clean hclean
    exact ⟨_, exec_flushd_cached hc ht, (hg _).trans (if_pos rfl), fun j hj => (hg j).trans (if_neg hj), fun _ => rfl, rfl⟩
  case dirty =>
    rintro l _ hc hl hd rfl hr
    obtain ⟨d, st, ht, hg⟩ := evict_dirty hl hd hr
    exact ⟨_, exec_flushd_cached hc ht, (hg _).trans (if_pos rfl), fun j hj => (hg j).trans (if_neg hj),
      fun j hj => readByte_writeMem_inside s.mem _ .word _ j hj,
      fun x hx => readByte_writeMem_outside s.mem _ x .word _ hx, rfl⟩

/-- Settles O36: in supervisor mode the line is dropped. -/
theorem initDataLine : Obligations.InitDataLine := by
  intro s a imm hu
  obtain ⟨d, he, hd⟩ := dropDLine_eq s (effAddr s a imm)
  refine ⟨_, exec_initd_supervisor hu a imm, ?_⟩
  rw [he]
  exact ⟨fun _ => rfl, hd, rfl⟩

end Sys2Proof.Settled
end

section
/-! SUPPORT. Instruction fetch and its coherence with stores: `flushi`, `initi`, `flushp`, `sync`, a fetch that misses (R61, R63,
R79 to R84, R89, R90, R299, R301 to R303; D21, log 22). -/

namespace Sys2Proof.Machine

/-! ## Fetches -/

/-- No line of the instruction cache holds an address, on a core that has one. -/
def InstrMiss (s : State) (a : Word) : Prop :=
  hasICache s.cfg = true → ∀ l, keyGet s.icache (iIndex s.cfg (phys a)) = some l → l.tag ≠ iTag s.cfg (phys a)

/-- The instruction cache after a fetch of `a` that misses. -/
def filledICache (s : State) (a : Word) : List (Nat × InstrLine) :=
  if hasICache s.cfg then keySet s.icache (iIndex s.cfg (phys a)) ⟨iTag s.cfg (phys a), blockWords s.mem a⟩ else s.icache

section

variable {s : State} {a : Word}

/-- A fetch that misses returns memory's word and fills the line (R89). -/
theorem plainFetch_miss (h : InstrMiss s a) :
    plainFetch s a = (readMem s.mem a .word, { s with icache := filledICache s a }) := by
  unfold plainFetch filledICache
  split
  · next hc =>
    have hnone : (keyGet s.icache (iIndex s.cfg (phys a))).filter (fun l => l.tag == iTag s.cfg (phys a)) = none := by
      simpa [Option.filter_eq_none_iff] using h hc
    simp [cachedFetch, hnone]
  · rfl

/-- A fetch of a word about which nothing is stale is what the caches and memory give (R63). -/
theorem fetchOf_not_stale (h : ∀ e ∈ s.stale, e.addr ≠ phys a) : fetchOf s a = plainFetch s a := by
  have hnone : s.stale.find? (fun e => e.addr == phys a) = none := by simpa using h
  simp [fetchOf, hnone]

/-- A fetch that hits the instruction cache returns the line's word. -/
theorem plainFetch_hit {l : InstrLine} (hc : hasICache s.cfg = true)
    (hl : keyGet s.icache (iIndex s.cfg (phys a)) = some l) (ht : l.tag = iTag s.cfg (phys a)) :
    plainFetch s a = (l.words[(blockOffset a).toNat]'(blockOffset a).isLt, s) := by
  have hhit : (keyGet s.icache (iIndex s.cfg (phys a))).filter (fun l => l.tag == iTag s.cfg (phys a)) = some l := by
    simp [hl, ht]
  simp [plainFetch, hc, cachedFetch, hhit]

theorem fetch_of_aligned (ha : aligned .word s.pc = true) (hm : instrMemory s.cfg s.pc = true) :
    fetch s = .ok (fetchOf s s.pc) := by
  simp [fetch, ha, hm]

theorem instrMemory_of_kind {c : Config} {r : Region} (h : findRegion c Region.instr a = some r)
    (hk : r.kind = .ram ∨ r.kind = .rom ∨ r.kind = .flash) : instrMemory c a = true := by
  rcases hk with hk | hk | hk <;> simp [instrMemory, h, Region.isMemory, hk]

/-- Word `i` of a block is the one at its base plus `4 * i` (R89). -/
theorem blockWords_getElem (m : List Host.Cell) (a : Word) {i : Nat} (hi : i < 8) :
    (blockWords m a)[i] = readMem m ((a &&& 0xffffffe0) + BitVec.ofNat 32 (4 * i)) .word := by
  interval_cases i <;> simp [blockWords]

/-- The base of the block of an aligned address, plus its offset. -/
theorem blockBase_add_offset (ha : a.toNat % 4 = 0) :
    (a &&& 0xffffffe0) + BitVec.ofNat 32 (4 * (blockOffset a).toNat) = a := by
  have hbase : a &&& 0xffffffe0#32 = a >>> 5 <<< 5 := by
    ext i hi
    interval_cases i <;> simp
  have hoff : (blockOffset a).toNat = a.toNat / 4 % 8 := by
    simp [blockOffset, BitVec.extractLsb'_toNat, Nat.shiftRight_eq_div_pow]
  apply BitVec.eq_of_toNat_eq
  rw [BitVec.ofNat_eq_ofNat, hbase, BitVec.toNat_add, toNat_shiftRight_shiftLeft, BitVec.toNat_ofNat, hoff]
  have := a.isLt
  omega

/-- After a fetch that missed the instruction cache, a fetch of the same address returns the same word, whatever memory then
holds (R89). -/
theorem plainFetch_filled (hc : hasICache s.cfg = true) (ha : a.toNat % 4 = 0) (m : List Host.Cell) :
    (plainFetch { s with icache := filledICache s a, mem := m } a).1 = readMem s.mem a .word := by
  rw [plainFetch_hit (s := { s with icache := filledICache s a, mem := m })
    (l := ⟨iTag s.cfg (phys a), blockWords s.mem a⟩) hc (by simp [filledICache, hc, keyGet_keySet]) rfl]
  simp only [blockWords_getElem, blockBase_add_offset ha]

end

/-! ## The cache and pipeline instructions -/

/-- In supervisor mode `initi` does what `flushi` does (R301). -/
theorem exec_initi_supervisor {s : State} (h : s.status.u = false) (a : Reg) :
    exec (.initi a) s = exec (.flushi a) s :=
  congrArg finish (restricted_supervisor h _)

/-- Invalidating the line of an address changes the instruction cache and the store record (R90). -/
theorem invalidateILine_eq (s : State) (a : Word) : ∃ c st, invalidateILine s a = { s with icache := c, stale := st } ∧
    ∀ j, keyGet c j = if hasICache s.cfg = true ∧ j = iIndex s.cfg (phys a) then none else keyGet s.icache j := by
  unfold invalidateILine
  split
  · next h => exact ⟨_, _, rfl, fun j => by simp [keyGet_keyErase, h]⟩
  · next h => exact ⟨s.icache, s.stale, rfl, fun j => by simp [h]⟩

theorem mem_discardPrefetched_stale (s : State) (e : StaleWord) :
    e ∈ (discardPrefetched s).stale ↔ e ∈ s.stale ∧ e.lineFlushed = false := by
  simp [discardPrefetched]

/-! ## The sequence of R84 -/

section

variable {s : State} {a : Word}

/-- Every record of a word has step (1) of R84 done. -/
def InMemory (s : State) (a : Word) : Prop := ∀ e ∈ s.stale, e.addr = phys a → e.inMemory = true

/-- The list keeps one record of a word, the one just made. -/
theorem inMemory_of_mem_addStale {l : List StaleWord} {addr : Nat} {olds : List Word} {done : Bool} {e : StaleWord}
    (he : e ∈ addStale l addr olds done) (ha : e.addr = addr) : e.inMemory = done := by
  rcases List.mem_cons.mp he with rfl | he
  · rfl
  · exact absurd ha (by simpa using (List.mem_filter.mp he).2)

/-- A core without an instruction cache holds nothing back. -/
theorem stale_eq_nil (hs : staleLegal s = true) (hc : hasICache s.cfg = false) : s.stale = [] := by
  simpa [staleLegal, hc] using hs

/-- A store of a whole word on the bus does step (1) of R84 for it, where the record is legal. -/
theorem noteStore_inMemory (hs : staleLegal s = true) (ha : a.toNat % 4 = 0)
    (hm : (findRegion s.cfg Region.instr a).isSome = true) : InMemory (noteStore s a true) a := by
  intro e he hea
  cases hc : hasICache s.cfg with
  | true =>
    rw [noteStore, if_pos (by simp [hc, hm]), wordAddr_of_aligned ha] at he
    exact inMemory_of_mem_addStale he hea
  | false => simp [noteStore, hc, stale_eq_nil hs hc] at he

/-- `flushi` does step (2) of R84 for a word with step (1) done. -/
theorem invalidateILine_lineFlushed (hs : staleLegal s = true) (h : InMemory s a) {e : StaleWord}
    (he : e ∈ (invalidateILine s a).stale) (hea : e.addr = phys a) : e.lineFlushed = true := by
  cases hc : hasICache s.cfg with
  | true =>
    rw [invalidateILine, if_pos hc] at he
    obtain ⟨d, hd, rfl⟩ := List.mem_map.mp he
    have hda : d.addr = phys a := by rw [← hea]; split <;> rfl
    rw [if_pos ⟨by rw [hda], by simp [memoryHolds, h d hd hda]⟩]
  | false => simp [invalidateILine, hc, stale_eq_nil hs hc] at he

/-- Steps (2) and (3) of R84 after step (1): the next fetch of the word returns what memory holds. -/
theorem fetchOf_flushed (hs : staleLegal s = true) (h : InMemory s a) :
    (fetchOf (discardPrefetched (invalidateILine s a).advance).advance a).1 = readMem s.mem a .word := by
  have hflushed {e} := invalidateILine_lineFlushed hs h (e := e)
  obtain ⟨c, st, he, hc⟩ := invalidateILine_eq s a
  rw [he] at hflushed ⊢
  have hstale : ∀ e ∈ st.filter (fun e => !e.lineFlushed), e.addr ≠ phys a := fun e hm hea => by
    obtain ⟨hst, hf⟩ := List.mem_filter.mp hm
    simp [hflushed hst hea] at hf
  have hmiss : InstrMiss (discardPrefetched { s with icache := c, stale := st }.advance).advance a := fun hi l hl => by
    have hnone := (hc (iIndex s.cfg (phys a))).trans (if_pos ⟨hi, rfl⟩)
    cases hnone.symm.trans hl
  rw [fetchOf_not_stale (by exact hstale), plainFetch_miss hmiss]
  rfl

end

end Sys2Proof.Machine

namespace Sys2Proof.Settled

open Sys2Proof.Machine

/-- Settles O37: both instructions invalidate the line. -/
theorem invalidateInstructionLine : Obligations.InvalidateInstructionLine := by
  intro s a i hi
  have hexec : exec i s = .next (invalidateILine s (s.reg a)).advance := by
    rcases hi with rfl | ⟨rfl, hu⟩
    · rfl
    · exact exec_initi_supervisor hu a
  obtain ⟨c, st, he, hc⟩ := invalidateILine_eq s (s.reg a)
  rw [hexec, he]
  exact ⟨_, rfl, fun _ => rfl, hc, rfl⟩

/-- Settles O38: `sync` goes on, `flushp` filters the record. -/
theorem syncAndFlushp : Obligations.SyncAndFlushp := fun s =>
  ⟨rfl, _, rfl, mem_discardPrefetched_stale s, rfl⟩

/-- Settles O43: the miss, and the hit on the line it fills. -/
theorem fetchReadsMemory : Obligations.FetchReadsMemory := by
  intro s r ha hr hk hstale hmiss
  have hi := instrMemory_of_kind hr hk
  have hfetch := (fetchOf_not_stale hstale).trans (plainFetch_miss hmiss)
  refine ⟨_, _, (fetch_of_aligned ha hi).trans (congrArg Except.ok hfetch), readMem_toNat s.mem s.pc .word, fun hc m => ?_⟩
  have hagain := fetch_of_aligned (s := { s with icache := filledICache s s.pc, mem := m }) ha hi
  rw [fetchOf_not_stale (by exact hstale)] at hagain
  exact ⟨_, hagain.trans (congrArg Except.ok (Prod.ext (plainFetch_filled hc (aligned_iff.mp ha) m) rfl))⟩

/-- Settles O39: the store does step (1) of R84, `flushi` and `flushp` the other two. -/
theorem newInstructionFetched : Obligations.NewInstructionFetched := by
  rintro s t u v a b r imm _ hs rfl ⟨g, hg, hk⟩ hi ht hr hu hv
  obtain ⟨x, hx, rfl⟩ := stwio_isStore.exec_next ht
  obtain ⟨hal, hm⟩ := dataStore_ok hx
  have hlegal : staleLegal x = true := (dataStore_quiet hx).aside.stale hs
  rw [dataStore_bypass hal hm (by simp [bypasses]), busStore_ram hg hk] at hx
  have hin : InMemory x (effAddr s a imm) := by cases hx; exact noteStore_inMemory hs (aligned_iff.mp hal) hi
  have hmem : readMem x.mem (effAddr s a imm) .word = s.reg b := by cases hx; exact readMem_writeMem_word s.mem _ _
  cases hu
  cases hv
  rw [hr]
  exact (fetchOf_flushed (s := x.advance) hlegal hin).trans hmem

end Sys2Proof.Settled
end

section
/-! SUPPORT. The decoder against its two maps, the encoder as its inverse, the reserved opcodes, and the step as fetch, decode
and execute (R100 to R111, R118, R337; D12; U8). -/

namespace Sys2Proof

/-! ## The fields of any word -/

/-- The bits of `OP`. -/
theorem getElem_of_fieldOp {w : Word} {op : BitVec 6} (h : fieldOp w = op) {j : Nat} (hj : j < 6) : w[j] = op[j] := by
  simp [← h, fieldOp, BitVec.getLsbD_eq_getElem (x := w) (i := j) (by omega)]

/-- A word with the `OP` of the R-type is the R-type word of its fields (R103). -/
theorem rWord_fields {w : Word} (h : fieldOp w = 0x3a) :
    rWord (fieldA w) (fieldB w) (fieldC w) (fieldOpx w) (fieldImm5 w) = w := by
  ext i hi
  simp [rWord, fieldA, fieldB, fieldC, fieldOpx, fieldImm5]
  interval_cases i <;> simp [getElem_of_fieldOp h]

/-- A word with the `OP` of `custom` is the `custom` word of its fields (R110). -/
theorem customWord_fields {w : Word} (h : fieldOp w = 0x32) :
    customWord (fieldA w) (fieldB w) (fieldC w) (fieldReadra w) (fieldReadrb w) (fieldWriterc w) (fieldN w) = w := by
  ext i hi
  simp [customWord, fieldA, fieldB, fieldC, fieldReadra, fieldReadrb, fieldWriterc, fieldN]
  interval_cases i <;> simp [getElem_of_fieldOp h]

/-! ## The maps (R106, R107) -/

/-- A search by key in a list whose keys are all different finds exactly the element with that key. -/
theorem find?_key_eq_some {α : Type} {l : List α} {key : α → BitVec 6} (hl : (l.map key).Nodup) {k : BitVec 6} {r : α} :
    l.find? (fun x => key x == k) = some r ↔ r ∈ l ∧ key r = k := by
  have sound {x : α} (hf : l.find? (fun x => key x == k) = some x) : x ∈ l ∧ key x = k :=
    ⟨List.mem_of_find?_eq_some hf, by simpa using List.find?_some hf⟩
  refine ⟨sound, fun ⟨hr, hk⟩ => ?_⟩
  cases hf : l.find? (fun x => key x == k) with
  | none => simpa [hk] using List.find?_eq_none.mp hf r hr
  | some x =>
    obtain ⟨hx, hkx⟩ := sound hf
    rw [List.inj_on_of_nodup_map hl hx hr (hkx.trans hk.symm)]

/-- It finds nothing exactly when the key does not occur. -/
theorem find?_key_eq_none {α : Type} {l : List α} {key : α → BitVec 6} {k : BitVec 6} :
    l.find? (fun x => key x == k) = none ↔ k ∉ l.map key := by
  simp

theorem iTable_nodup : (iTable.map IRow.op).Nodup := by decide

theorem rTable_nodup : (rTable.map RRow.opx).Nodup := by decide

/-- The values of `OP` that the decode procedure treats before the rows of `iTable` (R111). -/
def ownOps : List (BitVec 6) := [0x3a, 0x00, 0x32, 0x06, 0x3b, 0x33]

theorem notMem_ownOps_iff {op : BitVec 6} : op ∉ ownOps ↔
    op ≠ 0x3a ∧ op ≠ 0x00 ∧ op ≠ 0x32 ∧ op ≠ 0x06 ∧ op ≠ 0x3b ∧ op ≠ 0x33 := by
  simp only [ownOps, List.mem_cons, List.not_mem_nil, or_false, not_or, ne_eq]

/-- The reserved values of `OP` are those without an instruction (R109). -/
theorem mem_reservedOps_iff : ∀ op, op ∈ Laws.reservedOps ↔ op ∉ ownOps ∧ op ∉ iTable.map IRow.op := by decide

/-- The reserved values of `OPX6` are those without a row (R109). -/
theorem mem_reservedOpxs_iff : ∀ opx, opx ∈ Laws.reservedOpxs ↔ opx ∉ rTable.map RRow.opx := by decide

/-- No row of `iTable` has an `OP` that the decode procedure treats before. -/
theorem op_notMem_ownOps : ∀ r ∈ iTable, r.op ∉ ownOps := by
  decide

/-- The encoder agrees with every row of R106. -/
theorem encode_iRow {r : IRow} (h : r ∈ iTable) (a b : Reg) (imm : BitVec 16) :
    encode (r.build a b imm) = iWord a b imm r.op := by
  fin_cases h <;> rfl

/-- The encoder agrees with every row of R107: it writes what the row fixes, and the operands in the other fields. -/
theorem encode_rRow {r : RRow} (h : r ∈ rTable) (a b c : Reg) (n : BitVec 5) :
    encode (r.build a b c n) = rWord (r.a.getD a) (r.b.getD b) (r.c.getD c) r.opx (r.imm5.getD n) := by
  fin_cases h <;> rfl

/-- The instruction of a row of R107 does not depend on the fields that the row fixes. -/
theorem build_fixed {r : RRow} (h : r ∈ rTable) (a b c : Reg) (n : BitVec 5) :
    r.build (r.a.getD a) (r.b.getD b) (r.c.getD c) (r.imm5.getD n) = r.build a b c n := by
  fin_cases h <;> rfl

/-- A field agrees with its row when writing what the row fixes into it does not change it. -/
theorem fixedOk_iff {fixed : Option (BitVec 5)} {v : BitVec 5} : fixedOk fixed v = true ↔ fixed.getD v = v := by
  cases fixed with
  | none => simp [fixedOk]
  | some x => simpa [fixedOk] using eq_comm

/-- A field into which the row's value was written agrees with the row. -/
theorem fixedOk_getD (fixed : Option (BitVec 5)) (v : BitVec 5) : fixedOk fixed (fixed.getD v) = true := by
  cases fixed <;> simp [fixedOk]

/-! ## What the decoder answers -/

/-- The I-type half answers the row of the word's `OP`. -/
theorem decodeI_ok {w : Word} {i : Instr} : decodeI w = .ok i ↔
    ∃ r ∈ iTable, r.op = fieldOp w ∧ r.build (fieldA w) (fieldB w) (fieldImm16 w) = i := by
  unfold decodeI
  simp only [← and_assoc, ← find?_key_eq_some iTable_nodup]
  split
  · next hf => simp [hf]
  · next r hf => simp [hf]

/-- It rejects a word without a row, and only as a reserved `OP`. -/
theorem decodeI_error {w : Word} {e : DecodeReject} : decodeI w = .error e ↔
    fieldOp w ∉ iTable.map IRow.op ∧ .reservedOp (fieldOp w) = e := by
  unfold decodeI
  rw [← find?_key_eq_none]
  split
  · next hf => simp [hf]
  · next r hf => simp [hf]

/-- The R-type half answers the row of the word's `OPX6`, where the word has what the row fixes. -/
theorem decodeR_ok {w : Word} {i : Instr} : decodeR w = .ok i ↔
    ∃ r ∈ rTable, r.opx = fieldOpx w ∧ r.fits w = true ∧
      r.build (fieldA w) (fieldB w) (fieldC w) (fieldImm5 w) = i := by
  unfold decodeR
  simp only [← and_assoc, ← find?_key_eq_some rTable_nodup]
  split
  · next hf => simp [hf]
  · next r hf => cases hfits : r.fits w <;> simp [hf, hfits]

/-- It rejects a word without a row as a reserved `OPX6`, and one that differs from its row by its fixed fields. -/
theorem decodeR_error {w : Word} {e : DecodeReject} (h : decodeR w = .error e) :
    fieldOpx w ∉ rTable.map RRow.opx ∧ e = .reservedOpx (fieldOpx w) ∨ e = .fixedField w := by
  unfold decodeR at h
  split at h
  · next hf => cases h; exact .inl ⟨find?_key_eq_none.mp hf, rfl⟩
  · split at h
    · cases h
    · cases h; exact .inr rfl

theorem decodeR_reserved {w : Word} (h : fieldOpx w ∉ rTable.map RRow.opx) :
    decodeR w = .error (.reservedOpx (fieldOpx w)) := by
  unfold decodeR
  rw [find?_key_eq_none.mpr h]

theorem decodeWord_rType {w : Word} (h : fieldOp w = 0x3a) : decodeWord w = decodeR w := if_pos h

theorem decodeWord_iType {w : Word} (h : fieldOp w ∉ ownOps) : decodeWord w = decodeI w := by
  obtain ⟨h1, h2, h3, h4, h5, h6⟩ := notMem_ownOps_iff.mp h
  rw [decodeWord, if_neg h1, if_neg h2, if_neg h3, if_neg h4, if_neg h5, if_neg h6]

/-- The four ways through the decode procedure of R111: the two halves, the five instructions with an `OP` of their own, and a
word that differs from one of these by its fixed fields. -/
theorem decodeWord_ways (w : Word) :
    fieldOp w = 0x3a ∧ decodeWord w = decodeR w ∨ fieldOp w ∉ ownOps ∧ decodeWord w = decodeI w ∨
      (∃ i, encode i = w ∧ decodeWord w = .ok i) ∨ decodeWord w = .error (.fixedField w) := by
  unfold decodeWord
  split
  · exact .inl ⟨‹_›, rfl⟩
  split
  · next h => exact .inr (.inr (.inl ⟨_, by rw [encode, ← h, jWord_fields], rfl⟩))
  split
  · next h => exact .inr (.inr (.inl ⟨.custom .., customWord_fields h, rfl⟩))
  split
  · next h =>
    split
    · next hf => exact .inr (.inr (.inl ⟨.br _, by simpa [encode, hf, h] using iWord_fields w, rfl⟩))
    · exact .inr (.inr (.inr rfl))
  split
  · next h =>
    split
    · next hf => exact .inr (.inr (.inl ⟨_, by rw [encode, ← h, ← hf, iWord_fields], rfl⟩))
    · exact .inr (.inr (.inr rfl))
  split
  · next h =>
    split
    · next hf => exact .inr (.inr (.inl ⟨_, by rw [encode, ← h, ← hf, iWord_fields], rfl⟩))
    · exact .inr (.inr (.inr rfl))
  · next h1 h2 h3 h4 h5 h6 => exact .inr (.inl ⟨notMem_ownOps_iff.mpr ⟨h1, h2, h3, h4, h5, h6⟩, rfl⟩)

/-- Why a word is rejected. -/
theorem decodeWord_error {w : Word} {e : DecodeReject} (h : decodeWord w = .error e) :
    fieldOp w ∈ Laws.reservedOps ∧ e = .reservedOp (fieldOp w) ∨
      (fieldOp w = 0x3a ∧ fieldOpx w ∈ Laws.reservedOpxs) ∧ e = .reservedOpx (fieldOpx w) ∨ e = .fixedField w := by
  rcases decodeWord_ways w with ⟨hop, hw⟩ | ⟨hop, hw⟩ | ⟨i, -, hw⟩ | hw <;> rw [hw] at h
  · rcases decodeR_error h with ⟨hx, rfl⟩ | rfl
    · exact .inr (.inl ⟨⟨hop, (mem_reservedOpxs_iff _).mpr hx⟩, rfl⟩)
    · exact .inr (.inr rfl)
  · obtain ⟨hi, rfl⟩ := decodeI_error.mp h
    exact .inl ⟨(mem_reservedOps_iff _).mpr ⟨hop, hi⟩, rfl⟩
  · cases h
  · cases h
    exact .inr (.inr rfl)

/-! ## Encoding, then decoding -/

/-- The word of a row of R106 decodes to its instruction. -/
theorem decodeWord_encode_iRow : ∀ r ∈ iTable, ∀ a b imm,
    decodeWord (encode (r.build a b imm)) = .ok (r.build a b imm) := by
  intro r hr a b imm
  rw [encode_iRow hr, decodeWord_iType (by rw [fieldOp_iWord]; exact op_notMem_ownOps r hr), decodeI_ok]
  exact ⟨r, hr, by rw [fieldOp_iWord], by rw [fieldA_iWord, fieldB_iWord, fieldImm16_iWord]⟩

/-- The word of a row of R107 decodes to its instruction. -/
theorem decodeWord_encode_rRow : ∀ r ∈ rTable, ∀ a b c n,
    decodeWord (encode (r.build a b c n)) = .ok (r.build a b c n) := by
  intro r hr a b c n
  rw [encode_rRow hr, decodeWord_rType (fieldOp_rWord ..), decodeR_ok]
  refine ⟨r, hr, (fieldOpx_rWord ..).symm, ?_, ?_⟩
  · simp [RRow.fits, fieldA_rWord, fieldB_rWord, fieldC_rWord, fieldImm5_rWord, fixedOk_getD]
  · rw [fieldA_rWord, fieldB_rWord, fieldC_rWord, fieldImm5_rWord, build_fixed hr]

/-- The word of an instruction decodes to it: five have an `OP` of their own, the others stand in one of the two maps. -/
theorem decodeWord_encode (i : Instr) : decodeWord (encode i) = .ok i := by
  have hi := decodeWord_encode_iRow
  have hr := decodeWord_encode_rRow
  simp only [iTable, List.forall_mem_cons] at hi
  simp only [rTable, List.forall_mem_cons, forall_const] at hr
  cases i with
  | call => simp [decodeWord, encode, fieldOp_jWord, fieldImm26_jWord]
  | br | flushd | initd => simp [decodeWord, encode, fieldOp_iWord, fieldA_iWord, fieldB_iWord, fieldImm16_iWord]
  | custom =>
    simp [decodeWord, encode, fieldOp_customWord, fieldA_customWord, fieldB_customWord, fieldC_customWord,
      fieldReadra_customWord, fieldReadrb_customWord, fieldWriterc_customWord, fieldN_customWord]
  | addi | andi | andhi | ori | orhi | xori | xorhi | muli | cmpeqi | cmpnei | cmpgei | cmplti | cmpgeui | cmpltui | beq | bne
  | bge | blt | bgeu | bltu | ldb | ldbu | ldh | ldhu | ldw | ldbio | ldbuio | ldhio | ldhuio | ldwio | stb | sth | stw | stbio
  | sthio | stwio => simp only [hi]
  | add | sub | and | or | xor | nor | mul | mulxss | mulxsu | mulxuu | div | divu | cmpeq | cmpne | cmpge | cmplt | cmpgeu
  | cmpltu | sll | slli | srl | srli | sra | srai | rol | roli | ror | callr | ret | jmp | nextpc | trap | eret | breakpoint
  | bret | rdctl | wrctl | flushi | initi | flushp | sync => simp only [hr]

/-! ## Decoding, then encoding -/

/-- A word that the I-type half decodes is the row's word. -/
theorem encode_of_decodeI {w : Word} {i : Instr} (h : decodeI w = .ok i) : encode i = w := by
  obtain ⟨r, hr, hop, rfl⟩ := decodeI_ok.mp h
  rw [encode_iRow hr, hop, iWord_fields]

/-- A word that the R-type half decodes is the row's word: its fixed fields were checked (D12). -/
theorem encode_of_decodeR {w : Word} {i : Instr} (hw : fieldOp w = 0x3a) (h : decodeR w = .ok i) : encode i = w := by
  obtain ⟨r, hr, hopx, hfits, rfl⟩ := decodeR_ok.mp h
  simp only [RRow.fits, Bool.and_eq_true, fixedOk_iff] at hfits
  obtain ⟨⟨⟨ha, hb⟩, hc⟩, hn⟩ := hfits
  rw [encode_rRow hr, ha, hb, hc, hn, hopx, rWord_fields hw]

end Sys2Proof

namespace Sys2Proof.Machine

/-! ## The instruction of a step -/

/-- Where a step is an instruction, it is that of the state after the events (R337). -/
theorem step_instruction {s t : State} (ht : takeEvents s = .ok t) (hn : nextAction t = .instruction) :
    step s = runInstruction t := by
  simp [step, ht, hn]

/-- The instruction that the fetched word decodes to, executed under the eyes of the debug module (R111). -/
theorem runInstruction_decoded {t u : State} {w : Word} {i : Instr} (hf : fetch t = .ok (w, u))
    (hd : decodeWord w = .ok i) : runInstruction t = observed i u (exec i u) := by
  simp [runInstruction, hf, hd]

/-- A word that is no instruction is refused (U8, log 14). -/
theorem runInstruction_rejected {t u : State} {w : Word} {e : DecodeReject} (hf : fetch t = .ok (w, u))
    (hd : decodeWord w = .error e) : runInstruction t = .refused (.reservedEncoding w) := by
  simp [runInstruction, hf, hd]

end Sys2Proof.Machine

namespace Sys2Proof.Settled

open Sys2Proof.Machine

/-- Settles O1: the bytes of a word decode as the word, and the word of each instruction stands in its map. -/
theorem decodeOfEncode : Obligations.DecodeOfEncode := by
  intro i rest
  rw [encodeBytes, decodeBytes_bytesOfWord, decodeWord_encode]
  rfl

/-- Settles O2: a word has the fields of the row it decodes by, and a word is made of its fields. -/
theorem encodeOfDecode : Obligations.EncodeOfDecode := by
  intro w i h
  rcases decodeWord_ways w with ⟨hop, hw⟩ | ⟨-, hw⟩ | ⟨j, hj, hw⟩ | hw <;> rw [hw] at h
  · exact encode_of_decodeR hop h
  · exact encode_of_decodeI h
  · cases h
    exact hj
  · cases h

/-- Settles O3: the reserved values are those without a row, and each way to be rejected has its own reason. -/
theorem reservedOpcodesRejected : Obligations.ReservedOpcodesRejected := by
  refine fun w => ⟨⟨fun h => ?_, fun h => ?_⟩, fun h => ?_, fun ⟨hop, hx⟩ => ?_⟩
  · rcases decodeWord_error h with ⟨hr, -⟩ | ⟨-, he⟩ | he
    · exact hr
    · cases he
    · cases he
  · obtain ⟨hown, hrow⟩ := (mem_reservedOps_iff _).mp h
    rw [decodeWord_iType hown]
    exact decodeI_error.mpr ⟨hrow, rfl⟩
  · rcases decodeWord_error h with ⟨-, he⟩ | ⟨hr, -⟩ | he
    · cases he
    · exact hr
    · cases he
  · rw [decodeWord_rType hop]
    exact decodeR_reserved ((mem_reservedOpxs_iff _).mp hx)

/-- Settles O4: each word of R118 is the encoding of its row. -/
theorem workedEncodings : Obligations.WorkedEncodings :=
  ⟨decodeWord_encode (.add 7 8 6), decodeWord_encode (.addi 7 6 0xff9c), decodeWord_encode (.call 0x0040000),
    decodeWord_encode (.slli 7 6 3), decodeWord_encode .trap, decodeWord_encode (.breakpoint 0), decodeWord_encode .eret,
    decodeWord_encode .bret, decodeWord_encode .ret, decodeWord_encode (.add 0 0 0), decodeWord_encode (.rdctl 3 0),
    decodeWord_encode (.wrctl 3 3), decodeWord_encode (.br 0xfffc)⟩

/-- Settles O42: what the fetch changes, then what the debug module adds to the executed instruction. -/
theorem stepRunsInstruction : Obligations.StepRunsInstruction := by
  intro s t u w ht hn hf
  rw [step_instruction ht hn]
  refine ⟨(fetch_eq hf).1, fun i hd => ?_, fun e hd => runInstruction_rejected hf hd⟩
  rw [runInstruction_decoded hf hd]
  refine ⟨fun x hx => ?_, fun f hx => by rw [hx]; rfl, fun q hx => by rw [hx]; rfl⟩
  refine ⟨fireTriggers u i x, by rw [hx]; rfl, fireTriggers_eq u i x, ?_⟩
  rintro (hdebug | ⟨he, hdata, htrace⟩)
  · exact fireTriggers_noDebug i x hdebug
  · exact fireTriggers_none i x he hdata htrace

end Sys2Proof.Settled
end

section
/-! SUPPORT. The arithmetic and logical instructions: the bits, sums, products and quotients they write, and the exception of the
ones that a core lacks (R170 to R192, R342; D16). -/

namespace Sys2Proof.Machine

/-! ## Instructions that write one register -/

section

variable {ok : Config → Bool} {op opx : BitVec 6}

/-- A three-register instruction whose meaning is to write `g` of its operands computes what `g` gives. -/
theorem computesR {mk : Reg → Reg → Reg → Instr} {f : Word → Word → Word → Prop} (g : Word → Word → Word)
    (hencode : ∀ a b c, encode (mk a b c) = rWord a b c opx 0)
    (hexec : ∀ s a b c, ok s.cfg = true → exec (mk a b c) s = .next (writeResult s c (g (s.reg a) (s.reg b))))
    (hf : ∀ x y, f x y (g x y)) : ComputesR ok opx mk f := by
  intro s a b c hok
  rw [← hencode, hexec s a b c hok]
  exact ⟨decodeWord_encode _, _, hf _ _, writeResult_writes s c _⟩

/-- The same for an instruction with an immediate. -/
theorem computesI {mk : Reg → Reg → BitVec 16 → Instr} {f : Word → BitVec 16 → Word → Prop} (g : Word → BitVec 16 → Word)
    (hencode : ∀ a b imm, encode (mk a b imm) = iWord a b imm op)
    (hexec : ∀ s a b imm, ok s.cfg = true → exec (mk a b imm) s = .next (writeResult s b (g (s.reg a) imm)))
    (hf : ∀ x imm, f x imm (g x imm)) : ComputesI ok op mk f := by
  intro s a b imm hok
  rw [← hencode, hexec s a b imm hok]
  exact ⟨decodeWord_encode _, _, hf _ _, writeResult_writes s b _⟩

end

/-! ## Instructions that a core may lack -/

/-- The exception entry meets the frame of `TakesException` (R334). -/
theorem exceptionEntry_takesException (s : State) (ret : Word) :
    TakesException (.next (exceptionEntry s ret)) s ret := by
  refine ⟨_, rfl, by simp, by simp, by simp, by simp [exceptionEntry_reg], by simp,
    fun q hq => by simp [exceptionEntry_reg, hq], fun a => by simp, ?_⟩
  unfold exceptionEntry State.setPc State.setReg
  split <;> rfl

section

variable {implemented : Bool} {s t : State}

/-- Where the core implements it, an instruction of the multiply and divide group does what it does. -/
theorem next_ifImplemented (h : implemented = true) :
    (.next (ifImplemented implemented s t) : Host.Outcome State Fault Refusal) = .next t :=
  congrArg Host.Outcome.next (if_pos h)

/-- Where the core lacks it, it raises the unimplemented-instruction exception (R192, R342). -/
theorem ifImplemented_takesException (h : implemented = false) :
    TakesException (.next (ifImplemented implemented s t)) s (s.pc + 4) := by
  rw [h]
  exact exceptionEntry_takesException s (s.pc + 4)

end

/-! ## Immediates -/

/-- The signed immediate has the two's-complement value of IMM16 (R105). -/
theorem immSigned_eq_ofInt (imm : BitVec 16) : immSigned imm = BitVec.ofInt 32 imm.toInt := rfl

/-- The unsigned immediate has IMM16 in bits 15..0 (R105). -/
theorem immUnsigned_getLsbD (imm : BitVec 16) {i : Nat} (h : i < 32) : (immUnsigned imm).getLsbD i = imm.getLsbD i := by
  simp [immUnsigned, h]

/-- The high immediate has IMM16 in bits 31..16, over zeros (R105). -/
theorem immHigh_getLsbD (imm : BitVec 16) {i : Nat} (h : i < 32) :
    (immHigh imm).getLsbD i = (decide (16 ≤ i) && imm.getLsbD (i - 16)) := by
  by_cases hi : 16 ≤ i
  · simp [immHigh, h, hi, Nat.not_lt.mpr hi]
  · simp [immHigh, hi, Nat.not_le.mp hi]

/-! ## Products (R182, R187 to R190) -/

theorem highHalf_toNat (p : BitVec 64) : (highHalf p).toNat = p.toNat / 2 ^ 32 := by
  have hp := p.isLt
  rw [highHalf, BitVec.extractLsb'_toNat, Nat.shiftRight_eq_div_pow]
  omega

theorem highHalf_toInt (p : BitVec 64) : (highHalf p).toInt = p.toInt / 2 ^ 32 := by
  have hp := p.isLt
  rw [BitVec.toInt_eq_toNat_cond, BitVec.toInt_eq_toNat_cond, highHalf_toNat]
  split <;> split <;> omega

/-- A product of two unsigned words fits in 64 bits. -/
theorem toNat_mul_setWidth (x y : Word) : (x.setWidth 64 * y.setWidth 64).toNat = x.toNat * y.toNat := by
  rw [BitVec.toNat_mul, BitVec.toNat_setWidth_of_le (by decide), BitVec.toNat_setWidth_of_le (by decide)]
  have h : x.toNat * y.toNat < 2 ^ 32 * 2 ^ 32 := Nat.mul_lt_mul'' x.isLt y.isLt
  exact Nat.mod_eq_of_lt h

/-- The product of a signed word and a 33-bit signed value, which every signed and every unsigned word is, fits in 64 bits. -/
theorem toInt_signExtend_mul (x : Word) (q : BitVec 64) (hq : |q.toInt| < 2 ^ 32) :
    (x.signExtend 64 * q).toInt = x.toInt * q.toInt := by
  have hx : |x.toInt| ≤ 2 ^ 31 := abs_le.mpr ⟨x.le_toInt, x.toInt_lt.le⟩
  have hprod : |x.toInt * q.toInt| < 2 ^ 63 := calc
    |x.toInt * q.toInt| = |x.toInt| * |q.toInt| := abs_mul _ _
    _ ≤ 2 ^ 31 * |q.toInt| := Int.mul_le_mul_of_nonneg_right hx (abs_nonneg _)
    _ < 2 ^ 63 := by omega
  obtain ⟨hlow, hhigh⟩ := abs_lt.mp hprod
  rw [BitVec.toInt_mul, BitVec.toInt_signExtend_of_le (by decide)]
  exact Int.bmod_eq_of_le_mul_two (by omega) (by omega)

theorem toInt_setWidth_64 (x : Word) : (x.setWidth 64).toInt = x.toNat := by
  have hx := x.isLt
  have h : (x.setWidth 64).toNat = x.toNat := BitVec.toNat_setWidth_of_le (by decide)
  rw [BitVec.toInt_eq_toNat_of_lt (by omega), h]

theorem abs_toInt_signExtend_lt (x : Word) : |(x.signExtend 64).toInt| < 2 ^ 32 := by
  have hlow := x.le_toInt
  have hhigh := x.toInt_lt
  rw [BitVec.toInt_signExtend_of_le (by decide), abs_lt]
  omega

theorem abs_toInt_setWidth_lt (x : Word) : |(x.setWidth 64).toInt| < 2 ^ 32 := by
  have hx := x.isLt
  rw [toInt_setWidth_64, Nat.abs_cast]
  omega

/-! ## Quotients (R183, R184; U6, U7) -/

/-- Where it is defined, the quotient of `div` is truncated toward zero. -/
theorem signedQuotient_toInt {n d : Word} (x : Word) (hd : d.toInt ≠ 0)
    (ho : ¬ (n.toInt = -2 ^ 31 ∧ d.toInt = -1)) : (signedQuotient n d x).toInt = n.toInt.tdiv d.toInt := by
  have hzero : d ≠ 0 := fun h => hd (by rw [h]; rfl)
  have hoverflow : ¬ (n = 0x80000000 ∧ d = 0xffffffff) := fun ⟨hn, hd⟩ => ho (by rw [hn, hd]; decide)
  rw [signedQuotient, if_neg (not_or.mpr ⟨hzero, hoverflow⟩)]
  exact BitVec.toInt_sdiv_of_ne_or_ne n d (not_and_or.mp hoverflow)

/-- Where it is defined, the quotient of `divu` is that of the unsigned values. -/
theorem unsignedQuotient_toNat {n d : Word} (x : Word) (hd : d.toNat ≠ 0) :
    (unsignedQuotient n d x).toNat = n.toNat / d.toNat := by
  have hzero : d ≠ 0 := fun h => hd (by rw [h]; rfl)
  rw [unsignedQuotient, if_neg hzero, BitVec.toNat_udiv]

end Sys2Proof.Machine

namespace Sys2Proof.Settled

open Sys2Proof.Machine

/-- Settles O5: each bit of the bitwise operation. -/
theorem logicalRegister : Obligations.LogicalRegister :=
  ⟨computesR (· &&& ·) (fun _ _ _ => rfl) (fun _ _ _ _ _ => rfl) fun _ _ _ _ => BitVec.getLsbD_and,
    computesR (· ||| ·) (fun _ _ _ => rfl) (fun _ _ _ _ _ => rfl) fun _ _ _ _ => BitVec.getLsbD_or,
    computesR (· ^^^ ·) (fun _ _ _ => rfl) (fun _ _ _ _ _ => rfl) fun _ _ _ _ => BitVec.getLsbD_xor,
    computesR (fun x y => ~~~(x ||| y)) (fun _ _ _ => rfl) (fun _ _ _ _ _ => rfl) fun _ _ i hi => by
      simp [hi]⟩

/-- Settles O6: each bit of the bitwise operation, with the bits of the two placements of IMM16. -/
theorem logicalImmediate : Obligations.LogicalImmediate :=
  ⟨computesI (fun x n => x &&& immUnsigned n) (fun _ _ _ => rfl) (fun _ _ _ _ _ => rfl) fun _ n _ hi => by
      rw [BitVec.getLsbD_and, immUnsigned_getLsbD n hi],
    computesI (fun x n => x ||| immUnsigned n) (fun _ _ _ => rfl) (fun _ _ _ _ _ => rfl) fun _ n _ hi => by
      rw [BitVec.getLsbD_or, immUnsigned_getLsbD n hi],
    computesI (fun x n => x ^^^ immUnsigned n) (fun _ _ _ => rfl) (fun _ _ _ _ _ => rfl) fun _ n _ hi => by
      rw [BitVec.getLsbD_xor, immUnsigned_getLsbD n hi],
    computesI (fun x n => x &&& immHigh n) (fun _ _ _ => rfl) (fun _ _ _ _ _ => rfl) fun _ n _ hi => by
      rw [BitVec.getLsbD_and, immHigh_getLsbD n hi],
    computesI (fun x n => x ||| immHigh n) (fun _ _ _ => rfl) (fun _ _ _ _ _ => rfl) fun _ n _ hi => by
      rw [BitVec.getLsbD_or, immHigh_getLsbD n hi],
    computesI (fun x n => x ^^^ immHigh n) (fun _ _ _ => rfl) (fun _ _ _ _ _ => rfl) fun _ n _ hi => by
      rw [BitVec.getLsbD_xor, immHigh_getLsbD n hi]⟩

/-- Settles O7: sums and differences of words are those of the integers modulo 2^32. -/
theorem addAndSubtract : Obligations.AddAndSubtract := by
  refine ⟨computesR (· + ·) (fun _ _ _ => rfl) (fun _ _ _ _ _ => rfl) BitVec.toNat_add,
    computesR (· - ·) (fun _ _ _ => rfl) (fun _ _ _ _ _ => rfl) fun x y => ?_,
    computesI (fun x n => x + immSigned n) (fun _ _ _ => rfl) (fun _ _ _ _ _ => rfl) fun x n => ?_⟩
  · rw [Int.sub_eq_add_neg, BitVec.ofInt_add, BitVec.ofInt_neg, BitVec.ofInt_toInt, BitVec.ofInt_toInt, BitVec.sub_eq_add_neg]
  · rw [BitVec.ofInt_add, BitVec.ofInt_toInt, immSigned_eq_ofInt]

/-- Settles O8: products of words are those of the integers modulo 2^32. -/
theorem multiplyLow : Obligations.MultiplyLow := by
  refine ⟨computesR (· * ·) (fun _ _ _ => rfl) (fun _ _ _ _ => next_ifImplemented) BitVec.toNat_mul,
    computesI (fun x n => x * immSigned n) (fun _ _ _ => rfl) (fun _ _ _ _ => next_ifImplemented) fun x n => ?_⟩
  rw [BitVec.ofInt_mul, BitVec.ofInt_toInt, immSigned_eq_ofInt]

/-- Settles O9: the 64-bit product is exact, and its high half is its floor over 2^32. -/
theorem multiplyHigh : Obligations.MultiplyHigh := by
  refine ⟨computesR (fun x y => highHalf (x.setWidth 64 * y.setWidth 64)) (fun _ _ _ => rfl)
      (fun _ _ _ _ => next_ifImplemented) fun x y => ?unsigned,
    computesR (fun x y => highHalf (x.signExtend 64 * y.signExtend 64)) (fun _ _ _ => rfl)
      (fun _ _ _ _ => next_ifImplemented) fun x y => ?signed,
    computesR (fun x y => highHalf (x.signExtend 64 * y.setWidth 64)) (fun _ _ _ => rfl)
      (fun _ _ _ _ => next_ifImplemented) fun x y => ?mixed⟩
  case unsigned => rw [highHalf_toNat, toNat_mul_setWidth]
  case signed =>
    rw [highHalf_toInt, toInt_signExtend_mul x _ (abs_toInt_signExtend_lt y), BitVec.toInt_signExtend_of_le (by decide)]
  case mixed => rw [highHalf_toInt, toInt_signExtend_mul x _ (abs_toInt_setWidth_lt y), toInt_setWidth_64]

/-- Settles O10: each division draws its free value and writes one register. -/
theorem divide : Obligations.Divide := by
  intro s a b c h
  refine ⟨⟨_, signedQuotient_toInt s.freeNow, s.drawn 1, _, rfl, ?_⟩,
    ⟨_, unsignedQuotient_toNat s.freeNow, s.drawn 1, _, rfl, ?_⟩⟩
  · rw [show exec (.div a b c) s = _ from next_ifImplemented h]
    exact writeResult_writes (s.drawn 1) c _
  · rw [show exec (.divu a b c) s = _ from next_ifImplemented h]
    exact writeResult_writes (s.drawn 1) c _

/-- Settles O11: each of the seven is guarded by its configuration bit. -/
theorem unimplementedInstruction : Obligations.UnimplementedInstruction := fun _ _ _ _ _ =>
  ⟨fun h => ⟨ifImplemented_takesException h, ifImplemented_takesException h⟩,
    fun h => ⟨ifImplemented_takesException h, ifImplemented_takesException h, ifImplemented_takesException h⟩,
    fun h => ⟨ifImplemented_takesException h, ifImplemented_takesException h⟩⟩

end Sys2Proof.Settled
end

section
/-! SUPPORT. The comparison instructions: the relation each of them evaluates, as a relation of the operands' values, and the 1 or
0 that it writes (R210 to R222). -/

namespace Sys2Proof.Machine

/-! ## The word a comparison writes (R28) -/

theorem boolWord_of_iff {b : Bool} {p : Prop} [Decidable p] (h : b = true ↔ p) : boolWord b = if p then 1 else 0 :=
  if_congr h rfl rfl

theorem boolWord_of_iff_not {b : Bool} {p : Prop} [Decidable p] (h : b = true ↔ ¬ p) : boolWord b = if p then 0 else 1 := by
  rw [boolWord_of_iff h, ite_not]

/-! ## Operands with an immediate (R105) -/

theorem immSigned_toInt (imm : BitVec 16) : (immSigned imm).toInt = imm.toInt :=
  BitVec.toInt_signExtend_of_le (by decide)

theorem immUnsigned_toNat (imm : BitVec 16) : (immUnsigned imm).toNat = imm.toNat :=
  BitVec.toNat_setWidth_of_le (by decide)

/-- A word equals the sign-extended immediate where the signed values agree (R217, R218). -/
theorem eq_immSigned_iff {x : Word} {imm : BitVec 16} : x = immSigned imm ↔ x.toInt = imm.toInt := by
  rw [← BitVec.toInt_inj, immSigned_toInt]

/-! ## Instructions that write the truth of a relation -/

/-- A three-register instruction whose meaning is to write the truth of `r` computes what `boolWord` makes of it. -/
theorem comparesR (r : Rel) {opx : BitVec 6} {mk : Reg → Reg → Reg → Instr} {result : Word → Word → Word}
    (hencode : ∀ a b c, encode (mk a b c) = rWord a b c opx 0)
    (hexec : ∀ s a b c, exec (mk a b c) s = .next (writeResult s c (boolWord (r.holds (s.reg a) (s.reg b)))))
    (hresult : ∀ x y, boolWord (r.holds x y) = result x y) : ComputesR anyCore opx mk (fun x y v => v = result x y) :=
  computesR (fun x y => boolWord (r.holds x y)) hencode (fun s a b c _ => hexec s a b c) hresult

/-- The same for an instruction with an immediate, which `extension` makes a word. -/
theorem comparesI (r : Rel) (extension : BitVec 16 → Word) {op : BitVec 6} {mk : Reg → Reg → BitVec 16 → Instr}
    {result : Word → BitVec 16 → Word} (hencode : ∀ a b imm, encode (mk a b imm) = iWord a b imm op)
    (hexec : ∀ s a b imm, exec (mk a b imm) s = .next (writeResult s b (boolWord (r.holds (s.reg a) (extension imm)))))
    (hresult : ∀ x imm, boolWord (r.holds x (extension imm)) = result x imm) :
    ComputesI anyCore op mk (fun x imm v => v = result x imm) :=
  computesI (fun x imm => boolWord (r.holds x (extension imm))) hencode (fun s a b imm _ => hexec s a b imm) hresult

end Sys2Proof.Machine

namespace Sys2Proof.Settled

open Sys2Proof.Machine

/-- Settles O12: each instruction writes the truth of its relation, which is that of the operands' values. -/
theorem compareRegister : Obligations.CompareRegister :=
  ⟨comparesR .eq (fun _ _ _ => rfl) (fun _ _ _ _ => rfl) fun _ _ => boolWord_of_iff Rel.holds_eq,
    comparesR .ne (fun _ _ _ => rfl) (fun _ _ _ _ => rfl) fun _ _ => boolWord_of_iff_not Rel.holds_ne,
    comparesR .ge (fun _ _ _ => rfl) (fun _ _ _ _ => rfl) fun _ _ => boolWord_of_iff Rel.holds_ge,
    comparesR .geu (fun _ _ _ => rfl) (fun _ _ _ _ => rfl) fun _ _ => boolWord_of_iff Rel.holds_geu,
    comparesR .lt (fun _ _ _ => rfl) (fun _ _ _ _ => rfl) fun _ _ => boolWord_of_iff Rel.holds_lt,
    comparesR .ltu (fun _ _ _ => rfl) (fun _ _ _ _ => rfl) fun _ _ => boolWord_of_iff Rel.holds_ltu⟩

/-- Settles O13: the extension that each instruction applies keeps the value of IMM16, signed or unsigned. -/
theorem compareImmediate : Obligations.CompareImmediate := by
  refine ⟨comparesI .eq immSigned (fun _ _ _ => rfl) (fun _ _ _ _ => rfl) fun _ _ => boolWord_of_iff ?eq,
    comparesI .ne immSigned (fun _ _ _ => rfl) (fun _ _ _ _ => rfl) fun _ _ => boolWord_of_iff_not ?ne,
    comparesI .ge immSigned (fun _ _ _ => rfl) (fun _ _ _ _ => rfl) fun _ _ => boolWord_of_iff ?ge,
    comparesI .geu immUnsigned (fun _ _ _ => rfl) (fun _ _ _ _ => rfl) fun _ _ => boolWord_of_iff ?geu,
    comparesI .lt immSigned (fun _ _ _ => rfl) (fun _ _ _ _ => rfl) fun _ _ => boolWord_of_iff ?lt,
    comparesI .ltu immUnsigned (fun _ _ _ => rfl) (fun _ _ _ _ => rfl) fun _ _ => boolWord_of_iff ?ltu⟩
  case eq => rw [Rel.holds_eq, eq_immSigned_iff]
  case ne => rw [Rel.holds_ne, Ne, eq_immSigned_iff]
  case ge => rw [Rel.holds_ge, immSigned_toInt]
  case geu => rw [Rel.holds_geu, immUnsigned_toNat]
  case lt => rw [Rel.holds_lt, immSigned_toInt]
  case ltu => rw [Rel.holds_ltu, immUnsigned_toNat]

end Sys2Proof.Settled
end

section
/-! SUPPORT. The shift and rotate instructions: which bit of the operand each bit of the result is (R241 to R249). -/

namespace Sys2Proof.Machine

/-! ## Instructions that shift by IMM5 -/

/-- A shift by a constant whose meaning is to write `g` of its operand and count computes what `g` gives. -/
theorem computesShift {opx : BitVec 6} {mk : Reg → Reg → BitVec 5 → Instr} {f : Word → Nat → Word → Prop}
    (g : Word → Nat → Word) (hencode : ∀ a c n, encode (mk a c n) = rWord a 0 c opx n)
    (hexec : ∀ s a c n, exec (mk a c n) s = .next (writeResult s c (g (s.reg a) n.toNat)))
    (hf : ∀ x n, n < 32 → f x n (g x n)) : ComputesShift opx mk f := by
  intro s a c n
  rw [← hencode, hexec]
  exact ⟨decodeWord_encode _, _, hf _ _ n.isLt, writeResult_writes s c _⟩

theorem shiftCount_lt (y : Word) : shiftCount y < 32 := Nat.mod_lt _ (by decide)

/-! ## Bits of a shifted word -/

section

variable (x : Word) {n i : Nat}

/-- Zeros come in from the right (R244, R245). -/
theorem shiftLeft_bit (n : Nat) (hi : i < 32) : (x <<< n).getLsbD i = (decide (n ≤ i) && x.getLsbD (i - n)) := by
  rw [BitVec.getLsbD_shiftLeft, decide_eq_true hi, Bool.true_and, ← decide_not, decide_eq_decide.mpr Nat.not_lt]

/-- Zeros come in from the left, where `x` has no bits (R246, R247). -/
theorem ushiftRight_bit (n i : Nat) : (x >>> n).getLsbD i = x.getLsbD (i + n) := by
  rw [BitVec.getLsbD_ushiftRight, Nat.add_comm]

/-- Copies of the sign bit come in from the left (R248, R249). -/
theorem sshiftRight_bit (n : Nat) (hi : i < 32) : (x.sshiftRight n).getLsbD i = x.getLsbD (min (i + n) 31) := by
  rw [BitVec.getLsbD_sshiftRight, decide_eq_false (by omega), Bool.not_false, Bool.true_and]
  split
  case isTrue h => rw [min_eq_left (by omega), Nat.add_comm]
  case isFalse h => rw [min_eq_right (by omega), BitVec.msb_eq_getLsbD_last]

/-- The bits that leave on the left come in from the right (R241, R242). -/
theorem rotateLeft_bit (hn : n < 32) (hi : i < 32) : (x.rotateLeft n).getLsbD i = x.getLsbD ((i + 32 - n) % 32) := by
  rw [BitVec.getLsbD_rotateLeft_of_le hn, Bool.cond_decide, decide_eq_true hi, Bool.true_and]
  split
  case isTrue h => rw [Nat.mod_eq_of_lt (by omega), show i + 32 - n = 32 - n + i by omega]
  case isFalse h => rw [show i + 32 - n = i - n + 32 by omega, Nat.add_mod_right, Nat.mod_eq_of_lt (by omega)]

/-- The bits that leave on the right come in from the left (R243). -/
theorem rotateRight_bit (hn : n < 32) (hi : i < 32) : (x.rotateRight n).getLsbD i = x.getLsbD ((i + n) % 32) := by
  rw [BitVec.getLsbD_rotateRight_of_lt hn, Bool.cond_decide, decide_eq_true hi, Bool.true_and]
  split
  case isTrue h => rw [Nat.mod_eq_of_lt (by omega), Nat.add_comm]
  case isFalse h => rw [Nat.mod_eq_sub_mod (by omega), Nat.mod_eq_of_lt (by omega), show i + n - 32 = i - (32 - n) by omega]

end

end Sys2Proof.Machine

namespace Sys2Proof.Settled

open Sys2Proof.Machine

/-- Settles O14: each instruction moves the bits by the count of `x[B]`, which is below 32. -/
theorem shiftByRegister : Obligations.ShiftByRegister :=
  ⟨computesR (fun x y => x <<< shiftCount y) (fun _ _ _ => rfl) (fun _ _ _ _ _ => rfl) fun x _ _ => shiftLeft_bit x _,
    computesR (fun x y => x >>> shiftCount y) (fun _ _ _ => rfl) (fun _ _ _ _ _ => rfl) fun x _ i _ =>
      ushiftRight_bit x _ i,
    computesR (fun x y => x.sshiftRight (shiftCount y)) (fun _ _ _ => rfl) (fun _ _ _ _ _ => rfl) fun x _ _ =>
      sshiftRight_bit x _,
    computesR (fun x y => x.rotateLeft (shiftCount y)) (fun _ _ _ => rfl) (fun _ _ _ _ _ => rfl) fun x y _ =>
      rotateLeft_bit x (shiftCount_lt y),
    computesR (fun x y => x.rotateRight (shiftCount y)) (fun _ _ _ => rfl) (fun _ _ _ _ _ => rfl) fun x y _ =>
      rotateRight_bit x (shiftCount_lt y)⟩

/-- Settles O15: the same bits, moved by IMM5. -/
theorem shiftByConstant : Obligations.ShiftByConstant :=
  ⟨computesShift (· <<< ·) (fun _ _ _ => rfl) (fun _ _ _ _ => rfl) fun x n _ _ => shiftLeft_bit x n,
    computesShift (· >>> ·) (fun _ _ _ => rfl) (fun _ _ _ _ => rfl) fun x n _ i _ => ushiftRight_bit x n i,
    computesShift BitVec.sshiftRight (fun _ _ _ => rfl) (fun _ _ _ _ => rfl) fun x n _ _ => sshiftRight_bit x n,
    computesShift BitVec.rotateLeft (fun _ _ _ => rfl) (fun _ _ _ _ => rfl) fun x _ hn _ => rotateLeft_bit x hn⟩

end Sys2Proof.Settled
end

section
/-! SUPPORT. The branches, calls and jumps that reach their target: which targets are legal, and the frame of a transfer and of a
call (R27, R260 to R271; D26). -/

namespace Sys2Proof.Machine

/-! ## Legal targets (R27) -/

/-- A word is a multiple of 4 where its two low bits are zero. -/
theorem aligned_word_iff {a : Word} : aligned .word a = true ↔ a.extractLsb' 0 2 = 0#2 := by
  rw [aligned_iff, ← BitVec.toNat_inj]
  rfl

/-- A multiple of 4 and a legal displacement make a legal target. -/
theorem aligned_add {a d : Word} (ha : aligned .word a = true) (hd : aligned .word d = true) :
    aligned .word (a + d) = true := by
  simp only [aligned_iff, Width.bytes, BitVec.toNat_add] at ha hd ⊢
  omega

/-- A legal branch offset keeps its two low bits in the sign extension. -/
theorem aligned_immSigned {imm : BitVec 16} (h : branchOffsetOk imm = true) : aligned .word (immSigned imm) = true := by
  have hlow : (immSigned imm).extractLsb' 0 2 = imm.extractLsb' 0 2 := by
    ext i hi
    interval_cases i <;> simp [immSigned, BitVec.getElem_signExtend]
  rw [aligned_word_iff, hlow]
  simpa [branchOffsetOk] using h

/-- The target of a branch with a legal offset is legal where `pc` is. -/
theorem aligned_branchTarget {s : State} {imm : BitVec 16} (himm : branchOffsetOk imm = true)
    (hpc : aligned .word s.pc = true) : aligned .word (branchTarget s imm) = true :=
  aligned_add (aligned_add_four hpc) (aligned_immSigned himm)

/-- The target of `call` is `pc[31:28] : IMM26 : 0b00` (R260). -/
theorem callTarget_fields (s : State) (imm26 : BitVec 26) :
    (callTarget s imm26).extractLsb' 28 4 = s.pc.extractLsb' 28 4 ∧ (callTarget s imm26).extractLsb' 2 26 = imm26 ∧
      (callTarget s imm26).extractLsb' 0 2 = 0 := by
  unfold callTarget
  refine ⟨?segment, ?offset, ?low⟩
  all_goals
    ext i hi
    interval_cases i <;> simp

/-- Every target of `call` is legal, whatever `pc` is. -/
theorem aligned_callTarget (s : State) (imm26 : BitVec 26) : aligned .word (callTarget s imm26) = true := by
  obtain ⟨-, -, hlow⟩ := callTarget_fields s imm26
  exact aligned_word_iff.mpr hlow

/-! ## Transfers and calls that reach their target -/

/-- A transfer to a legal target changes `pc` and nothing else. -/
theorem jumpTo_goesTo {s : State} {a : Word} (h : aligned .word a = true) : GoesTo (finish (jumpTo s a)) s a :=
  finish_next.mpr (jumpTo_ok.mpr ⟨h, rfl⟩)

/-- A branch with a legal offset, from a legal `pc`, reaches `pc + 4` plus the signed offset (R264). -/
theorem jumpTo_branchTarget_goesTo {s : State} {imm : BitVec 16} (himm : branchOffsetOk imm = true)
    (hpc : aligned .word s.pc = true) :
    GoesTo (finish (jumpTo s (branchTarget s imm))) s (s.pc + 4 + BitVec.ofInt 32 imm.toInt) := by
  rw [← immSigned_eq_ofInt]
  exact jumpTo_goesTo (aligned_branchTarget himm hpc)

/-- A conditional branch whose relation is `cond` goes to its target where `cond` holds, and goes on where it does not. -/
theorem branchesIf {op : BitVec 6} {r : Rel} {cond : Word → Word → Prop} {mk : Reg → Reg → BitVec 16 → Instr}
    (hencode : ∀ a b imm, encode (mk a b imm) = iWord a b imm op)
    (hexec : ∀ a b imm s, exec (mk a b imm) s = finish (branch s r a b imm))
    (hr : ∀ {x y : Word}, r.holds x y = true ↔ cond x y) : BranchesIf op mk cond := by
  intro s a b imm
  rw [← hencode, hexec, branch]
  refine ⟨decodeWord_encode _, fun himm hpc hcond => ?taken, fun hcond => ?untaken⟩
  case taken =>
    rw [if_pos (hr.mpr hcond)]
    exact jumpTo_branchTarget_goesTo himm hpc
  case untaken =>
    rw [if_neg (mt hr.mp hcond)]
    rfl

/-- A call of a legal target links `ra`, goes there and changes nothing else (R260, R261). -/
theorem callTo_links {s : State} {a : Word} (h : aligned .word a = true) :
    ∃ t, finish (callTo s a) = .next t ∧ t.reg 31 = s.pc + 4 ∧ t.pc = a ∧ (∀ q, q ≠ 31#5 → t.reg q = s.reg q) ∧
      (∀ x, readByte t.mem x = readByte s.mem x) ∧ OnlyRegs s t := by
  have hret : ((s.setReg 31#5 (s.pc + 4)).setPc a).reg 31 = s.pc + 4 := setReg_reg_same s 31#5 _ (by decide)
  refine ⟨_, jumpTo_goesTo h, hret, rfl, fun q => setReg_reg_other s 31#5 q _, fun x => ?_, ?_⟩
  · exact congrArg (readByte · x) (setReg_mem s 31#5 (s.pc + 4))
  · exact congrArg (State.setPc · a) (setReg_eq s 31#5 _)

end Sys2Proof.Machine

namespace Sys2Proof.Settled

open Sys2Proof.Machine

/-- Settles O23: each conditional branch by its relation; `br` is always taken. -/
theorem branches : Obligations.Branches :=
  ⟨branchesIf (fun _ _ _ => rfl) (fun _ _ _ _ => rfl) Rel.holds_eq,
    branchesIf (fun _ _ _ => rfl) (fun _ _ _ _ => rfl) Rel.holds_ne,
    branchesIf (fun _ _ _ => rfl) (fun _ _ _ _ => rfl) Rel.holds_ge,
    branchesIf (fun _ _ _ => rfl) (fun _ _ _ _ => rfl) Rel.holds_geu,
    branchesIf (fun _ _ _ => rfl) (fun _ _ _ _ => rfl) Rel.holds_lt,
    branchesIf (fun _ _ _ => rfl) (fun _ _ _ _ => rfl) Rel.holds_ltu,
    fun _ imm himm hpc => ⟨decodeWord_encode (.br imm), jumpTo_branchTarget_goesTo himm hpc⟩⟩

/-- Settles O24: `call` and `callr` are one linked transfer; the target of `call` is always legal. -/
theorem callsAndNextpc : Obligations.CallsAndNextpc := by
  intro s imm26 a c
  refine ⟨?call, callTo_links, writeResult_writes s c _⟩
  obtain ⟨t, hexec, hret, hpc, hframe⟩ := callTo_links (s := s) (aligned_callTarget s imm26)
  have hfields := callTarget_fields s imm26
  rw [← hpc] at hfields
  obtain ⟨hsegment, hoffset, hlow⟩ := hfields
  exact ⟨t, hexec, hret, hsegment, hoffset, hlow, hframe⟩

/-- Settles O25: both are plain transfers to the value of a register. -/
theorem jumpAndReturn : Obligations.JumpAndReturn := by
  intro s a
  refine ⟨jumpTo_goesTo, fun hne ha => ?jmp⟩
  rw [exec_jmp hne]
  exact jumpTo_goesTo ha

end Sys2Proof.Settled
end

section
/-! SUPPORT. The entries into the two handlers and the returns from them: the frame of a break entry, a restricted instruction in
user mode, the state that `eret` and `bret` reach, and the round trip from `trap` or `break` (R290 to R294, R340, R346, R352). -/

namespace Sys2Proof.Machine

/-! ## Entries (R334, R340, R350) -/

/-- The break entry meets the frame of `TakesBreak` (R350). -/
theorem breakEntry_takesBreak (s : State) (ret : Word) : TakesBreak (.next (breakEntry s ret)) s ret := by
  refine ⟨_, rfl, by simp, by simp, by simp, by simp [breakEntry_reg], by simp,
    fun q hq => by simp [breakEntry_reg, hq], fun a => by simp, ?_⟩
  unfold breakEntry State.setPc State.setReg
  split <;> rfl

/-- In user mode a restricted instruction takes the exception, whatever it does in supervisor mode (R340). -/
theorem restricted_takesException {s : State} (hu : s.status.u = true) (hm : s.cfg.hasUserMode = true)
    (r : Except Stop State) : TakesException (finish (restricted s r)) s (s.pc + 4) := by
  have user : userMode s = true := by simp [userMode, hu, hm]
  rw [restricted, if_pos user]
  exact exceptionEntry_takesException s (s.pc + 4)

/-! ## Returns (R347, R352) -/

/-- Where the user bits are legal, the status is one that a return restores in full (R30). -/
theorem restoredStatus_status {s : State} (h : userBitsLegal s = true) : restoredStatus s.cfg s.status = s.status := by
  have hu : s.status.u = true → s.cfg.hasUserMode = true := fun hu => by simpa [userBitsLegal, hu] using h
  have hand : (s.status.u && s.cfg.hasUserMode) = s.status.u := by simpa using hu
  rw [restoredStatus, hand]

section

variable {s : State} (hu : s.status.u = false)
include hu

/-- A restricted transfer to a legal target, in supervisor mode. -/
theorem finish_restricted_aligned {t : State} {a : Word} (ha : aligned .word a = true) :
    finish (restricted s (jumpTo t a)) = .next (t.setPc a) := by
  rw [restricted_supervisor hu]
  exact jumpTo_goesTo ha

/-- The state after `eret` in supervisor mode (R291, R347). -/
theorem exec_eret_supervisor (ha : aligned .word (s.reg 29) = true) :
    exec .eret s = .next ({ s with status := restoredStatus s.cfg s.estatus }.setPc (s.reg 29)) :=
  finish_restricted_aligned hu ha

/-- The state after `bret` in supervisor mode (R293, R352). -/
theorem exec_bret_supervisor (ha : aligned .word (s.reg 30) = true) :
    exec .bret s = .next ({ s with status := restoredStatus s.cfg s.bstatus }.setPc (s.reg 30)) :=
  finish_restricted_aligned hu ha

end

/-! ## An entry, then the return -/

/-- Straight after an exception entry `eret` takes the saved status back and goes to the return address (R334, R347). -/
theorem exec_eret_exceptionEntry {s : State} {ret : Word} (ha : aligned .word ret = true) :
    exec .eret (exceptionEntry s ret) =
      .next ({ exceptionEntry s ret with status := restoredStatus s.cfg s.status }.setPc ret) := by
  have hea : (exceptionEntry s ret).reg 29 = ret := by simp [exceptionEntry_reg]
  have hsaved : restoredStatus (exceptionEntry s ret).cfg (exceptionEntry s ret).estatus = restoredStatus s.cfg s.status := by
    rw [exceptionEntry_cfg, exceptionEntry_estatus]
  rw [exec_eret_supervisor (by simp) (by rwa [hea]), hea, hsaved]

/-- Straight after a break entry `bret` takes the saved status back and goes to the return address (R350, R352). -/
theorem exec_bret_breakEntry {s : State} {ret : Word} (ha : aligned .word ret = true) :
    exec .bret (breakEntry s ret) =
      .next ({ breakEntry s ret with status := restoredStatus s.cfg s.status }.setPc ret) := by
  have hba : (breakEntry s ret).reg 30 = ret := by simp [breakEntry_reg]
  have hsaved : restoredStatus (breakEntry s ret).cfg (breakEntry s ret).bstatus = restoredStatus s.cfg s.status := by
    rw [breakEntry_cfg, breakEntry_bstatus]
  rw [exec_bret_supervisor (by simp) (by rwa [hba]), hba, hsaved]

end Sys2Proof.Machine

namespace Sys2Proof.Settled

open Sys2Proof.Machine

/-- Settles O27: both instructions are their entry and nothing more. -/
theorem trapAndBreak : Obligations.TrapAndBreak := fun s _ =>
  ⟨exceptionEntry_takesException s (s.pc + 4), breakEntry_takesBreak s (s.pc + 4)⟩

/-- Settles O28: in supervisor mode both returns are a transfer after the status is restored. -/
theorem exceptionAndBreakReturn : Obligations.ExceptionAndBreakReturn := fun _ hu =>
  ⟨fun ha => ⟨_, exec_eret_supervisor hu ha, rfl, rfl, rfl, rfl⟩,
    fun ha => ⟨_, exec_bret_supervisor hu ha, rfl, rfl, rfl, rfl⟩⟩

/-- Settles O29: the entry saves the status and an aligned return address, so the return is not refused and undoes the entry in
all but the register of the return address. -/
theorem trapThenReturn : Obligations.TrapThenReturn := by
  intro s t n hlegal hpc
  have hret := aligned_add_four hpc
  have hstatus := restoredStatus_status hlegal
  refine ⟨?trap, ?breakpoint⟩
  case trap =>
    rintro ⟨⟩
    exact ⟨_, exec_eret_exceptionEntry hret, rfl, hstatus, fun q hq => (exceptionEntry_reg s _ q).trans (if_neg hq),
      exceptionEntry_mem s (s.pc + 4), exceptionEntry_bstatus s (s.pc + 4), exceptionEntry_ienable s (s.pc + 4)⟩
  case breakpoint =>
    rintro ⟨⟩
    exact ⟨_, exec_bret_breakEntry hret, rfl, hstatus, fun q hq => (breakEntry_reg s _ q).trans (if_neg hq),
      breakEntry_mem s (s.pc + 4), breakEntry_estatus s (s.pc + 4), breakEntry_ienable s (s.pc + 4)⟩

/-- Settles O30: each of the six is `restricted`. -/
theorem accessViolation : Obligations.AccessViolation := by
  intro s a c n imm i hu hm hi
  simp only [List.mem_cons, List.not_mem_nil, or_false] at hi
  rcases hi with rfl | rfl | rfl | rfl | rfl | rfl
  all_goals exact restricted_takesException hu hm _

end Sys2Proof.Settled
end

section
/-! SUPPORT. The interrupt condition, the configurations that are refused, and the choice that a step makes at an instruction
boundary (R336, R337, R344, R351, R366, R367, R562; D1, D14). -/

namespace Sys2Proof.Machine

/-! ## The interrupt condition (R34, R336) -/

/-- A word is nonzero exactly where one of its 32 bits is 1. -/
theorem word_ne_zero_iff {w : Word} : w ≠ 0 ↔ ∃ n, n < 32 ∧ w.getLsbD n = true := by
  constructor
  · intro hw
    by_contra hbits
    push Not at hbits
    exact hw (BitVec.eq_of_getLsbD_eq fun n hn => by simpa using hbits n hn)
  · rintro ⟨n, -, hbit⟩ rfl
    simp at hbit

/-- An input is pending exactly where it is asserted and enabled (R34). -/
theorem ipending_getLsbD {s : State} {n : Nat} :
    (ipending s).getLsbD n = true ↔ (irq s).getLsbD n = true ∧ s.ienable.getLsbD n = true := by
  rw [ipending, BitVec.getLsbD_and, Bool.and_eq_true]

/-! ## Configurations that are refused (R562; D1) -/

/-- The instruction master reads memory exactly where it finds a region of one of the three kinds (R38). -/
theorem instrMemory_iff {c : Config} {a : Word} : instrMemory c a = true ↔
    ∃ r, findRegion c Region.instr a = some r ∧ (r.kind = .ram ∨ r.kind = .rom ∨ r.kind = .flash) := by
  refine ⟨fun h => ?_, fun ⟨_, hr, hk⟩ => instrMemory_of_kind hr hk⟩
  unfold instrMemory at h
  split at h
  · next r hr =>
    refine ⟨r, hr, ?_⟩
    cases hk : r.kind <;> simp [Region.isMemory, hk] at h ⊢
  · cases h

/-- A legal entry address is a multiple of 4 in memory that the instruction master reads. -/
theorem entryLegal_iff {c : Config} {a : Word} : entryLegal c a = true ↔ a.toNat % 4 = 0 ∧
    ∃ r, findRegion c Region.instr a = some r ∧ (r.kind = .ram ∨ r.kind = .rom ∨ r.kind = .flash) := by
  rw [entryLegal, Bool.and_eq_true, aligned_iff, instrMemory_iff]
  rfl

/-- In a legal configuration each of the three entry addresses is legal. -/
theorem entryLegal_of_entriesLegal {c : Config} (h : entriesLegal c = true) {a : Word}
    (ha : a = c.resetAddr ∨ a = c.exceptionAddr ∨ a = c.breakAddr) : entryLegal c a = true := by
  simp only [entriesLegal, Bool.and_eq_true] at h
  obtain ⟨⟨hreset, hexception⟩, hbreak⟩ := h
  rcases ha with rfl | rfl | rfl
  · exact hreset
  · exact hexception
  · exact hbreak

/-- An illegal configuration is refused before anything happens (log 2). -/
theorem step_illegal {s : State} (h : entriesLegal s.cfg = false) : step s = .refused .illegalConfiguration := by
  simp [step, takeEvents_illegal h, finish]

/-! ## The choice at the boundary (R344; D14) -/

/-- A trigger is activated exactly where it is among the first of the list, as many as the debug level has, stands on `pc`, and
is armed where it needs that (R351, R366, R367; log 47). -/
theorem mem_execHits {t : State} {e : ExecTrigger} : e ∈ execHits t ↔
    e ∈ t.execTriggers.take (triggerCapacity t.cfg) ∧ e.addr = t.pc ∧ (e.needsArmed = true → t.armed = true) := by
  cases ha : e.needsArmed <;> simp [execHits, ha]

/-- A break is requested, on a core with a debug module, by the host or a data trigger, or by an activated breakpoint (R351). -/
theorem breakRequested_iff {t : State} : breakRequested t = true ↔ t.cfg.debugLevel ≠ .noDebug ∧ (t.hwBreak = true ∨
    ∃ e ∈ t.execTriggers.take (triggerCapacity t.cfg),
      e.addr = t.pc ∧ (e.needsArmed = true → t.armed = true) ∧ e.action = .takeBreak) := by
  simp only [breakRequested, Bool.and_eq_true, Bool.or_eq_true, bne_iff_ne, List.any_eq_true, beq_iff_eq, mem_execHits,
    and_assoc]

/-! Each action is chosen where the ones before it are not due, and the step is then the operation of its name. -/

section

variable {t : State}

theorem nextAction_reset (hr : t.resetReq = true) : nextAction t = .reset := by
  simp [nextAction, hr]

theorem nextAction_hardwareBreak (hr : t.resetReq = false) (hb : breakRequested t = true) :
    nextAction t = .hardwareBreak := by
  simp [nextAction, hr, hb]

theorem nextAction_interrupt (hr : t.resetReq = false) (hb : breakRequested t = false)
    (hi : interruptPending t = true) : nextAction t = .interrupt := by
  simp [nextAction, hr, hb, hi]

theorem nextAction_instruction (hr : t.resetReq = false) (hb : breakRequested t = false)
    (hi : interruptPending t = false) : nextAction t = .instruction := by
  simp [nextAction, hr, hb, hi]

variable {s : State} (ht : takeEvents s = .ok t)
include ht

theorem step_reset (hn : nextAction t = .reset) : step s = .next (systemReset t) := by
  simp [step, ht, hn]

theorem step_hardwareBreak (hn : nextAction t = .hardwareBreak) : step s = .next (takeBreak t) := by
  simp [step, ht, hn]

theorem step_interrupt (hn : nextAction t = .interrupt) : step s = .next (takeInterrupt t) := by
  simp [step, ht, hn]

end

end Sys2Proof.Machine

namespace Sys2Proof.Settled

open Sys2Proof.Machine

/-- Settles O44: `ipending` is nonzero exactly where one of its bits is. -/
theorem interruptCondition : Obligations.InterruptCondition := by
  intro s
  simp only [interruptPending, Bool.and_eq_true, bne_iff_ne, word_ne_zero_iff, ipending_getLsbD]

/-- Settles O46: an illegal entry address makes the configuration illegal; in a legal one each action is chosen where the ones
before it are not due, and is the entry, the reset or the instruction of its name. -/
theorem boundaryOrder : Obligations.BoundaryOrder := by
  refine ⟨fun s a ha hbad => step_illegal ?illegal,
    fun s t ht => ⟨?reset, ?hardwareBreak, ?interrupt, ?instruction, breakRequested_iff⟩⟩
  case illegal =>
    by_contra hlegal
    have hentry := entryLegal_of_entriesLegal (Bool.eq_true_of_not_eq_false hlegal) ha
    obtain ⟨haligned, r, hr, hk⟩ := entryLegal_iff.mp hentry
    rcases hbad with hmisaligned | hkinds
    · exact hmisaligned haligned
    · obtain ⟨hram, hrom, hflash⟩ := hkinds r hr
      simp [hram, hrom, hflash] at hk
  case reset => exact fun hr => step_reset ht (nextAction_reset hr)
  case hardwareBreak =>
    intro hr hb
    rw [step_hardwareBreak ht (nextAction_hardwareBreak hr hb)]
    exact breakEntry_takesBreak _ _
  case interrupt =>
    intro hr hb hi
    rw [step_interrupt ht (nextAction_interrupt hr hb hi)]
    exact exceptionEntry_takesException _ _
  case instruction => exact fun hr hb hi => step_instruction ht (nextAction_instruction hr hb hi)

end Sys2Proof.Settled
end

section
/-! SUPPORT. The timer, the mutex, the PIO core, and the registers and the bus transfers of the DMA controller (R402 to R407,
R424, R442, R450 to R457; logs 33 to 35). -/

namespace Sys2Proof.Machine

/-! ## Bits of register words -/

/-- A mask of any number of low bits, also of more than a word has. -/
theorem lowMask_bit (n : Nat) {i : Nat} (hi : i < 32) : (lowMask n).getLsbD i = decide (i < n) := by
  rw [lowMask, BitVec.getLsbD_ofNat, Nat.testBit_two_pow_sub_one, decide_eq_true hi, Bool.true_and]

theorem merge_bit (mask new old : Word) {i : Nat} (hi : i < 32) :
    (merge mask new old).getLsbD i = if mask.getLsbD i then new.getLsbD i else old.getLsbD i := by
  simp only [merge, BitVec.getLsbD_or, BitVec.getLsbD_and, BitVec.getLsbD_not, hi]
  cases mask.getLsbD i <;> simp

/-- A write that drives all byte lanes replaces the register (R400). -/
theorem merge_allLanes (v old : Word) : merge 0xffffffff v old = v := by
  refine BitVec.eq_of_getLsbD_eq fun i hi => ?_
  have hmask : (0xffffffff : Word).getLsbD i = true := (lowMask_bit 32 hi).trans (decide_eq_true hi)
  rw [merge_bit _ _ _ hi, if_pos hmask]

/-- The defined bits of a register read. -/
theorem withLow_bit {n i : Nat} (v x : Word) (hn : i < n) (hi : i < 32) : (withLow n v x).getLsbD i = v.getLsbD i := by
  rw [withLow, merge_bit _ _ _ hi, lowMask_bit n hi, if_pos (decide_eq_true hn)]

/-! ## Timer (R402 to R407, log 33) -/

section

variable {d e : Timer}

theorem Timer.irq_iff (d : Timer) : d.irq = true ↔ d.timeout = true ∧ d.ito = true := by
  rw [Timer.irq, Bool.and_eq_true]

/-- A running timer counts down by one in each cycle that does not find the counter at 0. -/
theorem Timer.cycle_counts (hr : d.running = true) (hc : d.counter ≠ 0) :
    d.cycle.1 = { d with counter := d.counter - 1 } := by
  rw [Timer.cycle, if_pos hr, if_neg hc]

/-- In the cycle that finds the counter at 0 a running timer sets TO and reloads the counter (R406, log 33). -/
theorem Timer.cycle_times_out (hr : d.running = true) (hc : d.counter = 0) :
    d.cycle.1 = { d with counter := d.period, timeout := true, running := !(d.canStop && !d.cont) } := by
  rw [Timer.cycle, if_pos hr, if_pos hc]

/-- Until the counter has come to 0, `k` cycles of a running timer take `k` from it and change nothing else. -/
theorem Timer.iterate_cycle_counts (hr : d.running = true) {k : Nat} (hk : k ≤ d.counter.toNat) :
    (fun e => (Timer.cycle e).1)^[k] d = { d with counter := d.counter - BitVec.ofNat 32 k } := by
  induction k with
  | zero => simp
  | succ k ih =>
    have hne : d.counter - BitVec.ofNat 32 k ≠ 0 := by
      have := d.counter.isLt
      intro h
      have := congrArg BitVec.toNat h
      simp only [BitVec.toNat_sub, BitVec.ofNat_eq_ofNat, BitVec.toNat_ofNat] at this
      omega
    rw [Function.iterate_succ_apply', ih (Nat.le_of_succ_le hk), Timer.cycle_counts (by exact hr) hne]
    simp [BitVec.ofNat_add, BitVec.sub_sub]

/-- A write of zero to `status` drops TO and nothing else (R402, R407). -/
theorem Timer.write_status_zero (d : Timer) : d.write 0 0 0xffffffff = .ok { d with timeout := false } := by
  simp [Timer.write]

/-- A write of `control` that succeeds takes ITO from bit 0 (R403). -/
theorem Timer.write_control_ito {v : Word} (h : d.write 1 v 0xffffffff = .ok e) : e.ito = v.getLsbD 0 := by
  simp only [Timer.write] at h
  split at h
  · cases h
  · split at h
    · cases h
    · cases h
      simp

end

/-! ## Mutex (R442) -/

/-- A write of all lanes of `mutex` is the test-and-set of R442. -/
theorem Mutex.write_mutex (d : Mutex) (v : Word) : d.write 0 v 0xffffffff = .ok { d with
    mutex := if mutexValue d.mutex = 0 ∨ mutexOwner d.mutex = mutexOwner v then v else d.mutex } := by
  simp only [Mutex.write, merge_allLanes]
  split <;> rfl

/-! ## PIO (R422, R424, log 34) -/

/-- Going from level `old` to level `new` is an edge of the type `k` (R424). -/
def EdgeKind.isEdge (k : EdgeKind) (old new : Bool) : Bool :=
  match k with
  | .rising => !old && new
  | .falling => old && !new
  | .either => old != new

section

variable {d : Pio} {i : Nat}

/-- An input port carries the level of its pin (R422). -/
theorem Pio.input_bit (hk : d.opts.kind ≠ .outputOnly)
    (hdir : d.opts.kind = .bidirectional → d.direction.getLsbD i = false) (hw : i < d.opts.width) (hi : i < 32) :
    d.input.getLsbD i = d.pins.getLsbD i := by
  rw [Pio.input, BitVec.getLsbD_and, lowMask_bit _ hi, decide_eq_true hw, Bool.true_and]
  cases hkind : d.opts.kind with
  | bidirectional => simp [merge_bit _ _ _ hi, hdir hkind]
  | inputOnly => rfl
  | inputOutput => rfl
  | outputOnly => exact absurd hkind hk

theorem Pio.edges_bit {k : EdgeKind} (hc : d.opts.capture = some k) (old new : Word) (hi : i < 32) :
    (d.edges old new).getLsbD i = k.isEdge (old.getLsbD i) (new.getLsbD i) := by
  cases k <;> simp [Pio.edges, hc, EdgeKind.isEdge, hi, Bool.and_comm]

theorem Pio.hasCapture_of_input (hk : d.opts.kind ≠ .outputOnly) (hc : d.opts.capture ≠ none) : d.hasCapture = true := by
  simp [Pio.hasCapture, Pio.hasInput, hk, Option.isSome_iff_ne_none, hc]

/-- A clock cycle captures the edges since the one before (R424). -/
theorem Pio.cycle_edgecapture (h : d.hasCapture = true) :
    d.cycle.edgecapture = d.edgecapture ||| d.edges d.seen d.input := if_pos h

/-- A captured edge stays through a clock cycle. -/
theorem Pio.cycle_keeps_edgecapture (h : d.edgecapture.getLsbD i = true) : d.cycle.edgecapture.getLsbD i = true := by
  unfold Pio.cycle
  split <;> simp [h]

/-- A write of a register other than `edgecapture` leaves it as it is. -/
theorem Pio.write_edgecapture_other {off : Nat} (h : off ≠ 3) (w m : Word) :
    (d.write off w m).edgecapture = d.edgecapture := by
  unfold Pio.write
  split
  case h_4 => contradiction
  case h_5 => rfl
  all_goals split <;> rfl

/-- A write of `edgecapture`, of any value, clears it (R424). -/
theorem Pio.write_edgecapture_clears (h : d.hasCapture = true) (w m : Word) : (d.write 3 w m).edgecapture = 0 := by
  simp [Pio.write, h]

/-- The capture bit of an input port after a clock cycle with the pins at `u` and one with the pins at `v` (R424, log 34). -/
theorem Pio.capture_bit {u v : Word} {k : EdgeKind} (hk : d.opts.kind ≠ .outputOnly)
    (hdir : d.opts.kind = .bidirectional → d.direction.getLsbD i = false) (hw : i < d.opts.width) (hi : i < 32)
    (hc : d.opts.capture = some k) :
    (((d.setPins u).cycle.setPins v).cycle).edgecapture.getLsbD i =
      ((d.setPins u).cycle.edgecapture.getLsbD i || k.isEdge (u.getLsbD i) (v.getLsbD i)) := by
  have hcapture : ((d.setPins u).cycle.setPins v).hasCapture = true :=
    Pio.hasCapture_of_input hk (Option.ne_none_iff_exists'.mpr ⟨k, hc⟩)
  have hold : ((d.setPins u).cycle.setPins v).seen.getLsbD i = u.getLsbD i := Pio.input_bit (d := d.setPins u) hk hdir hw hi
  have hnew : ((d.setPins u).cycle.setPins v).input.getLsbD i = v.getLsbD i :=
    Pio.input_bit (d := (d.setPins u).cycle.setPins v) hk hdir hw hi
  rw [Pio.cycle_edgecapture hcapture, BitVec.getLsbD_or, Pio.edges_bit (by exact hc) _ _ hi, hold, hnew]
  rfl

end

/-! ## The registers of the DMA controller (R451 to R457) -/

theorem Dma.irq_iff (d : Dma) : d.irq = true ↔ d.done = true ∧ d.control.getLsbD 4 = true := by
  rw [Dma.irq, Bool.and_eq_true]

/-- A write of zero to `status` clears DONE, LEN, REOP, WEOP and nothing else (R452, R457). -/
theorem Dma.write_status_zero (d : Dma) (x : Word) :
    d.write 0 0 0xffffffff x = .ok { d with done := false, len := false, reop := false, weop := false } := by
  simp [Dma.write]

/-- A read of `status` shows its five bits. -/
theorem Dma.read_status_bit (d : Dma) (x : Word) {i : Nat} (hi : i < 5) :
    (d.read 0 x).getLsbD i = d.statusWord.getLsbD i :=
  withLow_bit _ _ hi (by omega)

/-- The five bits of `status` (R451). -/
theorem Dma.statusWord_bits (d : Dma) : d.statusWord.getLsbD 0 = d.done ∧ d.statusWord.getLsbD 1 = d.busy ∧
    d.statusWord.getLsbD 2 = d.reop ∧ d.statusWord.getLsbD 3 = d.weop ∧ d.statusWord.getLsbD 4 = d.len := by
  simp only [Dma.statusWord, BitVec.getLsbD_or, bitAt_getLsbD]
  simp

/-! ## A DMA transaction (R452 to R456) -/

section

variable {d : Dma}

theorem Dma.begin_length (d : Dma) (x : Word) : (d.begin x).length = d.length := by
  unfold Dma.begin; split <;> rfl

theorem Dma.begin_opts (d : Dma) (x : Word) : (d.begin x).opts = d.opts := by
  unfold Dma.begin; split <;> rfl

theorem Dma.begin_active (d : Dma) (x : Word) : (d.begin x).active = d.active := by
  unfold Dma.begin; split <;> rfl

theorem Dma.begin_busy (d : Dma) (x : Word) : (d.begin x).busy = true := by
  unfold Dma.begin
  split
  · assumption
  · rfl

/-- A transaction in progress is not set up again. -/
theorem Dma.begin_of_busy (h : d.busy = true) (x : Word) : d.begin x = d := if_pos h

/-- A selected width that is legal is the only one the transaction can have (R455). -/
theorem Dma.units_of_width {w : Nat} (hb : d.busy = false) (hw : d.width = some w) (hl : d.legal = true) :
    d.units = [w] := by
  have hwidths : dmaWidths d.control = [w] := by
    unfold Dma.width at hw
    split at hw
    · cases hw; assumption
    · cases hw
  have hunits : d.units = [w].filter d.multiples := by rw [Dma.units, hwidths]
  cases hm : d.multiples w
  · simp [Dma.legal, hb, hunits, hm] at hl
  · simp [hunits, hm]

/-- A transaction by a selected and legal width is set up from the registers (R456). -/
theorem Dma.begin_of_width {w : Nat} (hb : d.busy = false) (hw : d.width = some w) (hl : d.legal = true) (x : Word) :
    d.begin x = { d with
      busy := true, readCur := d.readStart, writeCur := d.writeStart, fifo := [], readPart := 0, writePart := 0,
      readEnd := false, writeEnd := false, unit := w, mode := d.control } := by
  simp [Dma.begin, hb, Dma.units_of_width hb hw hl]

/-- What a unit written takes from the length (R454). -/
theorem Dma.unitWritten_length (d : Dma) (w : Nat) : (d.unitWritten w).length.toNat = d.length.toNat - w := by
  have hlength : (d.unitWritten w).length = d.length - BitVec.ofNat 32 (min w d.length.toNat) := by
    simp only [Dma.unitWritten]; split <;> rfl
  have := d.length.isLt
  rw [hlength, BitVec.toNat_sub, BitVec.toNat_ofNat]
  omega

theorem Dma.unitWritten_readCur (d : Dma) (w : Nat) : (d.unitWritten w).readCur = d.readCur := by
  simp only [Dma.unitWritten]; split <;> rfl

/-- The write address moves on by the unit unless WCON is set (R453, R455). -/
theorem Dma.unitWritten_writeCur (d : Dma) (w : Nat) : (d.unitWritten w).writeCur =
    if d.mode.getLsbD 9 then d.writeCur else d.writeCur + BitVec.ofNat 32 w := by
  simp only [Dma.unitWritten]; split <;> rfl

/-- With LEEN the last unit of the length ends the transaction (R452, R456). -/
theorem Dma.unitWritten_last {w : Nat} (hl : d.length.toNat ≤ w) (hleen : d.mode.getLsbD 7 = true) :
    (d.unitWritten w).done = true ∧ (d.unitWritten w).busy = false ∧ (d.unitWritten w).len = true := by
  have hzero : d.length - BitVec.ofNat 32 (min w d.length.toNat) = 0 := by
    rw [Nat.min_eq_right hl, BitVec.ofNat_toNat, BitVec.setWidth_eq, BitVec.sub_self]; rfl
  simp [Dma.unitWritten, hzero, hleen, Dma.finish]

end

/-! ## A DMA transaction by words -/

/-- A transaction by words with an empty FIFO and no unit half done, which no end of packet is ending. -/
structure Dma.AtWord (b : Dma) : Prop where
  unit : b.unit = 4
  fifo : b.fifo = []
  readPart : b.readPart = 0
  writePart : b.writePart = 0
  readEnd : b.readEnd = false
  writeEnd : b.writeEnd = false

/-- The registers of the controller after the read of the word `v`. -/
def Dma.holding (b : Dma) (v : Word) : Dma :=
  { b with fifo := [v], readCur := if b.mode.getLsbD 8 then b.readCur else b.readCur + 4 }

section

variable {b : Dma} (h : b.AtWord)
include h

theorem Dma.AtWord.nextRead : b.nextRead 4 = b.readCur := by simp [Dma.nextRead, h.readPart]

theorem Dma.AtWord.nextWrite (v : Word) : (b.holding v).nextWrite 4 = b.writeCur := by
  simp [Dma.nextWrite, Dma.holding, h.writePart]

theorem Dma.AtWord.canRead (hl : 4 ≤ b.length.toNat) (hf : 0 < b.opts.fifoDepth) : b.canRead 4 = true := by
  have hroom : 0 < (b.length.toNat + 4 - 1) / 4 := by omega
  simp only [Dma.canRead, Dma.transfersLeft, unitTransfers, h.fifo, h.readEnd, h.writePart, List.length_nil, Nat.mul_one,
    Nat.sub_zero, hroom, hf]
  rfl

theorem Dma.AtWord.not_canWrite : b.canWrite 4 = false := by simp [Dma.canWrite, h.fifo]

/-- With one word to move, or with room for one, the word read fills what the FIFO may hold. -/
theorem Dma.AtWord.holding_not_canRead (hone : b.length.toNat = 4 ∨ b.opts.fifoDepth = 1) (v : Word) :
    (b.holding v).canRead 4 = false := by
  rcases hone with hone | hone <;>
    simp [Dma.canRead, Dma.transfersLeft, Dma.holding, unitTransfers, h.writePart, hone]

theorem Dma.AtWord.holding_canWrite (v : Word) : (b.holding v).canWrite 4 = true := by
  simp [Dma.canWrite, Dma.holding, unitTransfers, h.writePart]

/-- The bus transfer of a word read completes its unit. -/
theorem Dma.AtWord.afterRead (v : Word) : b.afterRead 4 v false = b.holding v := by
  simp only [Dma.afterRead, Dma.holding, h.fifo, h.readPart, h.readEnd, unitTransfers]
  cases b.mode.getLsbD 8 <;> simp [← h.readPart, ← h.readEnd]

/-- The bus transfer of a word written completes its unit. -/
theorem Dma.AtWord.afterWrite (v : Word) :
    (b.holding v).afterWrite 4 false = ({ b.holding v with fifo := [] }).unitWritten 4 := by
  simp [Dma.afterWrite, Dma.holding, unitTransfers, h.writePart, h.writeEnd]

end

/-! ## The bus transfers of a DMA controller (R450, R456) -/

section

variable {s : State} {i : Nat} {d : Dma} {port : Region → Bool} {a : Word} {r : Region}

theorem updateDma_eq (h : deviceAt s.devices i = some (.dma d)) (f : Dma → Dma) :
    updateDma s i f = { s with devices := setDevice s.devices i (.dma (f d)) } := by
  simp [updateDma, h]

/-- What changing the registers of a controller does to them. -/
theorem deviceAt_updateDma (h : deviceAt s.devices i = some (.dma d)) (f : Dma → Dma) :
    deviceAt (updateDma s i f).devices i = some (.dma (f d)) := by
  rw [updateDma_eq h]
  exact deviceAt_setDevice h _

@[simp] theorem updateDma_mem (s : State) (i : Nat) (f : Dma → Dma) : (updateDma s i f).mem = s.mem := by
  unfold updateDma; split <;> rfl

@[simp] theorem updateDma_cfg (s : State) (i : Nat) (f : Dma → Dma) : (updateDma s i f).cfg = s.cfg :=
  (updateDma_quiet s i f).cfg

/-- RAM is no peripheral. -/
theorem slaveAt_ram (h : findRegion s.cfg port a = some r) (hk : r.kind = .ram) : slaveAt s port a = none := by
  obtain ⟨base, size, kind, ins, dat, rd, wr, other⟩ := r
  cases hk
  simp [slaveAt, h]

theorem slaveReady_ram (h : findRegion s.cfg port a = some r) (hk : r.kind = .ram) (c : BusCycle) :
    slaveReady s port a c = true := by
  simp [slaveReady, slaveAt_ram h hk]

theorem packetEnd_ram (h : findRegion s.cfg port a = some r) (hk : r.kind = .ram) (t : State) :
    packetEnd s t port a = false := by
  simp [packetEnd, slaveAt_ram h hk]

/-- A read transfer from RAM brings the value of the bytes into the FIFO and changes no memory. -/
theorem dmaRead_ram (hd : deviceAt s.devices i = some (.dma d)) {w : Nat}
    (hr : findRegion s.cfg (dmaReadPort i) a = some r) (hk : r.kind = .ram) :
    ∃ t, dmaRead s i w a = .ok t ∧ t.mem = s.mem ∧
      deviceAt t.devices i = some (.dma (d.afterRead w (readMem s.mem a (unitTransfers w).1) false)) := by
  refine ⟨updateDma (s.drawn 1) i (Dma.afterRead · w (readMem s.mem a (unitTransfers w).1) false), ?_, by simp,
    deviceAt_updateDma (by exact hd) _⟩
  rw [dmaRead, busRead_memory hr (.inl hk), ← packetEnd_ram hr hk s]
  rfl

/-- A write transfer to RAM writes the value there. -/
theorem dmaWrite_ram (hd : deviceAt s.devices i = some (.dma d)) {w : Nat} {v : Word}
    (hr : findRegion s.cfg (dmaWritePort i) a = some r) (hk : r.kind = .ram) :
    ∃ t, dmaWrite s i w a v = .ok t ∧ t.mem = writeMem s.mem a (unitTransfers w).1 v ∧
      deviceAt t.devices i = some (.dma (d.afterWrite w false)) := by
  obtain ⟨u, hu, hmem, hdev⟩ : ∃ u, busStore s (dmaWritePort i) a (unitTransfers w).1 v = .ok u ∧
      u.mem = writeMem s.mem a (unitTransfers w).1 v ∧ u.devices = s.devices := ⟨_, busStore_ram hr hk, rfl, rfl⟩
  refine ⟨updateDma u i (Dma.afterWrite · w false), ?_, by rw [updateDma_mem, hmem], deviceAt_updateDma (hdev ▸ hd) _⟩
  rw [dmaWrite, hu, ← packetEnd_ram hr hk u]
  rfl

end

/-! ## One cycle of a DMA controller (R456, log 35) -/

section

variable {s : State} {i : Nat} {d b : Dma} {r : Region}
  (hd : deviceAt s.devices i = some (.dma d)) (ha : d.active = true) (hb : d.begin s.freeNow = b)
include hd ha hb

/-- An active controller goes on with its transaction. -/
theorem dmaCycle_active : dmaCycle s i = dmaTransfer (updateDma (s.drawn 1) i (fun _ => b)) i b b.unit := by
  simp only [dmaCycle, hd, ha, if_true, hb]

/-- A cycle in which only the read port can act, on RAM. -/
theorem dmaCycle_reads {w : Nat} (hw : b.unit = w) (hread : b.canRead w = true) (hwrite : b.canWrite w = false)
    (hr : findRegion s.cfg (dmaReadPort i) (b.nextRead w) = some r) (hk : r.kind = .ram) :
    ∃ t, dmaCycle s i = .ok t ∧ t.mem = s.mem ∧ deviceAt t.devices i = some (.dma
      (b.afterRead w (readMem s.mem (b.nextRead w) (unitTransfers w).1) false)) := by
  have hready : slaveReady (updateDma (s.drawn 1) i fun _ => b) (dmaReadPort i) (b.nextRead w) .read = true :=
    slaveReady_ram (by simpa using hr) hk _
  obtain ⟨t, ht, hmem, hdev⟩ := dmaRead_ram (s := (updateDma (s.drawn 1) i fun _ => b).drawn 1) (w := w)
    (deviceAt_updateDma (by exact hd) _) (by simpa using hr) hk
  refine ⟨t, ?_, by simpa using hmem, by simpa using hdev⟩
  rw [dmaCycle_active hd ha hb, hw]
  simpa [dmaTransfer, hread, hwrite, hready] using ht

/-- A cycle in which only the write port can act, on RAM. -/
theorem dmaCycle_writes {w : Nat} (hw : b.unit = w) (hread : b.canRead w = false) (hwrite : b.canWrite w = true)
    (hr : findRegion s.cfg (dmaWritePort i) (b.nextWrite w) = some r) (hk : r.kind = .ram) :
    ∃ t, dmaCycle s i = .ok t ∧ t.mem = writeMem s.mem (b.nextWrite w) (unitTransfers w).1 (b.fifo.headD 0) ∧
      deviceAt t.devices i = some (.dma (b.afterWrite w false)) := by
  have hready : slaveReady (updateDma (s.drawn 1) i fun _ => b) (dmaWritePort i) (b.nextWrite w) .write = true :=
    slaveReady_ram (by simpa using hr) hk _
  obtain ⟨t, ht, hmem, hdev⟩ := dmaWrite_ram (s := (updateDma (s.drawn 1) i fun _ => b).drawn 1) (w := w)
    (v := b.fifo.headD 0) (deviceAt_updateDma (by exact hd) _) (by simpa using hr) hk
  refine ⟨t, ?_, by simpa using hmem, hdev⟩
  rw [dmaCycle_active hd ha hb, hw]
  simpa [dmaTransfer, hread, hwrite, hready] using ht

end

/-- A word that is read at `a` and written at `c` has there the value it has at `a`. -/
theorem bytesValue_writeMem_readMem (m : List Host.Cell) (a c : Word) :
    bytesValue (writeMem m c .word (readMem m a .word)) c 4 = bytesValue m a 4 := by
  calc bytesValue (writeMem m c .word (readMem m a .word)) c 4
      = (readMem (writeMem m c .word (readMem m a .word)) c .word).toNat := (readMem_toNat _ c .word).symm
    _ = (readMem m a .word).toNat := by rw [readMem_writeMem_word]
    _ = bytesValue m a 4 := readMem_toNat m a .word

/-- Two cycles of a controller at the start of a word, with no room to read ahead, move the word from RAM to RAM. -/
theorem dmaCycle_moves_word {s : State} {i : Nat} {d b : Dma} {ra wa : Region}
    (hd : deviceAt s.devices i = some (.dma d)) (ha : d.active = true) (hb : d.begin s.freeNow = b) (hw : b.AtWord)
    (hl : 4 ≤ b.length.toNat) (hone : b.length.toNat = 4 ∧ 0 < b.opts.fifoDepth ∨ b.opts.fifoDepth = 1)
    (hra : findRegion s.cfg (dmaReadPort i) b.readCur = some ra) (hrk : ra.kind = .ram)
    (hwa : findRegion s.cfg (dmaWritePort i) b.writeCur = some wa) (hwk : wa.kind = .ram) :
    ∃ r t v, dmaCycle s i = .ok r ∧ r.mem = s.mem ∧ dmaCycle r i = .ok t ∧
      t.mem = writeMem s.mem b.writeCur .word (readMem s.mem b.readCur .word) ∧
      deviceAt t.devices i = some (.dma (({ b.holding v with fifo := [] }).unitWritten 4)) := by
  have hdepth : 0 < b.opts.fifoDepth := hone.elim And.right fun h => h ▸ Nat.one_pos
  have hfull : b.length.toNat = 4 ∨ b.opts.fifoDepth = 1 := hone.imp_left And.left
  obtain ⟨r, hr, hrmem, hrdev⟩ := dmaCycle_reads hd ha hb hw.unit (hw.canRead hl hdepth) hw.not_canWrite
    (by rwa [hw.nextRead]) hrk
  rw [hw.nextRead, hw.afterRead] at hrdev
  generalize hv : readMem s.mem b.readCur (unitTransfers 4).1 = v at hrdev
  have hactive : (b.holding v).active = true := by rw [← ha, ← d.begin_active s.freeNow, hb]; rfl
  have hbusy : (b.holding v).busy = true := by rw [← d.begin_busy s.freeNow, hb]; rfl
  obtain ⟨t, ht, htmem, htdev⟩ := dmaCycle_writes hrdev hactive (Dma.begin_of_busy hbusy _) hw.unit
    (hw.holding_not_canRead hfull v) (hw.holding_canWrite v) (by rwa [hw.nextWrite, (dmaCycle_quiet hr).cfg]) hwk
  rw [hw.nextWrite, hrmem] at htmem
  rw [hw.afterWrite] at htdev
  exact ⟨r, t, v, hr, hrmem, ht, by rw [htmem, ← hv]; rfl, htdev⟩

end Sys2Proof.Machine

namespace Sys2Proof.Settled

open Sys2Proof.Machine

/-- Settles O55: the set-up from the registers, then the two cycles of one word. -/
theorem dmaMovesWord : Obligations.DmaMovesWord := by
  rintro s i d _ hd ha rfl
  refine ⟨fun hb hw hl => Dma.begin_of_width hb hw hl _, ?_⟩
  intro ra wa hunit hl hfifo hrp hwp hre hwe hone hra hrk hwa hwk
  rw [← d.begin_length s.freeNow, ← d.begin_opts s.freeNow] at hone
  obtain ⟨r, t, v, hr, hrmem, ht, htmem, hdev⟩ := dmaCycle_moves_word hd ha rfl ⟨hunit, hfifo, hrp, hwp, hre, hwe⟩
    (by rwa [Dma.begin_length]) hone hra hrk hwa hwk
  refine ⟨r, t, _, hr, hrmem, ht, hdev, ?value, ?frame, ?length, Dma.unitWritten_readCur _ 4,
    Dma.unitWritten_writeCur _ 4, fun hfour hleen => Dma.unitWritten_last ?last hleen⟩
  case value => rw [htmem, bytesValue_writeMem_readMem]
  case frame => exact fun x hx => htmem ▸ readByte_writeMem_outside s.mem _ x .word _ hx
  case length => rw [Dma.unitWritten_length, ← d.begin_length s.freeNow]; rfl
  case last => exact ((congrArg BitVec.toNat (d.begin_length s.freeNow)).trans hfour).le

/-- Settles O51: the counter comes to 0 after `n` cycles without a timeout, and the next cycle finds it there. -/
theorem timerPeriod : Obligations.TimerPeriod := by
  rintro d _ hrun hto rfl
  have counts {k : Nat} (hk : k ≤ d.counter.toNat) := Timer.iterate_cycle_counts hrun hk
  have last : (fun e => (Timer.cycle e).1)^[d.counter.toNat + 1] d =
      { d with counter := d.period, timeout := true, running := !(d.canStop && !d.cont) } := by
    rw [Function.iterate_succ_apply', counts le_rfl, Timer.cycle_times_out (by exact hrun) (by simp)]
    rfl
  refine ⟨fun k hk => ?_, ?_, ?_⟩
  · rw [counts hk]; exact hto
  · rw [last]
  · rw [last]

/-- Settles O52: the output is TO and ITO, the cycle at 0 sets TO, the two writes drop TO and ITO. -/
theorem timerInterrupt : Obligations.TimerInterrupt := by
  refine fun d => ⟨d.irq_iff, fun hrun hzero hito => ?_, ⟨_, d.write_status_zero, rfl, rfl⟩, fun e v hv h => ?_⟩
  · rw [Timer.cycle_times_out hrun hzero]
    exact hito
  · rw [Timer.irq, Timer.write_control_ito h, hv, Bool.and_false]

/-- Settles O56: the capture bit after two cycles for each edge type, and what keeps it. -/
theorem pioEdgeCapture : Obligations.PioEdgeCapture := by
  intro d u v x i hk hdir hw hi e f he hf
  obtain rfl : (d.setPins u).cycle = e := by simpa [Core.cycle] using he
  obtain rfl : ((d.setPins u).cycle.setPins v).cycle = f := by simpa [Core.cycle] using hf
  have captured {k : EdgeKind} (hc : d.opts.capture = some k) := Pio.capture_bit (u := u) (v := v) hk hdir hw hi hc
  refine ⟨captured, captured, captured, fun hset => ⟨hset, ?cycle, fun off w m hoff => ?write⟩, fun hc w => ?clear⟩
  case cycle => exact Pio.cycle_keeps_edgecapture (d := d.setPins u) hset
  case write => rwa [Pio.write_edgecapture_other hoff]
  case clear => exact Pio.write_edgecapture_clears (Pio.hasCapture_of_input hk hc) w _

/-- Settles O53: a write of all lanes is the test-and-set. -/
theorem mutexTestAndSet : Obligations.MutexTestAndSet :=
  fun d v _ => ⟨rfl, _, d.write_mutex v, rfl⟩

/-- Settles O54: the output, the write that clears it, and the five bits of `status`. -/
theorem dmaInterrupt : Obligations.DmaInterrupt := by
  intro d x
  have shown {i : Nat} (hi : i < 5) := d.read_status_bit x hi
  obtain ⟨hdone, hbusy, hreop, hweop, hlen⟩ := d.statusWord_bits
  exact ⟨d.irq_iff, ⟨_, d.write_status_zero x, rfl, rfl⟩, (shown (by decide)).trans hdone,
    (shown (by decide)).trans hbusy, (shown (by decide)).trans hreop, (shown (by decide)).trans hweop, (shown (by decide)).trans hlen⟩

end Sys2Proof.Settled
end

section
/-! SUPPORT. The serial cores: the data register of the JTAG UART, the transmitter and the interrupt output of the UART,
the receiver of the SPI core (R482, R493, R494, R497, R512 to R514; logs 36 to 38). -/

namespace Sys2Proof.Machine

/-! ## JTAG UART (R482) -/

/-- The defined bits of `data`: DATA, RVALID and RAVAIL (R481, R482). -/
theorem jtagData_defined : ∀ i < 32, i < 8 ∨ 15 ≤ i → (0xffff80ff : Word).getLsbD i = true := by decide

section

variable (n : Nat) (b : Bool) (c : Byte) (x : Word)

theorem jtagDataWord_bit {i : Nat} (hi : i < 32) (hdef : i < 8 ∨ 15 ≤ i) : (jtagDataWord n b c x).getLsbD i =
    (decide (16 ≤ i) && n.testBit (i - 16) || decide (i = 15) && b || c.getLsbD i) := by
  have hcount : i - 16 < 32 := by omega
  rw [jtagDataWord, merge_bit _ _ _ hi, if_pos (jtagData_defined i hi hdef)]
  simp only [BitVec.getLsbD_or, BitVec.getLsbD_shiftLeft, BitVec.getLsbD_ofNat, bitAt_getLsbD, BitVec.getLsbD_setWidth, hi,
    hcount, decide_true, Bool.true_and, Bool.and_true, ← decide_not, Nat.not_lt]

theorem jtagDataWord_data : (jtagDataWord n b c x).extractLsb' 0 8 = c := by
  refine BitVec.eq_of_getLsbD_eq fun i hi => ?_
  obtain ⟨hword, hravail, hrvalid⟩ : i < 32 ∧ ¬ 16 ≤ i ∧ i ≠ 15 := by omega
  rw [BitVec.getLsbD_extractLsb', Nat.zero_add, jtagDataWord_bit _ _ _ _ hword (.inl hi)]
  simp [hi, hravail, hrvalid]

theorem jtagDataWord_rvalid : (jtagDataWord n b c x).getLsbD 15 = b := by
  rw [jtagDataWord_bit _ _ _ _ (by decide) (.inr le_rfl)]
  simp

theorem jtagDataWord_ravail : (jtagDataWord n b c x).extractLsb' 16 16 = BitVec.ofNat 16 n := by
  refine BitVec.eq_of_getLsbD_eq fun i hi => ?_
  obtain ⟨hword, hdef, hrvalid, hdata⟩ : 16 + i < 32 ∧ 15 ≤ 16 + i ∧ 16 + i ≠ 15 ∧ 8 ≤ 16 + i := by omega
  rw [BitVec.getLsbD_extractLsb', jtagDataWord_bit _ _ _ _ hword (.inr hdef), BitVec.getLsbD_ofNat,
    BitVec.getLsbD_of_ge c _ hdata]
  simp [hrvalid]

end

section

variable {d : JtagUart}

theorem JtagUart.read_data_cons {c : Byte} {rest : List Byte} (h : d.readFifo = c :: rest) (x : Word) :
    d.read 0 x = (jtagDataWord rest.length true c x, { d with readFifo := rest }) := by
  simp only [JtagUart.read, h]

theorem JtagUart.read_data_nil (h : d.readFifo = []) (x : Word) :
    d.read 0 x = (jtagDataWord 0 false (x.setWidth 8) x, d) := by
  simp only [JtagUart.read, h]

/-- A write of `data` goes to the write FIFO, or is lost where that is full (R482). -/
theorem JtagUart.write_data {v : Word} (h : v &&& 0x7f00 = 0) : d.write 0 v 0xffffffff = .ok { d with
    writeFifo :=
      if d.writeFifo.length < d.opts.writeDepth then d.writeFifo ++ [v.extractLsb' 0 8] else d.writeFifo } := by
  have hreserved : ¬ (v &&& 0xffffffff &&& 0x7f00 ≠ 0) := by rwa [not_not, BitVec.and_assoc]
  refine (if_neg hreserved).trans ?_
  by_cases hroom : d.writeFifo.length < d.opts.writeDepth <;> simp [hroom, ← BitVec.setWidth_eq_extractLsb']

end

/-! ## UART (R493, R494, R497; log 37) -/

section

variable {d : Uart}

/-- A character is cut to the Data Bits (R490). -/
theorem Uart.char_bit (d : Uart) (c : BitVec 9) {i : Nat} (hi : i < 9) :
    (d.char c).getLsbD i = (decide (i < d.opts.dataBits) && c.getLsbD i) := by
  rw [Uart.char, BitVec.getLsbD_and, BitVec.getLsbD_ofNat, Nat.testBit_two_pow_sub_one, decide_eq_true hi, Bool.true_and,
    Bool.and_comm]

/-- A write of `txdata` with TRDY set that succeeds fills the register and drops TRDY (R493). -/
theorem Uart.write_txdata {e : Uart} {v x : Word} (ht : d.trdy = true) (h : d.write 1 v 0xffffffff x = .ok e) :
    e = { d with txdata := d.char (v.setWidth 9), trdy := false, eop := d.eop || d.isEop (d.char (v.setWidth 9)) } := by
  simp only [Uart.write, merge_allLanes, Uart.writeTx, ht, if_true] at h
  split at h
  · cases h
  · exact (Except.ok.inj h).symm

/-- A cycle with a full `txdata` and an idle shift register begins the transmission (R493). -/
theorem Uart.cycle_begins (ht : d.trdy = false) (hl : d.txLeft = 0) :
    d.cycle.trdy = true ∧ d.cycle.txShift = d.txdata ∧ d.cycle.txLeft = d.charCycles := by
  simp [Uart.cycle, Uart.sampleCts, Uart.transmit, ht, hl]

/-- A cycle of a transmission takes one from the cycles left. -/
theorem Uart.cycle_txLeft (h : d.txLeft ≠ 0) : d.cycle.txLeft = d.txLeft - 1 := by
  simp [Uart.cycle, Uart.sampleCts, Uart.transmit, h]

/-- Until the shift register is empty, `k` cycles take `k` from the cycles left. -/
theorem Uart.iterate_cycle_txLeft {k : Nat} (hk : k ≤ d.txLeft) : (Uart.cycle^[k] d).txLeft = d.txLeft - k := by
  induction k with
  | zero => rfl
  | succ k ih =>
    have hleft := ih (Nat.le_of_succ_le hk)
    have hbusy : (Uart.cycle^[k] d).txLeft ≠ 0 := by omega
    rw [Function.iterate_succ_apply', Uart.cycle_txLeft hbusy, hleft, Nat.sub_sub]

/-- The conditions that can interrupt are bits 0 to 8, 10 and 12 (R497). -/
theorem Uart.irqMask_bit : ∀ n < 32,
    ((0x15ff : Word).getLsbD n = true ↔ n ∈ [0, 1, 2, 3, 4, 5, 6, 7, 8, 10, 12]) := by decide

theorem Uart.irqWord_bit (d : Uart) {n : Nat} (hn : n < 32) :
    (d.statusWord &&& d.control.setWidth 32 &&& 0x15ff).getLsbD n = true ↔
      n ∈ [0, 1, 2, 3, 4, 5, 6, 7, 8, 10, 12] ∧ d.statusWord.getLsbD n = true ∧ d.control.getLsbD n = true := by
  rw [BitVec.getLsbD_and, BitVec.getLsbD_and, BitVec.getLsbD_setWidth, Bool.and_eq_true, Bool.and_eq_true,
    Uart.irqMask_bit n hn, decide_eq_true hn, Bool.true_and, and_comm]

end

/-! ## SPI (R512 to R514; log 38) -/

section

variable {d : Spi}

/-- At width 16 no bit is cut. -/
theorem Spi.cut_of_width_16 (h : d.opts.width = 16) (w : BitVec 16) : d.cut w = w := by
  have hmask : BitVec.ofNat 16 (2 ^ 16 - 1) = BitVec.allOnes 16 := rfl
  rw [Spi.cut, h, hmask, BitVec.and_allOnes]

/-- A word that arrives without overrun is in `rxdata` (R512). -/
theorem Spi.receive_rxdata (h : d.rrdy = false) (w : BitVec 16) (x : Word) : (d.receive w x).rxdata = d.cut w := by
  simp [Spi.receive, h]

theorem Spi.read_rxdata_bit (d : Spi) (x : Word) {i : Nat} (hw : i < d.opts.width) (hi : i < 16) :
    (d.read 0 x).1.getLsbD i = d.rxdata.getLsbD i := by
  have hword : i < 32 := by omega
  exact (withLow_bit _ _ hw hword).trans (by simp [hword])

/-- A write of `status`, of any value, clears the two overrun bits (R514). -/
theorem Spi.write_status (d : Spi) (v : Word) : d.write 2 v 0xffffffff = .ok { d with roe := false, toe := false } := by
  simp [Spi.write]

/-- A write of `txdata` with TRDY clear is ignored but for TOE (R513, R514). -/
theorem Spi.write_txdata_overrun (h : d.trdy = false) (v m : Word) : d.write 1 v m = .ok { d with toe := true } := by
  simp [Spi.write, h]

end

end Sys2Proof.Machine

namespace Sys2Proof.Settled

open Sys2Proof.Machine

/-- Settles O57: the fields of the word read, with a character waiting and with none, and the write. -/
theorem jtagUartData : Obligations.JtagUartData := by
  refine fun d x v c rest => ⟨fun hfifo hcount => ?waiting, fun hfifo => ?none, JtagUart.write_data⟩
  case waiting =>
    rw [JtagUart.read_data_cons hfifo, jtagDataWord_ravail, BitVec.toNat_ofNat, Nat.mod_eq_of_lt hcount]
    exact ⟨rfl, jtagDataWord_data _ _ _ _, jtagDataWord_rvalid _ _ _ _, rfl⟩
  case none =>
    rw [JtagUart.read_data_nil hfifo]
    exact ⟨rfl, jtagDataWord_rvalid _ _ _ _, jtagDataWord_ravail _ _ _ _⟩

/-- Settles O58: the write, the cycle that begins the transmission, and the countdown. -/
theorem uartTransmits : Obligations.UartTransmits := by
  intro d e v x htrdy hidle hwrite
  have he := Uart.write_txdata htrdy hwrite
  have hfull : e.trdy = false := by rw [he]
  have hlength : e.charCycles = d.charCycles := by rw [he]; rfl
  obtain ⟨hready, hshift, hleft⟩ := Uart.cycle_begins hfull (by rw [he]; exact hidle)
  rw [hlength] at hleft
  have countdown {k : Nat} (hk : k ≤ d.charCycles) : (Uart.cycle^[k] e.cycle).txLeft = d.charCycles - k := by
    rw [Uart.iterate_cycle_txLeft (hleft ▸ hk), hleft]
  refine ⟨fun i hi => ?bits, hfull, hready, hshift, hleft, ?after, fun k hk => ?during⟩
  case bits => rw [he, Uart.char_bit _ _ hi, BitVec.getLsbD_setWidth, decide_eq_true hi, Bool.true_and]
  case after => rw [countdown le_rfl, Nat.sub_self]
  case during =>
    rw [countdown hk.le]
    exact Nat.sub_ne_zero_of_lt hk

/-- Settles O59: the word of the enabled conditions is nonzero where one of its bits is 1. -/
theorem uartInterrupt : Obligations.UartInterrupt := by
  intro d
  rw [Uart.irq, bne_iff_ne, word_ne_zero_iff]
  refine exists_congr fun n => ⟨fun ⟨hn, hbit⟩ => (d.irqWord_bit hn).mp hbit, fun ⟨hmem, hstatus, hcontrol⟩ => ?_⟩
  have hn : n < 32 := BitVec.lt_of_getLsbD hstatus
  exact ⟨hn, (d.irqWord_bit hn).mpr ⟨hmem, hstatus, hcontrol⟩⟩

/-- Settles O60: the arrival, the read and the two writes. -/
theorem spiReceive : Obligations.SpiReceive := fun d w x v =>
  ⟨rfl, rfl, fun hr hw => (Spi.receive_rxdata hr w x).trans (Spi.cut_of_width_16 hw w), rfl,
    fun _ => d.read_rxdata_bit x, d.write_status v, fun ht => Spi.write_txdata_overrun ht v _⟩

end Sys2Proof.Settled
end
